-- ==== Sys2Proof/Word.lean ====
section
/-! DEFINITION. The two data units of the block: the byte, and the times and counts that are plain naturals. -/

namespace Sys2Proof

/-- A byte, an unsigned integer 0..255 (00_scope.md section 6). -/
abbrev Byte := BitVec 8

/-- A time in ticks: a natural number that does not wrap (R23). -/
abbrev Time := Nat

end Sys2Proof
end

