-- ==== Sys2Proof/Config.lean ====
section
/-! DEFINITION. What an implementation fixes (R3, R28) and the values the spec leaves free (U1, U3). -/

namespace Sys2Proof

/-- `FRAME_LEN` (R3): bytes in a frame. -/
abbrev frameLen : Nat := 14

/-- `PAYLOAD_LEN` (R3): bytes of payload in a frame. -/
abbrev payloadLen : Nat := 10

/-- `ST_OK` (R3): the one status code that means success. -/
abbrev stOk : Byte := 0x00#8

/-- `ST_FAIL` (R3): the generic failure status code. -/
abbrev stFail : Byte := 0x01#8

/-- The classes of `CMD_CLASS` (R3, R78). -/
inductive CmdClass where
  | varRead
  | status
  | mode
  | unclassified
  deriving DecidableEq, Repr

/-- The parameters of one request kind k (R3): `REQ_CMD[k]`, `RESP_CMD[k]`, `FAIL_CODE[k]`, `TIMEOUT_TICKS[k]`. -/
structure KindParams where
  reqCmd : Byte
  respCmd : Byte
  failCode : Byte
  timeoutTicks : Nat := 2000
  deriving DecidableEq, Repr

/-- The parameters of the block (R3), each with R3's default where it has one. A run never changes them (R28). `kinds`
lists `KINDS` in ascending order, a kind being its position (log 17); R3's default `{CAL}` names one kind, but the codes
of a kind have no default. `cmdClass` lists the classified codes, every other code having class `NONE`: by default 0x10
alone is classified (R3, 92_eei_decisions.md D14), and `STATUS_CODES` and `MODE_CODES` are empty. `qDepth` is `none`
where the queue is unbounded. `tickPeriodUs` is the real time of a tick, on which no rule depends (R247). -/
structure Config where
  cw : Nat := 32
  rbCap : Nat
  rbMaxCap : Nat := 2 ^ (cw - 1)
  header : Byte := 0xAA#8
  footer : Byte := 0x55#8
  tickPeriodUs : Nat := 1000
  paceTicks : Nat := 10
  kinds : List KindParams
  cmdClass : List (Byte × CmdClass) := [(0x10#8, .varRead)]
  qDepth : Option Nat := none
  deriving DecidableEq, Repr

/-- The configuration of `State.reset`: the default of R3 for every parameter that has one, `CMD_CLASS` among them. The
parameters to which R3 gives none, `RB_CAP` and the codes of the one kind `CAL`, have the values of the spec's test
configuration `TCFG` (00_scope.md section 5): DESIGN CHOICE, unsafe for a claim that names one of them (log 2). -/
def Config.standard : Config where
  rbCap := 64
  kinds := [{ reqCmd := 0x20#8, respCmd := 0x21#8, failCode := 0x02#8 }]

/-- The spec's test configuration `TCFG` (00_scope.md section 5), whose `CMD_CLASS` adds a `STATUS` and a `MODE` code to
the default. -/
def Config.tcfg : Config :=
  { Config.standard with cmdClass := [(0x10#8, .varRead), (0x30#8, .status), (0x40#8, .mode)] }

/-- Free value: the n-th 16-bit value drawn by an `RB_CHECKSUM` whose range leaves the content (R106, U3; log 11). -/
opaque Config.freeSum : Nat → BitVec 16

/-- Free value: what an unwritten cell of the ring storage holds (R13, U1; log 12). -/
opaque Config.unwrittenByte : Nat → Byte

end Sys2Proof
end

