-- ==== Sys2Proof/Syntax.lean ====
section
/-! DEFINITION. The operations of the block and its wire frames: one constructor per row of spec/opcode_table.json,
and the two forms in which they reach the block. -/

namespace Sys2Proof

/-- One constructor per row of the opcode table. Operands are R88's: a `CW`-bit operand and a count are naturals, a
byte sequence is a list, a kind is its position in `KINDS`. The five `frame*` rows are the arrival of that frame on the
inbound byte source (log 5); their checksum byte is determined by the others (R71) and so is no operand. -/
inductive Instr where
  /-- `RESET` (R230). -/
  | reset
  /-- `RB_ALLOC(capacity)` (R101). -/
  | rbAlloc (capacity : Nat)
  /-- `RB_PUSH(bytes)` (R102). -/
  | rbPush (bytes : List Byte)
  /-- `RB_POP(maxLen)` (R103). -/
  | rbPop (maxLen : Nat)
  /-- `RB_PEEK(start, len)` (R104). -/
  | rbPeek (start len : Nat)
  /-- `RB_DISCARD(len)` (R105). -/
  | rbDiscard (len : Nat)
  /-- `RB_CHECKSUM(n, m)` (R106). -/
  | rbChecksum (n m : Nat)
  /-- `RB_LENGTH()` (R107). -/
  | rbLength
  /-- `FC_ENCODE(command, payload)` (R120). -/
  | fcEncode (command : Byte) (payload : List Byte)
  /-- `FC_EXTRACT()` (R122). -/
  | fcExtract
  /-- `FC_DISPATCH(command, payload)` (R132). -/
  | fcDispatch (command : Byte) (payload : List Byte)
  /-- `CQ_ENQUEUE(frame)` (R140). -/
  | cqEnqueue (frame : List Byte)
  /-- `CMD_SUBMIT(commandCode, payload)` (R141). -/
  | cmdSubmit (commandCode : Byte) (payload : List Byte)
  /-- `WK_SERVE` with the transport's answer `bytesWritten` (R143). -/
  | wkServe (bytesWritten : Nat)
  /-- `WK_WAKE` (R144). -/
  | wkWake
  /-- `CTL_SHUTDOWN` (R145). -/
  | ctlShutdown
  /-- `RC_ISSUE(kind, payload)` (R161). -/
  | rcIssue (kind : Nat) (payload : List Byte)
  /-- `RC_RESOLVE(kind, status)` (R163). -/
  | rcResolve (kind : Nat) (status : Byte)
  /-- `RC_EXPIRE(kind)` (R166). -/
  | rcExpire (kind : Nat)
  /-- `TP_RX(bytes)` (R180). -/
  | tpRx (bytes : List Byte)
  /-- `TP_CONNECT` (R184). -/
  | tpConnect
  /-- `TP_DISCONNECT` (R185). -/
  | tpDisconnect
  /-- `TICK` (R186). -/
  | tick
  /-- `FRAME` (R70): a frame whose command falls under none of the rows below. -/
  | frame (command : Byte) (payload : List Byte)
  /-- `FRAME.VAR_READ` (R74): command 0x10, identifier, 32-bit value, payload bytes 5..9. -/
  | frameVarRead (identifier : Byte) (value : BitVec 32) (rest : List Byte)
  /-- `FRAME.STATUS` (R75): a command of class `STATUS`, status, state, payload bytes 2..9. -/
  | frameStatus (command status state : Byte) (rest : List Byte)
  /-- `FRAME.MODE` (R76): a command of class `MODE`, mode, payload bytes 1..9. -/
  | frameMode (command mode : Byte) (rest : List Byte)
  /-- `FRAME.RESPONSE` (R77): a command that is some kind's `RESP_CMD`, status byte, payload bytes 1..9. -/
  | frameResponse (command status : Byte) (rest : List Byte)
  deriving DecidableEq, Repr

/-- The 23 operations that have an op-select code (R84). -/
inductive Opcode where
  | reset | rbAlloc | rbPush | rbPop | rbPeek | rbDiscard | rbChecksum | rbLength
  | fcEncode | fcExtract | fcDispatch
  | cqEnqueue | cmdSubmit | wkServe | wkWake | ctlShutdown
  | rcIssue | rcResolve | rcExpire
  | tpRx | tpConnect | tpDisconnect | tick
  deriving DecidableEq, Repr

/-- One step's input as bytes, in either of the table's two formats: an `OP8` transaction (its op byte, then its
operands, log 4) or a `FRAME14` arrival (the frame's 14 bytes, byte 0 first, R72). -/
inductive Transaction where
  | op8 (bytes : List Byte)
  | frame14 (bytes : List Byte)
  deriving DecidableEq, Repr

end Sys2Proof
end

