-- ==== Sys2Proof/Machine/Operands.lean ====
section
/-! DEFINITION. Arithmetic at the spec's widths (R50), operand and field assembly (R71, R73 to R79), byte order
(R45), the look-ups over the configuration (R78), and the check of a configuration (R4). -/

namespace Sys2Proof.Machine

/-! ### Unsigned arithmetic at width `n` (00_scope.md section 6, R50) -/

/-- `uN(v)`: truncation to `n` bits. -/
def truncW (n v : Nat) : Nat := v % 2 ^ n

/-- `a +_N b`. -/
def addW (n a b : Nat) : Nat := truncW n (a + b)

/-- `a -_N b`: for `a < b` this is `a - b + 2^N`. -/
def subW (n a b : Nat) : Nat := truncW n (a + (2 ^ n - truncW n b))

/-- `ispow2(c)`: `c >= 1` and `c & (c - 1) = 0` (00_scope.md section 6, G1). -/
def isPow2 (c : Nat) : Bool := decide (1 ≤ c) && (c &&& (c - 1)) == 0

/-- The physical index a cursor value designates: `cursor & (cap - 1)` (R40). -/
def physIndex (cap cursor : Nat) : Nat := cursor &&& (cap - 1)

/-! ### Sums and checksums -/

/-- The sum of a byte sequence as a natural, each byte zero-extended (R50). -/
def byteSum (bs : List Byte) : Nat := (bs.map BitVec.toNat).sum

/-- The 16-bit sum of `RB_CHECKSUM` (R50, R106). -/
def sum16 (bs : List Byte) : BitVec 16 := BitVec.ofNat 16 (byteSum bs)

/-- The low 8 bits of the sum of a byte sequence (R71). -/
def sum8 (bs : List Byte) : Byte := BitVec.ofNat 8 (byteSum bs)

/-- `csum(f)`: the low 8 bits of the sum of frame bytes 0..11 (R71). -/
def csum (f : List Byte) : Byte := sum8 (f.take 12)

/-! ### Frames -/

/-- Payload normalisation: zero-padded on the right below 10 bytes, truncated above (R73). -/
def normalizePayload (q : List Byte) : List Byte :=
  if q.length < payloadLen then q ++ List.replicate (payloadLen - q.length) 0x00#8 else q.take payloadLen

/-- The frame of a command and a payload of any length: `HEADER, command, payload[10], checksum, FOOTER` (R70, R120). -/
def frameOf (cfg : Config) (command : Byte) (payload : List Byte) : List Byte :=
  let body := cfg.header :: command :: normalizePayload payload
  body ++ [sum8 body, cfg.footer]

/-- A valid frame (R79): 14 bytes with the header, the footer and the checksum in place; nothing else is checked. -/
def validFrame (cfg : Config) (w : List Byte) : Bool :=
  w.length == frameLen && w[0]? == some cfg.header && w[13]? == some cfg.footer && w[12]? == some (csum w)

/-- Payload byte i; the payload of a decoded frame has all ten. -/
def payloadByte (p : List Byte) (i : Nat) : Byte := p.getD i 0x00#8

/-- The 32-bit value of a read-variable payload: bytes 1..4, little-endian, unsigned (R74, R45 (c)). -/
def readValue (p : List Byte) : BitVec 32 :=
  (payloadByte p 1).setWidth 32 ||| ((payloadByte p 2).setWidth 32 <<< 8) |||
    ((payloadByte p 3).setWidth 32 <<< 16) ||| ((payloadByte p 4).setWidth 32 <<< 24)

/-- The four bytes of a 32-bit value, least significant first (R74). -/
def valueBytes (v : BitVec 32) : List Byte :=
  [v.extractLsb' 0 8, v.extractLsb' 8 8, v.extractLsb' 16 8, v.extractLsb' 24 8]

/-- The command code the table fixes for `FRAME.VAR_READ` (R74, R78). -/
abbrev varReadCode : Byte := 0x10#8

/-! ### Naturals as operand bytes, least significant first (log 4) -/

/-- `w` bytes of a natural, least significant first. -/
def leBytes : Nat → Nat → List Byte
  | 0, _ => []
  | w + 1, n => BitVec.ofNat 8 n :: leBytes w (n / 256)

/-- The natural that a byte sequence denotes, least significant byte first. -/
def leNat : List Byte → Nat
  | [] => 0
  | b :: bs => b.toNat + 256 * leNat bs

/-- The bytes of a natural operand of no fixed width. -/
def natBytes (n : Nat) : List Byte := leBytes (n.log2 / 8 + 1) n

/-- How many bytes a `CW`-bit operand takes. -/
def operandBytes (cw : Nat) : Nat := (cw + 7) / 8

/-! ### Look-ups over the configuration -/

/-- `CMD_CLASS(command)` (R78): `NONE` for a code the map does not list. -/
def classOf (cfg : Config) (command : Byte) : CmdClass :=
  (cfg.cmdClass.lookup command).getD .unclassified

/-- The kind whose `RESP_CMD` is the command, if any (R165). -/
def respKind (cfg : Config) (command : Byte) : Option Nat :=
  cfg.kinds.findIdx? (fun kp => kp.respCmd == command)

/-- The kind whose `REQ_CMD` is the command, if any (R142). -/
def reqKind (cfg : Config) (command : Byte) : Option Nat :=
  cfg.kinds.findIdx? (fun kp => kp.reqCmd == command)

/-- R4's clauses, with the constraints 92_eei_decisions.md puts on the classified codes: each listed once, `STATUS` and
`MODE` without the code 0x10. Clause (g) holds by type. DESIGN CHOICE (log 26): it admits a configuration that leaves
0x10 in class `NONE` or gives `VAR_READ` to another code, which R78 and R3 leave open between them. -/
def configWf (cfg : Config) : Bool :=
  decide (1 ≤ cfg.cw) &&
  (isPow2 cfg.rbCap && decide (cfg.rbCap ≤ cfg.rbMaxCap) && decide (cfg.rbMaxCap ≤ 2 ^ (cfg.cw - 1))) &&
  decide (16 ≤ cfg.rbCap) &&
  (decide (cfg.kinds.map KindParams.respCmd).Nodup && decide (cfg.kinds.map KindParams.reqCmd).Nodup) &&
  cfg.kinds.all (fun kp => kp.failCode != stOk) &&
  cfg.kinds.all (fun kp => decide (1 ≤ kp.timeoutTicks)) &&
  (decide (cfg.cmdClass.map Prod.fst).Nodup && classOf cfg varReadCode != .status &&
    classOf cfg varReadCode != .mode)

/-- The most specific `FRAME14` row a command and a 10-byte payload fall under (R74 to R78; log 6). -/
def classifyFrame (cfg : Config) (command : Byte) (p : List Byte) : Instr :=
  if (respKind cfg command).isSome then .frameResponse command (payloadByte p 0) (p.drop 1)
  else match classOf cfg command with
    | .varRead =>
      if command = varReadCode then .frameVarRead (payloadByte p 0) (readValue p) (p.drop 5) else .frame command p
    | .status => .frameStatus command (payloadByte p 0) (payloadByte p 1) (p.drop 2)
    | .mode => .frameMode command (payloadByte p 0) (p.drop 1)
    | .unclassified => .frame command p

end Sys2Proof.Machine
end

