-- ==== Sys2Proof/WellFormed.lean ====
section
/-! DEFINITION. Which terms of `Instr` are operations the spec has: every operand inside its type (R88), every frame
under its own row of the table (R74 to R78). -/

namespace Sys2Proof

/-- A `CW`-bit operand (R88). -/
def fitsCw (cfg : Config) (v : Nat) : Bool := decide (v < 2 ^ cfg.cw)

/-- A member of `KINDS`; a kind is carried in one byte, which `RESP_CMD`'s injectivity makes enough (log 17). -/
def isKind (cfg : Config) (k : Nat) : Bool := decide (k < cfg.kinds.length) && decide (k < 256)

/-- Each operand has R88's type under the configuration; each frame's command falls under the constructor's row. -/
def Instr.wf (cfg : Config) : Instr → Bool
  | .reset => true
  | .rbAlloc capacity => fitsCw cfg capacity
  | .rbPush _ => true
  | .rbPop maxLen => fitsCw cfg maxLen
  | .rbPeek start len => fitsCw cfg start && fitsCw cfg len
  | .rbDiscard len => fitsCw cfg len
  | .rbChecksum n m => fitsCw cfg n && fitsCw cfg m
  | .rbLength => true
  | .fcEncode _ _ => true
  | .fcExtract => true
  | .fcDispatch _ payload => payload.length == payloadLen
  | .cqEnqueue f => f.length == frameLen
  | .cmdSubmit _ _ => true
  | .wkServe _ => true
  | .wkWake => true
  | .ctlShutdown => true
  | .rcIssue kind _ => isKind cfg kind
  | .rcResolve kind _ => isKind cfg kind
  | .rcExpire kind => isKind cfg kind
  | .tpRx _ => true
  | .tpConnect => true
  | .tpDisconnect => true
  | .tick => true
  | .frame command payload =>
    payload.length == payloadLen && !(Machine.respKind cfg command).isSome &&
      (Machine.classOf cfg command == .unclassified ||
        (Machine.classOf cfg command == .varRead && command != Machine.varReadCode))
  | .frameVarRead _ _ rest =>
    rest.length == 5 && !(Machine.respKind cfg Machine.varReadCode).isSome &&
      Machine.classOf cfg Machine.varReadCode == .varRead
  | .frameStatus command _ _ rest =>
    rest.length == 8 && !(Machine.respKind cfg command).isSome && Machine.classOf cfg command == .status
  | .frameMode command _ rest =>
    rest.length == 9 && !(Machine.respKind cfg command).isSome && Machine.classOf cfg command == .mode
  | .frameResponse command _ rest => rest.length == 9 && (Machine.respKind cfg command).isSome

end Sys2Proof
end

