-- ==== Sys2Proof/Decode.lean ====
section
/-! DEFINITION. From bytes to operations and back: the op-select codes (R84), the operand formats (R88, log 4), the
frame format (R70, R79), total on any bytes and rejecting by name. -/

namespace Sys2Proof

/-- What keeps 14 wire bytes from being a valid frame, in the order the extractor tests them (R79, R209 (a)). -/
inductive FrameDefect where
  | length
  | header
  | footer
  | checksum
  deriving DecidableEq, Repr

/-- Why bytes are no operation. `reservedOp` is R85's; `notAFrame` is R80's; the others are operands that do not have
the format of R88. -/
inductive DecodeError where
  | empty
  | reservedOp (op : Byte)
  | operandFormat (op : Opcode)
  | operandTooWide (op : Opcode)
  | noSuchKind (op : Opcode) (kind : Byte)
  | notAFrame (why : FrameDefect)
  deriving DecidableEq, Repr

/-- The op-select code of each operation (R84). -/
def opcodeByte : Opcode → Byte
  | .reset => 0x00#8
  | .rbAlloc => 0x01#8
  | .rbPush => 0x02#8
  | .rbPop => 0x03#8
  | .rbPeek => 0x04#8
  | .rbDiscard => 0x05#8
  | .rbChecksum => 0x06#8
  | .rbLength => 0x07#8
  | .fcEncode => 0x10#8
  | .fcExtract => 0x11#8
  | .fcDispatch => 0x12#8
  | .cqEnqueue => 0x20#8
  | .cmdSubmit => 0x21#8
  | .wkServe => 0x22#8
  | .wkWake => 0x23#8
  | .ctlShutdown => 0x24#8
  | .rcIssue => 0x30#8
  | .rcResolve => 0x31#8
  | .rcExpire => 0x32#8
  | .tpRx => 0x40#8
  | .tpConnect => 0x41#8
  | .tpDisconnect => 0x42#8
  | .tick => 0x43#8

/-- R84's table, in its order. -/
def opcodes : List Opcode :=
  [.reset, .rbAlloc, .rbPush, .rbPop, .rbPeek, .rbDiscard, .rbChecksum, .rbLength,
   .fcEncode, .fcExtract, .fcDispatch,
   .cqEnqueue, .cmdSubmit, .wkServe, .wkWake, .ctlShutdown,
   .rcIssue, .rcResolve, .rcExpire,
   .tpRx, .tpConnect, .tpDisconnect, .tick]

/-- The operation an op byte selects; `none` for a reserved code (R85). -/
def opcodeOf (b : Byte) : Option Opcode := opcodes.find? (fun o => opcodeByte o == b)

/-- No operands. -/
def decodeNone (o : Opcode) (i : Instr) : List Byte → Except DecodeError Instr
  | [] => .ok i
  | _ :: _ => .error (.operandFormat o)

/-- One `CW`-bit operand. -/
def decodeWord (cfg : Config) (o : Opcode) (mk : Nat → Instr) (args : List Byte) : Except DecodeError Instr :=
  if args.length = Machine.operandBytes cfg.cw then
    if fitsCw cfg (Machine.leNat args) then .ok (mk (Machine.leNat args)) else .error (.operandTooWide o)
  else .error (.operandFormat o)

/-- Two `CW`-bit operands, the first one first. -/
def decodeWords (cfg : Config) (o : Opcode) (mk : Nat → Nat → Instr) (args : List Byte) :
    Except DecodeError Instr :=
  let w := Machine.operandBytes cfg.cw
  if args.length = 2 * w then
    let a := Machine.leNat (args.take w)
    let b := Machine.leNat (args.drop w)
    if fitsCw cfg a && fitsCw cfg b then .ok (mk a b) else .error (.operandTooWide o)
  else .error (.operandFormat o)

/-- A byte, then a byte sequence. -/
def decodeByteSeq (o : Opcode) (mk : Byte → List Byte → Instr) : List Byte → Except DecodeError Instr
  | [] => .error (.operandFormat o)
  | c :: q => .ok (mk c q)

/-- A kind in one byte, then what is left. -/
def decodeKind (cfg : Config) (o : Opcode) (k : Byte) (i : Instr) : Except DecodeError Instr :=
  if k.toNat < cfg.kinds.length then .ok i else .error (.noSuchKind o k)

/-- The operands of an operation (R88). -/
def decodeArgs (cfg : Config) (o : Opcode) (args : List Byte) : Except DecodeError Instr :=
  match o with
  | .reset => decodeNone o .reset args
  | .rbAlloc => decodeWord cfg o .rbAlloc args
  | .rbPush => .ok (.rbPush args)
  | .rbPop => decodeWord cfg o .rbPop args
  | .rbPeek => decodeWords cfg o .rbPeek args
  | .rbDiscard => decodeWord cfg o .rbDiscard args
  | .rbChecksum => decodeWords cfg o .rbChecksum args
  | .rbLength => decodeNone o .rbLength args
  | .fcEncode => decodeByteSeq o .fcEncode args
  | .fcExtract => decodeNone o .fcExtract args
  | .fcDispatch =>
    match args with
    | c :: p => if p.length = payloadLen then .ok (.fcDispatch c p) else .error (.operandFormat o)
    | [] => .error (.operandFormat o)
  | .cqEnqueue => if args.length = frameLen then .ok (.cqEnqueue args) else .error (.operandFormat o)
  | .cmdSubmit => decodeByteSeq o .cmdSubmit args
  | .wkServe => .ok (.wkServe (Machine.leNat args))
  | .wkWake => decodeNone o .wkWake args
  | .ctlShutdown => decodeNone o .ctlShutdown args
  | .rcIssue =>
    match args with
    | k :: q => decodeKind cfg o k (.rcIssue k.toNat q)
    | [] => .error (.operandFormat o)
  | .rcResolve =>
    match args with
    | [k, status] => decodeKind cfg o k (.rcResolve k.toNat status)
    | _ => .error (.operandFormat o)
  | .rcExpire =>
    match args with
    | [k] => decodeKind cfg o k (.rcExpire k.toNat)
    | _ => .error (.operandFormat o)
  | .tpRx => .ok (.tpRx args)
  | .tpConnect => decodeNone o .tpConnect args
  | .tpDisconnect => decodeNone o .tpDisconnect args
  | .tick => decodeNone o .tick args

/-- An `OP8` transaction: the op byte selects the operation (R84), every other code is reserved (R85). -/
def decodeOp8 (cfg : Config) : List Byte → Except DecodeError Instr
  | [] => .error .empty
  | op :: args =>
    match opcodeOf op with
    | some o => decodeArgs cfg o args
    | none => .error (.reservedOp op)

/-- A `FRAME14` arrival: the tests of R79, then the table's row. -/
def decodeFrame14 (cfg : Config) (w : List Byte) : Except DecodeError Instr :=
  if w.length ≠ frameLen then .error (.notAFrame .length)
  else if w[0]? ≠ some cfg.header then .error (.notAFrame .header)
  else if w[13]? ≠ some cfg.footer then .error (.notAFrame .footer)
  else if w[12]? ≠ some (Machine.csum w) then .error (.notAFrame .checksum)
  else .ok (Machine.classifyFrame cfg (w.getD 1 0x00#8) ((w.drop 2).take payloadLen))

/-- The operation a transaction's bytes stand for. -/
def decode (cfg : Config) : Transaction → Except DecodeError Instr
  | .op8 bytes => decodeOp8 cfg bytes
  | .frame14 bytes => decodeFrame14 cfg bytes

/-! ### Encoding, from the same tables -/

/-- An operation's transaction: its op-select code, then its operands. -/
def encodeOp (o : Opcode) (args : List Byte) : Transaction := .op8 (opcodeByte o :: args)

/-- The bytes of an operation or a frame. -/
def encode (cfg : Config) : Instr → Transaction
  | .reset => encodeOp .reset []
  | .rbAlloc capacity => encodeOp .rbAlloc (Machine.leBytes (Machine.operandBytes cfg.cw) capacity)
  | .rbPush bytes => encodeOp .rbPush bytes
  | .rbPop maxLen => encodeOp .rbPop (Machine.leBytes (Machine.operandBytes cfg.cw) maxLen)
  | .rbPeek start len =>
    encodeOp .rbPeek
      (Machine.leBytes (Machine.operandBytes cfg.cw) start ++ Machine.leBytes (Machine.operandBytes cfg.cw) len)
  | .rbDiscard len => encodeOp .rbDiscard (Machine.leBytes (Machine.operandBytes cfg.cw) len)
  | .rbChecksum n m =>
    encodeOp .rbChecksum
      (Machine.leBytes (Machine.operandBytes cfg.cw) n ++ Machine.leBytes (Machine.operandBytes cfg.cw) m)
  | .rbLength => encodeOp .rbLength []
  | .fcEncode command payload => encodeOp .fcEncode (command :: payload)
  | .fcExtract => encodeOp .fcExtract []
  | .fcDispatch command payload => encodeOp .fcDispatch (command :: payload)
  | .cqEnqueue frame => encodeOp .cqEnqueue frame
  | .cmdSubmit commandCode payload => encodeOp .cmdSubmit (commandCode :: payload)
  | .wkServe bytesWritten => encodeOp .wkServe (Machine.natBytes bytesWritten)
  | .wkWake => encodeOp .wkWake []
  | .ctlShutdown => encodeOp .ctlShutdown []
  | .rcIssue kind payload => encodeOp .rcIssue (BitVec.ofNat 8 kind :: payload)
  | .rcResolve kind status => encodeOp .rcResolve [BitVec.ofNat 8 kind, status]
  | .rcExpire kind => encodeOp .rcExpire [BitVec.ofNat 8 kind]
  | .tpRx bytes => encodeOp .tpRx bytes
  | .tpConnect => encodeOp .tpConnect []
  | .tpDisconnect => encodeOp .tpDisconnect []
  | .tick => encodeOp .tick []
  | .frame command payload => .frame14 (Machine.frameOf cfg command payload)
  | .frameVarRead identifier value rest =>
    .frame14 (Machine.frameOf cfg Machine.varReadCode (identifier :: (Machine.valueBytes value ++ rest)))
  | .frameStatus command status state rest => .frame14 (Machine.frameOf cfg command (status :: state :: rest))
  | .frameMode command mode rest => .frame14 (Machine.frameOf cfg command (mode :: rest))
  | .frameResponse command status rest => .frame14 (Machine.frameOf cfg command (status :: rest))

/-! ### Words of the opcode table -/

/-- The fewest operand bytes an operation takes. -/
def minOperandBytes (cfg : Config) : Opcode → Nat
  | .rbAlloc | .rbPop | .rbDiscard => Machine.operandBytes cfg.cw
  | .rbPeek | .rbChecksum => 2 * Machine.operandBytes cfg.cw
  | .fcEncode | .cmdSubmit | .rcIssue | .rcExpire => 1
  | .rcResolve => 2
  | .fcDispatch => 1 + payloadLen
  | .cqEnqueue => frameLen
  | .reset | .rbPush | .rbLength | .fcExtract | .wkServe | .wkWake | .ctlShutdown | .tpRx | .tpConnect
  | .tpDisconnect | .tick => 0

/-- Zero bytes after the ones given, up to the operands the op byte asks for. -/
def padOperands (cfg : Config) (bytes : List Byte) : List Byte :=
  match (bytes.head?.bind opcodeOf) with
  | some o => bytes ++ List.replicate (1 + minOperandBytes cfg o - bytes.length) 0x00#8
  | none => bytes

/-- The 14 bytes of a 112-bit frame word, byte 0 in bits 111..104 (R70, R72). -/
def frameWordBytes (w : Nat) : List Byte := (Machine.leBytes frameLen w).reverse

/-- The transaction of a table word: 112 bits are a frame, anything shorter or longer an operation whose missing
operand bytes are zero. -/
def tableTransaction (cfg : Config) (nbits w : Nat) : Transaction :=
  if nbits = 8 * frameLen then .frame14 (frameWordBytes w)
  else .op8 (padOperands cfg (Machine.leBytes (nbits / 8) w))

/-- The operation the decoder reads from a word of the opcode table, under the reset state's configuration. -/
def decodeTableWord (nbits w : Nat) : Option Instr :=
  match decode Config.standard (tableTransaction Config.standard nbits w) with
  | .ok i => some i
  | .error _ => none

end Sys2Proof
end

