-- ==== Sys2Proof/Machine/State.lean ====
section
/-! DEFINITION. The state of the block (R10), as plain data, the reasons a step can stop, and the state after reset
(R29). -/

namespace Sys2Proof.Machine

/-- The ring storage `rb.mem` (R13): its written cells as (physical index, byte), indices strictly rising. A cell not
listed is unwritten. -/
abbrev Memory := List Host.Cell

/-- The canonical form: indices strictly rising. An unwritten cell has no value, so no entry can equal one. -/
def Memory.wf (m : Memory) : Bool := decide ((m.map Prod.fst).Pairwise (· < ·))

/-- The ring buffer `rb.*` (R11 to R13); cursors and capacity are naturals below `2^CW` (log 20). -/
structure Ring where
  allocated : Bool
  cap : Nat
  wr : Nat
  rd : Nat
  mem : Memory
  deriving DecidableEq, Repr

/-- `wk.state` (R17). -/
inductive WorkerState where
  | wait
  | sleep
  | exited
  deriving DecidableEq, Repr

/-- `rc[k]` (R21, R22). -/
inductive RcState where
  | idle
  | awaiting (issueTs deadline : Time)
  deriving DecidableEq, Repr

/-- The eight counters `diag.*` (R24). -/
structure Counters where
  resyncHeader : Nat
  resyncFooter : Nat
  resyncChecksum : Nat
  rxDropped : Nat
  unknownCmd : Nat
  unsolicited : Nat
  normalized : Nat
  shortWrite : Nat
  deriving DecidableEq, Repr

/-- All counters 0. -/
def Counters.zero : Counters := ⟨0, 0, 0, 0, 0, 0, 0, 0⟩

/-- A record of the `TX` trace (R27). -/
structure TxRecord where
  time : Time
  frame : List Byte
  deriving DecidableEq, Repr

/-- A record of the `EV` trace (R27, R214). -/
inductive Event where
  | onVariableRead (id : Byte) (value : BitVec 32)
  | onStatusReport (command status state : Byte)
  | onModeReport (mode : Byte)
  deriving DecidableEq, Repr

/-- The reason codes of an outcome (R205). -/
inductive Reason where
  | ok
  | deviceFail
  | deviceSpecific
  | unknownCode
  | timeout
  deriving DecidableEq, Repr

/-- A record of the `OUT` trace, `outcome(kind, success, reason, code)` (R170). -/
structure OutcomeRecord where
  kind : Nat
  success : Bool
  reason : Reason
  code : Option Byte
  deriving DecidableEq, Repr

/-- A record of the `DIAG` trace with its info (R201). -/
inductive DiagRecord where
  | normalized (originalLength : Nat)
  | unknownCommand (command : Byte)
  | unsolicitedResponse (kind : Nat) (command : Byte)
  | shortWrite (bytesWritten : Nat)
  | rxOverflow (dropped : Nat)
  | timeout (kind : Nat)
  deriving DecidableEq, Repr

/-- What the last operation returned (R88). `notEnabled` reports a step whose enabling condition did not hold (log 8),
`failure` a transaction with a reserved op (R85). -/
inductive Result where
  | none
  | ok (b : Bool)
  | accepted (b : Bool)
  | count (n : Nat)
  | bytes (bs : List Byte)
  | sum (v : BitVec 16)
  | frame (f : List Byte)
  | noFrame
  | decoded (command : Byte) (payload : List Byte)
  | notEnabled
  | failure
  deriving DecidableEq, Repr

/-- The whole state: the spec's tuple (R10), the configuration (R3; log 1), and the model's own three fields: `sched`,
the operations still to be taken, in their total order (R51; log 3); `ret`, the last operation's result (log 7);
`draws`, how many free values have been drawn (log 11). -/
structure State where
  cfg : Config
  rb : Ring
  cqItems : List (List Byte)
  wkState : WorkerState
  wkWakeAt : Time
  ctlStop : Bool
  tpConnected : Bool
  rc : List RcState
  now : Time
  diag : Counters
  tx : List TxRecord
  ev : List Event
  out : List OutcomeRecord
  diagTrace : List DiagRecord
  sched : List Transaction
  ret : Result
  draws : Nat
  deriving DecidableEq, Repr

/-- The block never faults: "No operation of the block faults, halts it or leaves state that violates an invariant"
(R207). No constructor, so no step can end in a fault. -/
inductive Fault where
  deriving DecidableEq, Repr

/-- Why the model gives a step no meaning. Each is safe: the model stops where the spec describes nothing. -/
inductive Refusal where
  /-- Raised by an arm of `exec` without a meaning; safe. No arm raises it. -/
  | notModelled (mnemonic : String)
  /-- Raised by `step` when the configuration fails a clause of R4 ("The model refuses a configuration that fails any
  clause"); safe. -/
  | illFormedConfig
  /-- Raised by `step` for a transaction whose operands do not have R88's format (log 10); safe. -/
  | malformedTransaction
  /-- Raised by an operation on a kind that is no member of `KINDS` (R88; log 19); safe. -/
  | noSuchKind
  /-- Raised by an operation given a payload, frame or frame field of another length than R88 or the frame's row
  fixes (log 19); safe. -/
  | operandLength
  deriving DecidableEq, Repr

/-- A freshly allocated ring (R101, R29): both cursors 0, every cell unwritten. -/
def Ring.fresh (cap : Nat) : Ring := ⟨true, cap, 0, 0, []⟩

/-- The state that construction leaves under a configuration (R29, R230). -/
def State.resetWith (cfg : Config) : State where
  cfg := cfg
  rb := Ring.fresh cfg.rbCap
  cqItems := []
  wkState := .wait
  wkWakeAt := 0
  ctlStop := false
  tpConnected := false
  rc := cfg.kinds.map (fun _ => .idle)
  now := 0
  diag := Counters.zero
  tx := []
  ev := []
  out := []
  diagTrace := []
  sched := []
  ret := .none
  draws := 0

/-- The machine right after reset (R29), under `Config.standard` (log 2), with nothing scheduled (log 3). -/
def State.reset : State := State.resetWith Config.standard

end Sys2Proof.Machine
end

