-- ==== Sys2Proof/Machine/Flags.lean ====
section
/-! DEFINITION. The block has no condition codes (10_state.md section 6). What stands in their place: the enabling
conditions over the state, the counters each diagnostic moves, and the numbers of reasons and diagnostics. -/

namespace Sys2Proof.Machine

/-- `rc[k]`. -/
def rcOf (s : State) (k : Nat) : RcState := s.rc.getD k .idle

/-- The queue has reached a finite `QDEPTH` (R152). -/
def queueFull (s : State) : Bool :=
  match s.cfg.qDepth with
  | none => false
  | some d => decide (d ≤ s.cqItems.length)

/-- `WK_SERVE` is enabled: the worker's wait condition (R143, R146). -/
def wkServeEnabled (s : State) : Bool :=
  s.wkState == .wait && (s.ctlStop || (!s.cqItems.isEmpty && s.tpConnected))

/-- `WK_WAKE` is enabled (R144). -/
def wkWakeEnabled (s : State) : Bool :=
  s.wkState == .sleep && decide (s.wkWakeAt ≤ s.now)

/-- `RC_EXPIRE(k)` is enabled (R166). -/
def rcExpireEnabled (s : State) (k : Nat) : Bool :=
  match rcOf s k with
  | .idle => false
  | .awaiting _ deadline => decide (deadline ≤ s.now)

/-- `RC_RESOLVE(k, _)` has its precondition (R163). -/
def rcResolveEnabled (s : State) (k : Nat) : Bool :=
  match rcOf s k with
  | .idle => false
  | .awaiting _ _ => true

/-- The connectivity-status signal to the external shell (R220). -/
def connectivityStatus (s : State) : Bool := s.tpConnected

/-- The counter each diagnostic moves (R201's last column, R24). -/
def countDiag (r : DiagRecord) (c : Counters) : Counters :=
  match r with
  | .normalized _ => { c with normalized := c.normalized + 1 }
  | .unknownCommand _ => { c with unknownCmd := c.unknownCmd + 1 }
  | .unsolicitedResponse _ _ => { c with unsolicited := c.unsolicited + 1 }
  | .shortWrite _ => { c with shortWrite := c.shortWrite + 1 }
  | .rxOverflow n => { c with rxDropped := c.rxDropped + n }
  | .timeout _ => c

/-- The numbers of the diagnostics (R201). -/
def diagNumber : DiagRecord → Nat
  | .normalized _ => 1
  | .unknownCommand _ => 2
  | .unsolicitedResponse _ _ => 3
  | .shortWrite _ => 4
  | .rxOverflow _ => 5
  | .timeout _ => 6

/-- The numbers of the reasons (R205). -/
def reasonNumber : Reason → Nat
  | .ok => 0
  | .deviceFail => 1
  | .deviceSpecific => 2
  | .unknownCode => 3
  | .timeout => 4

/-- The status code table (R163, R164): the tests in the order of R209 (d). -/
def statusReason (kp : KindParams) (status : Byte) : Reason :=
  if status = stOk then .ok
  else if status = stFail then .deviceFail
  else if status = kp.failCode then .deviceSpecific
  else .unknownCode

end Sys2Proof.Machine
end

