-- ==== Sys2Proof/Machine/Ops.lean ====
section
/-! DEFINITION. The named operations every meaning is built from: the ring storage and the ring buffer, traces and
diagnostics, the codec, the queue, the worker, and the resolution of an outstanding request, which is the block's
analogue of taking an exception (R210; there is no return from it, R211). -/

namespace Sys2Proof.Machine

/-! ### Ring storage (R13, R44) -/

/-- `MemRead(i, 1)`: the byte of cell `i`, or nothing if the cell is unwritten. -/
def Memory.read : Memory → Nat → Option Byte
  | [], _ => none
  | (j, b) :: m, i => if i = j then some b else Memory.read m i

/-- `MemWrite(i, 1, v)`, keeping the indices strictly rising. -/
def Memory.write : Memory → Nat → Byte → Memory
  | [], i, v => [(i, v)]
  | (j, b) :: m, i, v =>
    if i < j then (i, v) :: (j, b) :: m
    else if i = j then (i, v) :: m
    else (j, b) :: Memory.write m i v

/-- The byte of cell `i`; a free value if the cell is unwritten, which no in-range access of a reachable state meets
(R13, U1; log 12). -/
def Memory.byteAt (m : Memory) (i : Nat) : Byte := (m.read i).getD (Config.unwrittenByte i)

/-! ### Ring buffer (R100 to R107); `cw` is the cursors' width -/

/-- `length = rb.wr -_CW rb.rd` (R11, R107). -/
def cursorGap (cw : Nat) (rb : Ring) : Nat := subW cw rb.wr rb.rd

/-- The physical index of logical offset `i` (R41). -/
def offsetIndex (cw : Nat) (rb : Ring) (i : Nat) : Nat := physIndex rb.cap (addW cw rb.rd i)

/-- `at(i)`: the byte at logical offset `i` (R41). -/
def byteAtOffset (cw : Nat) (rb : Ring) (i : Nat) : Byte := rb.mem.byteAt (offsetIndex cw rb i)

/-- The bytes at logical offsets `start .. start + n - 1`, in order. -/
def slice (cw : Nat) (rb : Ring) (start n : Nat) : List Byte :=
  (List.range n).map (fun i => byteAtOffset cw rb (start + i))

/-- `content(rb)` (R42). -/
def content (cw : Nat) (rb : Ring) : List Byte := slice cw rb 0 (cursorGap cw rb)

/-- `RB_LENGTH()` (R107); 0 while unallocated (R100). -/
def ringLength (cw : Nat) (rb : Ring) : Nat := if rb.allocated then cursorGap cw rb else 0

/-- `free = rb.cap - length` (R50). -/
def ringFree (cw : Nat) (rb : Ring) : Nat := rb.cap - cursorGap cw rb

/-- `RB_ALLOC(capacity)` (R101). -/
def ringAlloc (maxCap : Nat) (rb : Ring) (capacity : Nat) : Ring × Bool :=
  if capacity = 0 || !isPow2 capacity || decide (maxCap < capacity) then (rb, false)
  else (Ring.fresh capacity, true)

/-- `MemWrite((wr +_CW i) & mask, 1, bytes[i])` for each byte, from offset `i` on (R102). -/
def storeBytes (cw cap wr : Nat) : List Byte → Nat → Memory → Memory
  | [], _, m => m
  | b :: bs, i, m => storeBytes cw cap wr bs (i + 1) (m.write (physIndex cap (addW cw wr i)) b)

/-- `RB_PUSH(bytes)` (R102); refused while unallocated (R100). -/
def ringPush (cw : Nat) (rb : Ring) (bytes : List Byte) : Ring × Nat :=
  if rb.allocated then
    let n := min bytes.length (ringFree cw rb)
    ({ rb with mem := storeBytes cw rb.cap rb.wr (bytes.take n) 0 rb.mem, wr := addW cw rb.wr n }, n)
  else (rb, 0)

/-- `RB_DISCARD(len)` (R105); refused while unallocated (R100). -/
def ringDiscard (cw : Nat) (rb : Ring) (len : Nat) : Ring × Nat :=
  if rb.allocated then
    let n := min len (cursorGap cw rb)
    ({ rb with rd := addW cw rb.rd n }, n)
  else (rb, 0)

/-- `RB_POP(maxLen)` (R103); refused while unallocated (R100). -/
def ringPop (cw : Nat) (rb : Ring) (maxLen : Nat) : Ring × List Byte :=
  if rb.allocated then
    let n := min maxLen (cursorGap cw rb)
    ({ rb with rd := addW cw rb.rd n }, slice cw rb 0 n)
  else (rb, [])

/-- `RB_PEEK(start, len)` (R104), the sum formed without wrap; refused while unallocated (R100). -/
def ringPeek (cw : Nat) (rb : Ring) (start len : Nat) : List Byte :=
  if rb.allocated then
    if cursorGap cw rb < start + len then [] else slice cw rb start len
  else []

/-- `RB_CHECKSUM(n, m)` (R106); `none` is the draw of a range that leaves the content; 0 while unallocated (R100). -/
def ringChecksum (cw : Nat) (rb : Ring) (n m : Nat) : Option (BitVec 16) :=
  if rb.allocated then
    if m < n then some 0#16
    else if cursorGap cw rb ≤ m then none
    else some (sum16 (slice cw rb n (m - n + 1)))
  else some 0#16

/-! ### Traces and diagnostics -/

/-- The operation's result (R88). -/
def returning (r : Result) (s : State) : State := { s with ret := r }

/-- `diag CODE(info)`: one record on the `DIAG` trace and its counter moved (R201). -/
def raiseDiag (r : DiagRecord) (s : State) : State :=
  { s with diagTrace := s.diagTrace ++ [r], diag := countDiag r s.diag }

/-- `emit EV`. -/
def emitEvent (e : Event) (s : State) : State := { s with ev := s.ev ++ [e] }

/-! ### The resolution of an outstanding request (R210): the one shared entry -/

/-- The request of kind `k` ends: one `OUT` record, and the record is cleared, which cancels its timeout (R167, R169).
Nothing is saved and control goes nowhere (R210). `success` is true exactly for `RSN_OK` (R170). -/
def resolveRequest (k : Nat) (reason : Reason) (code : Option Byte) (s : State) : State :=
  { s with
    out := s.out ++ [{ kind := k, success := decide (reason = .ok), reason := reason, code := code }]
    rc := s.rc.set k .idle }

/-- `RC_RESOLVE(k, status)` on an awaiting kind (R163). -/
def resolveByStatus (kp : KindParams) (k : Nat) (status : Byte) (s : State) : State :=
  resolveRequest k (statusReason kp status) (some status) s

/-- `RC_EXPIRE(k)` on an expired kind (R166): the outcome, and `TIMEOUT(k)` on `DIAG`. -/
def expireRequest (k : Nat) (s : State) : State :=
  raiseDiag (.timeout k) (resolveRequest k .timeout none s)

/-! ### Frame codec (R120 to R133) -/

/-- `FC_ENCODE(command, payload)` (R120): the frame, with the `NORMALIZED` diagnostic of R121. -/
def encodeFrame (command : Byte) (payload : List Byte) (s : State) : State × List Byte :=
  (if payload.length = payloadLen then s else raiseDiag (.normalized payload.length) s,
   frameOf s.cfg command payload)

/-- The passes of `FC_EXTRACT` (R122), reaching the ring through its accessors only (R133). Step 3 repeats step 1's
test and is left out, as R125 allows. Each pass that does not answer discards one byte, so as many passes as there
are bytes are enough (R129). -/
def extractPasses (cfg : Config) : Nat → Ring → Counters → Ring × Counters × Option (Byte × List Byte)
  | 0, rb, c => (rb, c, none)
  | passes + 1, rb, c =>
    if ringLength cfg.cw rb < frameLen then (rb, c, none)
    else if ringPeek cfg.cw rb 0 1 ≠ [cfg.header] then
      extractPasses cfg passes (ringDiscard cfg.cw rb 1).1 { c with resyncHeader := c.resyncHeader + 1 }
    else if ringPeek cfg.cw rb 13 1 ≠ [cfg.footer] then
      extractPasses cfg passes (ringDiscard cfg.cw rb 1).1 { c with resyncFooter := c.resyncFooter + 1 }
    else if (ringChecksum cfg.cw rb 0 11).map (fun s => [s.setWidth 8]) ≠ some (ringPeek cfg.cw rb 12 1) then
      extractPasses cfg passes (ringDiscard cfg.cw rb 1).1 { c with resyncChecksum := c.resyncChecksum + 1 }
    else
      let w := ringPeek cfg.cw rb 0 frameLen
      ((ringDiscard cfg.cw rb frameLen).1, c, some (w.getD 1 0x00#8, (w.drop 2).take payloadLen))

/-- `FC_EXTRACT()` (R122): the first valid window of the content, or nothing. -/
def extractFrame (s : State) : State × Option (Byte × List Byte) :=
  let r := extractPasses s.cfg (ringLength s.cfg.cw s.rb + 1) s.rb s.diag
  ({ s with rb := r.1, diag := r.2.1 }, r.2.2)

/-- What a matching response does to kind `k` (R132, R163, R168). -/
def respond (kp : KindParams) (k : Nat) (command status : Byte) (s : State) : State :=
  match rcOf s k with
  | .awaiting _ _ => resolveByStatus kp k status s
  | .idle => raiseDiag (.unsolicitedResponse k command) s

/-- The correlator look-up of `FC_DISPATCH` (R132): the kinds in ascending order from `k`; answers whether one of them
knows the command. -/
def correlate (command status : Byte) : List KindParams → Nat → State → State × Bool
  | [], _, s => (s, false)
  | kp :: rest, k, s =>
    if command = kp.respCmd then
      ((correlate command status rest (k + 1) (respond kp k command status s)).1, true)
    else correlate command status rest (k + 1) s

/-- The event a class delivers (R132, R74 to R76). -/
def classEvent (cls : CmdClass) (command : Byte) (p : List Byte) : Option Event :=
  match cls with
  | .varRead => some (.onVariableRead (payloadByte p 0) (readValue p))
  | .status => some (.onStatusReport command (payloadByte p 0) (payloadByte p 1))
  | .mode => some (.onModeReport (payloadByte p 0))
  | .unclassified => none

/-- `FC_DISPATCH(command, payload)` (R132): the correlator first, then the class table, independently. -/
def dispatchFrame (command : Byte) (p : List Byte) (s : State) : State :=
  let r := correlate command (payloadByte p 0) s.cfg.kinds 0 s
  match classEvent (classOf s.cfg command) command p with
  | some e => emitEvent e r.1
  | none => if r.2 then r.1 else raiseDiag (.unknownCommand command) r.1

/-! ### Outbound queue (R140 to R142, R152) and correlator (R161) -/

/-- `CQ_ENQUEUE(frame)` (R140). -/
def enqueueFrame (f : List Byte) (s : State) : State × Bool :=
  if queueFull s then (s, false) else ({ s with cqItems := s.cqItems ++ [f] }, true)

/-- `RC_ISSUE(k, payload)` (R161): rejected with no effect while awaiting, unconnected or the queue full (R162). -/
def issueRequest (kp : KindParams) (k : Nat) (payload : List Byte) (s : State) : State × Bool :=
  match rcOf s k with
  | .awaiting _ _ => (s, false)
  | .idle =>
    if !s.tpConnected then (s, false)
    else if queueFull s then (s, false)
    else
      let armed := { s with rc := s.rc.set k (.awaiting s.now (s.now + kp.timeoutTicks)) }
      let e := encodeFrame kp.reqCmd payload armed
      ((enqueueFrame e.2 e.1).1, true)

/-- `CMD_SUBMIT(commandCode, payload)` (R141): a kind's request code goes through the correlator (R142). -/
def submitCommand (command : Byte) (payload : List Byte) (s : State) : State × Bool :=
  match (reqKind s.cfg command).bind (fun k => (s.cfg.kinds[k]?).map (fun kp => (k, kp))) with
  | some (k, kp) => issueRequest kp k payload s
  | none =>
    if queueFull s then (s, false)
    else
      let e := encodeFrame command payload s
      ((enqueueFrame e.2 e.1).1, true)

/-! ### Transmit worker (R143, R144) -/

/-- `WK_SERVE` when enabled (R143): the exit, or the dequeue, the write and the start of the sleep. -/
def serveWorker (bytesWritten : Nat) (s : State) : State :=
  if s.ctlStop then { s with wkState := .exited }
  else
    match s.cqItems with
    | [] => s
    | f :: rest =>
      let sent := { s with cqItems := rest, tx := s.tx ++ [{ time := s.now, frame := f }] }
      let told := if bytesWritten = frameLen then sent else raiseDiag (.shortWrite bytesWritten) sent
      { told with wkWakeAt := s.now + s.cfg.paceTicks, wkState := .sleep }

/-! ### Inbound path (R180) and time (R186) -/

/-- The drain loop of `TP_RX` (R180): extract and dispatch until there is no frame. Each turn takes 14 bytes, so as many
turns as there are bytes are enough. -/
def drainFrames : Nat → State → State
  | 0, s => s
  | turns + 1, s =>
    match extractFrame s with
    | (s', none) => s'
    | (s', some (command, payload)) => drainFrames turns (dispatchFrame command payload s')

/-- `TP_RX(bytes)` (R180): push what fits, report the rest (R181), drain. -/
def receiveBytes (bytes : List Byte) (s : State) : State :=
  let r := ringPush s.cfg.cw s.rb bytes
  let pushed := { s with rb := r.1 }
  let told := if r.2 < bytes.length then raiseDiag (.rxOverflow (bytes.length - r.2)) pushed else pushed
  drainFrames (ringLength s.cfg.cw r.1 + 1) told

/-- `TICK`'s test of one kind (R186). -/
def expireIfDue (s : State) (k : Nat) : State := if rcExpireEnabled s k then expireRequest k s else s

/-- `TICK` (R186): time advances, then the kinds in ascending order. -/
def advanceTime (s : State) : State :=
  (List.range s.cfg.kinds.length).foldl expireIfDue { s with now := s.now + 1 }

/-! ### Fetch -/

/-- The next operation of the total order, and the state past it (R51; log 3). -/
def nextScheduled (s : State) : Option (Transaction × State) :=
  match s.sched with
  | [] => none
  | t :: rest => some (t, { s with sched := rest })

end Sys2Proof.Machine
end

