-- ==== Sys2Proof/Machine/CommandQueue.lean ====
section
/-! DEFINITION. The outbound command queue and the paced transmit worker (42_command_queue_worker.md). -/

namespace Sys2Proof.Machine

/-- `CQ_ENQUEUE(frame)` (R140), the frame being exactly 14 bytes (R88; log 19). -/
def execCqEnqueue (f : List Byte) (s : State) : Host.Outcome State Fault Refusal :=
  if f.length = frameLen then
    let r := enqueueFrame f s
    .next (returning (.ok r.2) r.1)
  else .refused .operandLength

/-- `CMD_SUBMIT(commandCode, payload)` (R141, R142). -/
def execCmdSubmit (commandCode : Byte) (payload : List Byte) (s : State) : Host.Outcome State Fault Refusal :=
  let r := submitCommand commandCode payload s
  .next (returning (.accepted r.2) r.1)

/-- `WK_SERVE` (R143). Scheduled while not enabled it is turned away with no effect: "When not enabled the step does not
exist; the worker stays suspended" (log 8). -/
def execWkServe (bytesWritten : Nat) (s : State) : Host.Outcome State Fault Refusal :=
  if wkServeEnabled s then .next (returning .none (serveWorker bytesWritten s))
  else .next (returning .notEnabled s)

/-- `WK_WAKE` (R144); turned away with no effect while not enabled (log 8). -/
def execWkWake (s : State) : Host.Outcome State Fault Refusal :=
  if wkWakeEnabled s then .next (returning .none { s with wkState := .wait })
  else .next (returning .notEnabled s)

/-- `CTL_SHUTDOWN` (R145). -/
def execCtlShutdown (s : State) : Host.Outcome State Fault Refusal :=
  .next (returning .none { s with ctlStop := true })

end Sys2Proof.Machine
end

