-- ==== Sys2Proof/Machine/Correlator.lean ====
section
/-! DEFINITION. The response correlator (43_response_correlator.md). Each operation takes a member of `KINDS` (R88); another
number has no meaning in the spec and is refused (log 19). -/

namespace Sys2Proof.Machine

/-- `RC_ISSUE(kind, payload)` (R161, R162). -/
def execRcIssue (kind : Nat) (payload : List Byte) (s : State) : Host.Outcome State Fault Refusal :=
  match s.cfg.kinds[kind]? with
  | none => .refused .noSuchKind
  | some kp =>
    let r := issueRequest kp kind payload s
    .next (returning (.accepted r.2) r.1)

/-- `RC_RESOLVE(kind, status)` (R163): "If rc[k] = Idle the operation is not performed at all" (log 8). -/
def execRcResolve (kind : Nat) (status : Byte) (s : State) : Host.Outcome State Fault Refusal :=
  match s.cfg.kinds[kind]? with
  | none => .refused .noSuchKind
  | some kp =>
    if rcResolveEnabled s kind then .next (returning .none (resolveByStatus kp kind status s))
    else .next (returning .notEnabled s)

/-- `RC_EXPIRE(kind)` (R166); turned away with no effect while not enabled (log 8). -/
def execRcExpire (kind : Nat) (s : State) : Host.Outcome State Fault Refusal :=
  match s.cfg.kinds[kind]? with
  | none => .refused .noSuchKind
  | some _ =>
    if rcExpireEnabled s kind then .next (returning .none (expireRequest kind s))
    else .next (returning .notEnabled s)

end Sys2Proof.Machine
end

