-- ==== Sys2Proof/Machine/FrameCodec.lean ====
section
/-! DEFINITION. The frame codec operations (41_frame_codec.md). -/

namespace Sys2Proof.Machine

/-- `FC_ENCODE(command, payload)` (R120, R121). -/
def execFcEncode (command : Byte) (payload : List Byte) (s : State) : Host.Outcome State Fault Refusal :=
  let r := encodeFrame command payload s
  .next (returning (.frame r.2) r.1)

/-- `FC_EXTRACT()` (R122 to R131). -/
def execFcExtract (s : State) : Host.Outcome State Fault Refusal :=
  match extractFrame s with
  | (s', none) => .next (returning .noFrame s')
  | (s', some (command, payload)) => .next (returning (.decoded command payload) s')

/-- `FC_DISPATCH(command, payload)` (R132), the payload being exactly 10 bytes (R88; log 19). -/
def execFcDispatch (command : Byte) (payload : List Byte) (s : State) : Host.Outcome State Fault Refusal :=
  if payload.length = payloadLen then .next (returning .none (dispatchFrame command payload s))
  else .refused .operandLength

end Sys2Proof.Machine
end

