-- ==== Sys2Proof/Machine/Frames.lean ====
section
/-! DEFINITION. The `FRAME14` rows (30_encoding.md R70, R74 to R77): the arrival of that frame on the inbound byte source.
Its 14 bytes are delivered in index order (R45 (b)) and handled as every delivery is (R180; log 5). -/

namespace Sys2Proof.Machine

/-- The frame's bytes arrive on the inbound path (R45 (b), R180). -/
def deliverFrame (command : Byte) (payload : List Byte) (s : State) : State :=
  returning .none (receiveBytes (frameOf s.cfg command payload) s)

/-- `FRAME` (R70). -/
def execFrame (command : Byte) (payload : List Byte) (s : State) : Host.Outcome State Fault Refusal :=
  if payload.length = payloadLen then .next (deliverFrame command payload s) else .refused .operandLength

/-- `FRAME.VAR_READ` (R74): identifier, value least significant byte first, five bytes ignored on decode. -/
def execFrameVarRead (identifier : Byte) (value : BitVec 32) (rest : List Byte) (s : State) :
    Host.Outcome State Fault Refusal :=
  if rest.length = 5 then .next (deliverFrame varReadCode (identifier :: (valueBytes value ++ rest)) s)
  else .refused .operandLength

/-- `FRAME.STATUS` (R75): status, state, eight bytes ignored. -/
def execFrameStatus (command status state : Byte) (rest : List Byte) (s : State) :
    Host.Outcome State Fault Refusal :=
  if rest.length = 8 then .next (deliverFrame command (status :: state :: rest) s) else .refused .operandLength

/-- `FRAME.MODE` (R76): mode, nine bytes ignored. -/
def execFrameMode (command mode : Byte) (rest : List Byte) (s : State) : Host.Outcome State Fault Refusal :=
  if rest.length = 9 then .next (deliverFrame command (mode :: rest) s) else .refused .operandLength

/-- `FRAME.RESPONSE` (R77): status byte, nine bytes the correlator does not use. -/
def execFrameResponse (command status : Byte) (rest : List Byte) (s : State) :
    Host.Outcome State Fault Refusal :=
  if rest.length = 9 then .next (deliverFrame command (status :: rest) s) else .refused .operandLength

end Sys2Proof.Machine
end

