-- ==== Sys2Proof/Machine/Reset.lean ====
section
/-! DEFINITION. `RESET` (R230). -/

namespace Sys2Proof.Machine

/-- `RESET` (R230): construction, as one operation. The configuration is not state (R28); the schedule and the count of
free values drawn belong to the run, not to the block, and go on (log 14). -/
def execReset (s : State) : Host.Outcome State Fault Refusal :=
  .next { s with
    rb := (ringAlloc s.cfg.rbMaxCap s.rb s.cfg.rbCap).1
    cqItems := []
    wkState := .wait
    wkWakeAt := 0
    ctlStop := false
    tpConnected := false
    rc := s.cfg.kinds.map (fun _ => .idle)
    now := 0
    diag := Counters.zero
    tx := []
    ev := []
    out := []
    diagTrace := []
    ret := .none }

end Sys2Proof.Machine
end

