-- ==== Sys2Proof/Machine/RingBuffer.lean ====
section
/-! DEFINITION. The ring buffer operations (40_ring_buffer.md). -/

namespace Sys2Proof.Machine

/-- `RB_ALLOC(capacity)` (R101). -/
def execRbAlloc (capacity : Nat) (s : State) : Host.Outcome State Fault Refusal :=
  let r := ringAlloc s.cfg.rbMaxCap s.rb capacity
  .next (returning (.ok r.2) { s with rb := r.1 })

/-- `RB_PUSH(bytes)` (R102, R100). -/
def execRbPush (bytes : List Byte) (s : State) : Host.Outcome State Fault Refusal :=
  let r := ringPush s.cfg.cw s.rb bytes
  .next (returning (.count r.2) { s with rb := r.1 })

/-- `RB_POP(maxLen)` (R103, R100). -/
def execRbPop (maxLen : Nat) (s : State) : Host.Outcome State Fault Refusal :=
  let r := ringPop s.cfg.cw s.rb maxLen
  .next (returning (.bytes r.2) { s with rb := r.1 })

/-- `RB_PEEK(start, len)` (R104, R100). -/
def execRbPeek (start len : Nat) (s : State) : Host.Outcome State Fault Refusal :=
  .next (returning (.bytes (ringPeek s.cfg.cw s.rb start len)) s)

/-- `RB_DISCARD(len)` (R105, R100). -/
def execRbDiscard (len : Nat) (s : State) : Host.Outcome State Fault Refusal :=
  let r := ringDiscard s.cfg.cw s.rb len
  .next (returning (.count r.2) { s with rb := r.1 })

/-- `RB_CHECKSUM(n, m)` (R106, R100): a range that leaves the content draws a free 16-bit value (U3; log 11). -/
def execRbChecksum (n m : Nat) (s : State) : Host.Outcome State Fault Refusal :=
  match ringChecksum s.cfg.cw s.rb n m with
  | some v => .next (returning (.sum v) s)
  | none => .next (returning (.sum (Config.freeSum s.draws)) { s with draws := s.draws + 1 })

/-- `RB_LENGTH()` (R107, R100). -/
def execRbLength (s : State) : Host.Outcome State Fault Refusal :=
  .next (returning (.count (ringLength s.cfg.cw s.rb)) s)

end Sys2Proof.Machine
end

