-- ==== Sys2Proof/Machine/Transport.lean ====
section
/-! DEFINITION. The inbound path, the transport's events and time (44_transport_and_time.md). -/

namespace Sys2Proof.Machine

/-- `TP_RX(bytes)` (R180, R181). -/
def execTpRx (bytes : List Byte) (s : State) : Host.Outcome State Fault Refusal :=
  .next (returning .none (receiveBytes bytes s))

/-- `TP_CONNECT` (R184). -/
def execTpConnect (s : State) : Host.Outcome State Fault Refusal :=
  .next (returning .none { s with tpConnected := true })

/-- `TP_DISCONNECT` (R185). -/
def execTpDisconnect (s : State) : Host.Outcome State Fault Refusal :=
  .next (returning .none { s with tpConnected := false })

/-- `TICK` (R186). -/
def execTick (s : State) : Host.Outcome State Fault Refusal :=
  .next (returning .none (advanceTime s))

end Sys2Proof.Machine
end

