-- ==== Sys2Proof/Machine/Dispatch.lean ====
section
/-! DEFINITION. One arm per operation: the meaning of each. -/

namespace Sys2Proof.Machine

def exec (i : Instr) (s : State) : Host.Outcome State Fault Refusal :=
  match i with
  | .reset => Sys2Proof.Machine.execReset s
  | .rbAlloc capacity => Sys2Proof.Machine.execRbAlloc capacity s
  | .rbPush bytes => Sys2Proof.Machine.execRbPush bytes s
  | .rbPop maxLen => Sys2Proof.Machine.execRbPop maxLen s
  | .rbPeek start len => Sys2Proof.Machine.execRbPeek start len s
  | .rbDiscard len => Sys2Proof.Machine.execRbDiscard len s
  | .rbChecksum n m => Sys2Proof.Machine.execRbChecksum n m s
  | .rbLength => Sys2Proof.Machine.execRbLength s
  | .fcEncode command payload => Sys2Proof.Machine.execFcEncode command payload s
  | .fcExtract => Sys2Proof.Machine.execFcExtract s
  | .fcDispatch command payload => Sys2Proof.Machine.execFcDispatch command payload s
  | .cqEnqueue f => Sys2Proof.Machine.execCqEnqueue f s
  | .cmdSubmit commandCode payload => Sys2Proof.Machine.execCmdSubmit commandCode payload s
  | .wkServe bytesWritten => Sys2Proof.Machine.execWkServe bytesWritten s
  | .wkWake => Sys2Proof.Machine.execWkWake s
  | .ctlShutdown => Sys2Proof.Machine.execCtlShutdown s
  | .rcIssue kind payload => Sys2Proof.Machine.execRcIssue kind payload s
  | .rcResolve kind status => Sys2Proof.Machine.execRcResolve kind status s
  | .rcExpire kind => Sys2Proof.Machine.execRcExpire kind s
  | .tpRx bytes => Sys2Proof.Machine.execTpRx bytes s
  | .tpConnect => Sys2Proof.Machine.execTpConnect s
  | .tpDisconnect => Sys2Proof.Machine.execTpDisconnect s
  | .tick => Sys2Proof.Machine.execTick s
  | .frame command payload => Sys2Proof.Machine.execFrame command payload s
  | .frameVarRead identifier value rest => Sys2Proof.Machine.execFrameVarRead identifier value rest s
  | .frameStatus command status state rest => Sys2Proof.Machine.execFrameStatus command status state rest s
  | .frameMode command mode rest => Sys2Proof.Machine.execFrameMode command mode rest s
  | .frameResponse command status rest => Sys2Proof.Machine.execFrameResponse command status rest s

end Sys2Proof.Machine
end

