-- ==== Sys2Proof/Machine/Fetch.lean ====
section
/-! DEFINITION. What a step does with the operation it has taken from the schedule. -/

namespace Sys2Proof.Machine

/-- Run one transaction. A reserved op is turned away: no state changes, nothing is appended to any trace, the
transaction reports failure (R85). Wire bytes that are no valid frame are no error: they arrive like any other bytes and
the extractor deals with them (R80, R180). Operands without R88's format have no meaning in the spec (log 10). -/
def runTransaction (t : Transaction) (s : State) : Host.Outcome State Fault Refusal :=
  match decode s.cfg t, t with
  | .ok i, _ => exec i s
  | .error (.reservedOp _), _ => .next (returning .failure s)
  | .error (.notAFrame _), .frame14 bytes => exec (.tpRx bytes) s
  | .error _, _ => .refused .malformedTransaction

/-- One step: an ill-formed configuration is refused (R4); with nothing scheduled no agent steps and nothing changes;
otherwise the first operation of the total order is taken (R51, R52; log 3). -/
def stepOnce (s : State) : Host.Outcome State Fault Refusal :=
  if configWf s.cfg then
    match nextScheduled s with
    | none => .next s
    | some (t, rest) => runTransaction t rest
  else .refused .illFormedConfig

/-- The state with a table word's transaction put first in the schedule (log 3). -/
def scheduleFirst (t : Transaction) (s : State) : State := { s with sched := t :: s.sched }

end Sys2Proof.Machine
end

