-- ==== Sys2Proof/Machine/Step.lean ====
section
/-! DEFINITION. The step of the machine. -/

namespace Sys2Proof.Machine

/-- One step of the block: the next operation of the schedule. -/
def step (s : State) : Host.Outcome State Fault Refusal := stepOnce s

/-- `s` with the operation of a table word as the next one to be taken. -/
def State.withFetchWord (s : State) (nbits w : Nat) : State := scheduleFirst (tableTransaction s.cfg nbits w) s

end Sys2Proof.Machine
end

