-- ==== Sys2Proof/Safety.lean ====
section
/-! DEFINITION. The words in which claims are stated: the agents and the internal operations (R2, R85), the invariants
of a run (R13 to R15, R21 to R24, R148, R170, R201), the closed form of the extractor (R129), and observable equality
(R43). No meaning uses anything of this file. -/

namespace Sys2Proof.Machine

/-! ### Agents -/

/-- The five agents (R2). -/
inductive Agent where
  | caller
  | inboundPath
  | worker
  | timer
  | transport
  deriving DecidableEq, Repr

/-- The agent that takes each operation in the integrated block (R2); the arrival of a frame is the inbound path's. -/
def agentOf : Instr → Agent
  | .reset | .rbAlloc _ | .rbPush _ | .rbPop _ | .rbPeek _ _ | .rbDiscard _ | .rbChecksum _ _ | .rbLength => .caller
  | .fcEncode _ _ | .fcExtract | .cqEnqueue _ | .cmdSubmit _ _ | .ctlShutdown | .rcIssue _ _ => .caller
  | .fcDispatch _ _ | .rcResolve _ _ | .tpRx _ => .inboundPath
  | .frame _ _ | .frameVarRead _ _ _ | .frameStatus _ _ _ _ | .frameMode _ _ _ | .frameResponse _ _ _ => .inboundPath
  | .wkServe _ | .wkWake => .worker
  | .rcExpire _ | .tick => .timer
  | .tpConnect | .tpDisconnect => .transport

/-- The operations not offered to an outside caller (R85). -/
def isInternal : Instr → Bool
  | .fcDispatch _ _ | .cqEnqueue _ | .wkServe _ | .wkWake | .rcResolve _ _ | .rcExpire _ => true
  | _ => false

/-- The seven operations of the `RB_` family. -/
def isRingOp : Instr → Bool
  | .rbAlloc _ | .rbPush _ | .rbPop _ | .rbPeek _ _ | .rbDiscard _ | .rbChecksum _ _ | .rbLength => true
  | _ => false

/-- The op-select code of an operation, the first byte of its transaction (R84); none for a wire frame. -/
def opSelect (cfg : Config) (i : Instr) : Option Byte :=
  match encode cfg i with
  | .op8 bytes => bytes.head?
  | .frame14 _ => none

/-! ### Invariants -/

/-- The ring invariant (R14) with what the ring is made of: the capacity a power of two below `2^CW` (R12), cursors of
`CW` bits (R11), the storage in canonical form inside the capacity, every cell of the content written (R13). -/
abbrev RingInv (cw : Nat) (rb : Ring) : Prop :=
  isPow2 rb.cap = true ∧ rb.cap < 2 ^ cw ∧ rb.wr < 2 ^ cw ∧ rb.rd < 2 ^ cw ∧ cursorGap cw rb ≤ rb.cap ∧
    rb.mem.wf = true ∧ (∀ cell ∈ rb.mem, cell.1 < rb.cap) ∧
    ∀ i < cursorGap cw rb, (rb.mem.read (offsetIndex cw rb i)).isSome = true

/-- The queue holds whole frames (R15, R58), no more than a finite `QDEPTH` (R152). -/
abbrev QueueInv (s : State) : Prop :=
  (∀ f ∈ s.cqItems, f.length = frameLen) ∧ s.cqItems.length ≤ s.cfg.qDepth.getD s.cqItems.length

/-- Kind `k`'s record: its deadline is its issue time plus the kind's timeout (R22), and it is still to come (R166). -/
def rcEntryOk (s : State) (k : Nat) : Bool :=
  match rcOf s k, s.cfg.kinds[k]? with
  | .idle, _ => true
  | .awaiting issueTs deadline, some kp =>
    decide (deadline = issueTs + kp.timeoutTicks) && decide (issueTs ≤ s.now) && decide (s.now < deadline)
  | .awaiting _ _, none => false

/-- One correlator per kind (R171), each record as R22 says. -/
abbrev CorrelatorInv (s : State) : Prop :=
  s.rc.length = s.cfg.kinds.length ∧ ∀ k < s.cfg.kinds.length, rcEntryOk s k = true

/-- The pacing law (R148) with what carries it from step to step: any two records of `TX` are a pacing interval apart
in their order, none lies in the future, and the worker's own next write keeps the distance. -/
abbrev PacingInv (s : State) : Prop :=
  s.tx.Pairwise (fun a b => a.time + s.cfg.paceTicks ≤ b.time) ∧
    (∀ r ∈ s.tx, r.time ≤ s.now) ∧
    (s.wkState = .wait → ∀ r ∈ s.tx, r.time + s.cfg.paceTicks ≤ s.now) ∧
    (s.wkState = .sleep → (∀ r ∈ s.tx, r.time + s.cfg.paceTicks ≤ s.wkWakeAt) ∧
      s.wkWakeAt ≤ s.now + s.cfg.paceTicks)

/-- What is written is whole frames (R189). -/
abbrev TxInv (s : State) : Prop := ∀ r ∈ s.tx, r.frame.length = frameLen

/-- An outcome record as R170 and R205 have it: `success` exactly for `RSN_OK`, the reason the one of its status byte,
no code for a timeout. -/
def outcomeOk (cfg : Config) (o : OutcomeRecord) : Bool :=
  o.success == decide (o.reason = .ok) &&
    match o.code, cfg.kinds[o.kind]? with
    | some status, some kp => o.reason == statusReason kp status
    | none, some _ => o.reason == .timeout
    | _, none => false

/-- Every outcome reported is well formed (R170, R205). -/
abbrev OutInv (s : State) : Prop := ∀ o ∈ s.out, outcomeOk s.cfg o = true

/-- The bytes a `DIAG` record says were dropped. -/
def droppedBy : DiagRecord → Nat
  | .rxOverflow n => n
  | _ => 0

/-- How many records of `DIAG` have the number (R201). -/
def diagCount (s : State) (number : Nat) : Nat :=
  (s.diagTrace.filter (fun r => diagNumber r == number)).length

/-- Each counter of R201's last column agrees with the `DIAG` trace. -/
abbrev CounterInv (s : State) : Prop :=
  s.diag.normalized = diagCount s 1 ∧ s.diag.unknownCmd = diagCount s 2 ∧ s.diag.unsolicited = diagCount s 3 ∧
    s.diag.shortWrite = diagCount s 4 ∧ s.diag.rxDropped = (s.diagTrace.map droppedBy).sum

/-- The invariant of the integrated block: allocated within `RB_MAXCAP` (R4 (b), R12) and every part above. -/
abbrev StateInv (s : State) : Prop :=
  (s.rb.allocated = true ∧ s.rb.cap ≤ s.cfg.rbMaxCap ∧ RingInv s.cfg.cw s.rb) ∧ QueueInv s ∧ CorrelatorInv s ∧
    PacingInv s ∧ TxInv s ∧ OutInv s ∧ CounterInv s

/-! ### The stream as a sequence (R42, R129) -/

/-- A valid frame starts at offset `j` of a byte sequence. -/
def frameAt (cfg : Config) (str : List Byte) (j : Nat) : Bool :=
  decide (j + frameLen ≤ str.length) && validFrame cfg ((str.drop j).take frameLen)

/-- The counter that moves when the byte at offset `j` is passed over (R129). -/
def passOver (cfg : Config) (str : List Byte) (k : Counters) (j : Nat) : Counters :=
  if str[j]? ≠ some cfg.header then { k with resyncHeader := k.resyncHeader + 1 }
  else if str[j + 13]? ≠ some cfg.footer then { k with resyncFooter := k.resyncFooter + 1 }
  else { k with resyncChecksum := k.resyncChecksum + 1 }

/-- The counters after the first `n` bytes have been passed over. -/
def passOvers (cfg : Config) (str : List Byte) (n : Nat) (k : Counters) : Counters :=
  (List.range n).foldl (passOver cfg str) k

/-! ### Histories and observable equality -/

/-- The frames written, then the frames queued: every frame enqueued since the last reset, in order (R150). -/
def sentThenQueued (s : State) : List (List Byte) := s.tx.map TxRecord.frame ++ s.cqItems

/-- How many outcomes of kind `k` have been reported. -/
def outcomesOf (s : State) (k : Nat) : Nat := (s.out.filter (fun o => o.kind == k)).length

/-- Two rings no in-range operation can tell apart (R43). -/
abbrev RingsAlike (cw : Nat) (a b : Ring) : Prop :=
  a.allocated = b.allocated ∧ a.cap = b.cap ∧ content cw a = content cw b

/-- Two states that differ at most in the placement of the same ring content (R43). -/
abbrev StatesAlike (s t : State) : Prop := { s with rb := t.rb } = t ∧ RingsAlike s.cfg.cw s.rb t.rb

/-- Operations taken one after the other, each completing. -/
def runOps : List Instr → State → Option State
  | [], s => some s
  | i :: rest, s =>
    match exec i s with
    | .next t => runOps rest t
    | .fault _ => none
    | .refused _ => none

/-- The drain loop of `TP_RX` as operations (R180): extract, dispatch what came, until there is no frame. -/
inductive DrainsTo : State → State → Prop where
  | noFrame {s t : State} : exec .fcExtract s = .next t → t.ret = .noFrame → DrainsTo s t
  | frame {s t u v : State} {command : Byte} {payload : List Byte} :
      exec .fcExtract s = .next t → t.ret = .decoded command payload →
      exec (.fcDispatch command payload) t = .next u → DrainsTo u v → DrainsTo s v

/-- One turn of the worker under the eager schedule (R52): a serve, the pacing interval, the wake. -/
def workerTurn (paceTicks : Nat) : List Instr := .wkServe frameLen :: (List.replicate paceTicks .tick ++ [.wkWake])

/-! ### Which operation writes what (R10, R87) -/

/-- The elements of the state tuple (R10): the ring in three parts (R11 to R13), each of the others, and the model's own
fields. -/
inductive Element where
  | ringAllocation
  | ringWriteSide
  | ringReadCursor
  | queue
  | workerState
  | wakeTime
  | stopFlag
  | connection
  | correlators
  | time
  | counters
  | traceTx
  | traceEv
  | traceOut
  | traceDiag
  | configuration
  | schedule
  | result
  | freeDraws
  deriving DecidableEq, Repr

/-- The element holds the same in both states. -/
def Element.same (s t : State) : Element → Prop
  | .ringAllocation => s.rb.allocated = t.rb.allocated ∧ s.rb.cap = t.rb.cap
  | .ringWriteSide => s.rb.wr = t.rb.wr ∧ s.rb.mem = t.rb.mem
  | .ringReadCursor => s.rb.rd = t.rb.rd
  | .queue => s.cqItems = t.cqItems
  | .workerState => s.wkState = t.wkState
  | .wakeTime => s.wkWakeAt = t.wkWakeAt
  | .stopFlag => s.ctlStop = t.ctlStop
  | .connection => s.tpConnected = t.tpConnected
  | .correlators => s.rc = t.rc
  | .time => s.now = t.now
  | .counters => s.diag = t.diag
  | .traceTx => s.tx = t.tx
  | .traceEv => s.ev = t.ev
  | .traceOut => s.out = t.out
  | .traceDiag => s.diagTrace = t.diagTrace
  | .configuration => s.cfg = t.cfg
  | .schedule => s.sched = t.sched
  | .result => s.ret = t.ret
  | .freeDraws => s.draws = t.draws

/-- What a delivery of bytes may write (R180). -/
def deliveryWrites : List Element :=
  [.ringWriteSide, .ringReadCursor, .correlators, .counters, .traceEv, .traceOut, .traceDiag, .result]

/-- The elements an operation may write: the "State written" lines of R101 to R186, with the operation's result. -/
def mayWrite : Instr → List Element
  | .reset =>
    [.ringAllocation, .ringWriteSide, .ringReadCursor, .queue, .workerState, .wakeTime, .stopFlag, .connection,
      .correlators, .time, .counters, .traceTx, .traceEv, .traceOut, .traceDiag, .result]
  | .rbAlloc _ => [.ringAllocation, .ringWriteSide, .ringReadCursor, .result]
  | .rbPush _ => [.ringWriteSide, .result]
  | .rbPop _ => [.ringReadCursor, .result]
  | .rbPeek _ _ => [.result]
  | .rbDiscard _ => [.ringReadCursor, .result]
  | .rbChecksum _ _ => [.freeDraws, .result]
  | .rbLength => [.result]
  | .fcEncode _ _ => [.counters, .traceDiag, .result]
  | .fcExtract => [.ringReadCursor, .counters, .result]
  | .fcDispatch _ _ => [.correlators, .counters, .traceEv, .traceOut, .traceDiag, .result]
  | .cqEnqueue _ => [.queue, .result]
  | .cmdSubmit _ _ => [.queue, .correlators, .counters, .traceDiag, .result]
  | .wkServe _ => [.workerState, .wakeTime, .queue, .counters, .traceTx, .traceDiag, .result]
  | .wkWake => [.workerState, .result]
  | .ctlShutdown => [.stopFlag, .result]
  | .rcIssue _ _ => [.queue, .correlators, .counters, .traceDiag, .result]
  | .rcResolve _ _ => [.correlators, .traceOut, .result]
  | .rcExpire _ => [.correlators, .traceOut, .traceDiag, .result]
  | .tpRx _ => deliveryWrites
  | .tpConnect => [.connection, .result]
  | .tpDisconnect => [.connection, .result]
  | .tick => [.time, .correlators, .traceOut, .traceDiag, .result]
  | .frame _ _ => deliveryWrites
  | .frameVarRead _ _ _ => deliveryWrites
  | .frameStatus _ _ _ _ => deliveryWrites
  | .frameMode _ _ _ => deliveryWrites
  | .frameResponse _ _ _ => deliveryWrites

/-- The bytes an operation hands to `RB_PUSH` (R102, R180; for a frame row log 5). -/
def pushedBytes (cfg : Config) : Instr → List Byte
  | .rbPush bytes => bytes
  | .tpRx bytes => bytes
  | .frame command payload => frameOf cfg command payload
  | .frameVarRead identifier value rest => frameOf cfg varReadCode (identifier :: (valueBytes value ++ rest))
  | .frameStatus command status state rest => frameOf cfg command (status :: state :: rest)
  | .frameMode command mode rest => frameOf cfg command (mode :: rest)
  | .frameResponse command status rest => frameOf cfg command (status :: rest)
  | _ => []

/-- The cells a push of `bytes` writes in a state, in order: `(rb.wr +_CW j) & mask` for each stored byte (R102). -/
def storedCells (s : State) (bytes : List Byte) : List Nat :=
  if s.rb.allocated then
    (List.range (min bytes.length (ringFree s.cfg.cw s.rb))).map
      (fun j => physIndex s.rb.cap (addW s.cfg.cw s.rb.wr j))
  else []

/-- The state after a ring that was empty has taken in a frame and the codec has taken it out (R102, R128). -/
def passedThrough (s : State) (f : List Byte) : State :=
  { s with rb := { s.rb with
      wr := addW s.cfg.cw s.rb.wr f.length
      rd := addW s.cfg.cw s.rb.rd f.length
      mem := storeBytes s.cfg.cw s.rb.cap s.rb.wr f 0 s.rb.mem } }

end Sys2Proof.Machine
end

