-- ==== Sys2Proof/Certificates/Slice0/Obligations.lean ====
section
/-! DEFINITION. The statements for the provers. Each docstring names the rules it formalises. "Derived" says that the
spec itself marks the rule so, or that a part of the statement is the model's choice, whose log entry is named. In a next
state `ret` holds the result R88 gives the operation (log 7). -/

open Sys2Proof Sys2Proof.Machine

/-! ### Encoding -/

/-- Decode and encode agree: the bytes of every well-formed operation or frame decode to it, under every configuration.
The op-select codes and the frame are the spec's (R84, R70); the operand bytes after the op byte are the model's choice
(log 4), and so is which frame row comes first (log 6). -/
def Obligations.DecodeOfEncodeIsIdentity : Prop :=
  ∀ (cfg : Config) (i : Instr), i.wf cfg = true → decode cfg (encode cfg i) = .ok i

/-- The decoder answers only operations the spec has: every operand inside R88's type, every frame under its own row
(operand bytes: log 4; rows: log 6). -/
def Obligations.DecodedOperationsAreWellFormed : Prop :=
  ∀ (cfg : Config) (t : Transaction) (i : Instr), decode cfg t = .ok i → i.wf cfg = true

/-- No bit of a transaction is dropped: what decodes encodes back to the same bytes. `WK_SERVE` apart, whose natural may
be written with leading zero bytes (log 4). -/
def Obligations.DecodedTransactionsEncodeBack : Prop :=
  ∀ (cfg : Config) (t : Transaction) (i : Instr),
    decode cfg t = .ok i → (∀ w, i ≠ .wkServe w) → encode cfg i = t

/-- The first sentence of R85 against the codes of R84's table, written out: an op byte is refused as reserved exactly
when it is none of the 23, whatever follows it. -/
def Obligations.ReservedOpSelectCodes : Prop :=
  ∀ (cfg : Config) (op : Byte) (args : List Byte),
    decode cfg (.op8 (op :: args)) = .error (.reservedOp op) ↔
      op ∉ [0x00#8, 0x01#8, 0x02#8, 0x03#8, 0x04#8, 0x05#8, 0x06#8, 0x07#8, 0x10#8, 0x11#8, 0x12#8,
        0x20#8, 0x21#8, 0x22#8, 0x23#8, 0x24#8, 0x30#8, 0x31#8, 0x32#8, 0x40#8, 0x41#8, 0x42#8, 0x43#8]

/-- A few words written out from R84, R70 and R74 to R77 decode to the operations they stand for, under the reset
state's configuration (log 2); the two words whose command needs a `STATUS` or `MODE` code, under the spec's `TCFG`
(00_scope.md section 5). Operand bytes as in log 4. -/
def Obligations.SpecWordsDecodeToTheirOperations : Prop :=
  decodeTableWord 8 0x00 = some .reset ∧
    decodeTableWord 8 0x07 = some .rbLength ∧
    decodeTableWord 8 0x24 = some .ctlShutdown ∧
    decodeTableWord 8 0x43 = some .tick ∧
    decode Config.standard (.op8 [0x02#8, 0x01#8, 0x02#8]) = .ok (.rbPush [0x01#8, 0x02#8]) ∧
    decode Config.standard (.op8 [0x31#8, 0x00#8, 0x7F#8]) = .ok (.rcResolve 0 0x7F#8) ∧
    decodeTableWord 112 0xAA100778563412_0000000000_D555 =
      some (.frameVarRead 0x07#8 0x12345678#32 [0x00#8, 0x00#8, 0x00#8, 0x00#8, 0x00#8]) ∧
    decode Config.tcfg (tableTransaction Config.tcfg 112 0xAA30_0503_0000000000000000_E255) =
      .ok (.frameStatus 0x30#8 0x05#8 0x03#8 (List.replicate 8 0x00#8)) ∧
    decode Config.tcfg (tableTransaction Config.tcfg 112 0xAA40_02_000000000000000000_EC55) =
      .ok (.frameMode 0x40#8 0x02#8 (List.replicate 9 0x00#8)) ∧
    decodeTableWord 112 0xAA21_7F_000000000000000000_4A55 =
      some (.frameResponse 0x21#8 0x7F#8 (List.replicate 9 0x00#8))

/-! ### The step -/

/-- A step runs the operation that the first transaction of the schedule decodes to, with nothing added but the
schedule's advance (R51; the schedule as data is the model's choice, log 3); and a table word placed with
`withFetchWord` is what the next step runs. -/
def Obligations.StepRunsTheDecodedOperation : Prop :=
  (∀ (s : State) (t : Transaction) (rest : List Transaction) (i : Instr),
    configWf s.cfg = true → s.sched = t :: rest → decode s.cfg t = .ok i →
      step s = exec i { s with sched := rest }) ∧
  ∀ (s : State) (nbits w : Nat) (i : Instr),
    configWf s.cfg = true → decode s.cfg (tableTransaction s.cfg nbits w) = .ok i →
      step (s.withFetchWord nbits w) = exec i s

/-- The steps that run no operation of their own: an ill-formed configuration is refused (R4); an empty schedule changes
nothing (log 3); a reserved op changes nothing and reports failure (R85, log 10); wire bytes that are no valid frame
arrive as bytes (R80, R180, log 5); any other undecodable transaction is refused (log 10). -/
def Obligations.StepsThatRunNoOperation : Prop :=
  ∀ (s : State),
    (configWf s.cfg = false → step s = .refused .illFormedConfig) ∧
    (configWf s.cfg = true → s.sched = [] → step s = .next s) ∧
    ∀ (t : Transaction) (rest : List Transaction) (e : DecodeError),
      configWf s.cfg = true → s.sched = t :: rest → decode s.cfg t = .error e →
        match e with
        | .reservedOp _ => step s = .next { s with sched := rest, ret := .failure }
        | .notAFrame _ => ∃ bytes, t = .frame14 bytes ∧ step s = exec (.tpRx bytes) { s with sched := rest }
        | .empty => step s = .refused .malformedTransaction
        | .operandFormat _ => step s = .refused .malformedTransaction
        | .operandTooWide _ => step s = .refused .malformedTransaction
        | .noSuchKind _ _ => step s = .refused .malformedTransaction

/-- The check of a configuration is R4's clauses (a) to (f), clause (g) holding by type, and the two constraints of
92_eei_decisions.md on the classified codes (log 18); it asks nothing more of the code 0x10 (log 26). -/
def Obligations.ConfigurationCheckIsRuleFour : Prop :=
  ∀ cfg : Config, configWf cfg = true ↔
    1 ≤ cfg.cw ∧
    (∃ k, cfg.rbCap = 2 ^ k) ∧ cfg.rbCap ≤ cfg.rbMaxCap ∧ cfg.rbMaxCap ≤ 2 ^ (cfg.cw - 1) ∧
    16 ≤ cfg.rbCap ∧
    (∀ (i j : Nat) (kp kq : KindParams), cfg.kinds[i]? = some kp → cfg.kinds[j]? = some kq →
      kp.respCmd = kq.respCmd → i = j) ∧
    (∀ (i j : Nat) (kp kq : KindParams), cfg.kinds[i]? = some kp → cfg.kinds[j]? = some kq →
      kp.reqCmd = kq.reqCmd → i = j) ∧
    (∀ kp ∈ cfg.kinds, kp.failCode ≠ stOk ∧ 1 ≤ kp.timeoutTicks) ∧
    (∀ (i j : Nat) (a b : Byte × CmdClass), cfg.cmdClass[i]? = some a → cfg.cmdClass[j]? = some b →
      a.1 = b.1 → i = j) ∧
    classOf cfg varReadCode ≠ .status ∧ classOf cfg varReadCode ≠ .mode

/-! ### Invariants and frames over all operations -/

/-- The block's invariant holds after reset: under the standard configuration (log 2) and under every well-formed one
(R29). -/
def Obligations.StateInvHoldsAtReset : Prop :=
  StateInv State.reset ∧ ∀ cfg : Config, configWf cfg = true → StateInv (State.resetWith cfg)

/-- Every step keeps the block's invariant: the ring (R14), the storage's canonical form (R13), the queue of whole frames
within `QDEPTH` (R15, R152), the requests' deadlines (R22, R166), pacing (R148), whole frames on `TX` (R189), the
outcomes (R170, R205), the counters against `DIAG` (R201). R207 says no operation violates an invariant. -/
def Obligations.EveryStepKeepsTheStateInvariant : Prop :=
  ∀ s t : State, StateInv s → step s = .next t → StateInv t

/-- R14: the ring invariant holds at reset and every step keeps it, whatever the rest of the state holds, an unallocated
ring included; so a well-formed run always has `rb.wr -_CW rb.rd <= rb.cap`. -/
def Obligations.RingInvariantAtResetAndEveryStep : Prop :=
  (∀ cfg : Config, configWf cfg = true → RingInv cfg.cw (State.resetWith cfg).rb) ∧
  (∀ s t : State, (s.rb.allocated = true → RingInv s.cfg.cw s.rb) → step s = .next t →
    t.rb.allocated = true → RingInv t.cfg.cw t.rb) ∧
  ∀ s : State, RingInv s.cfg.cw s.rb → (content s.cfg.cw s.rb).length ≤ s.rb.cap

/-- R148, which the spec derives from R143, R144 and R18: at reset and after every step, consecutive records of `TX` are at
least `PACE_TICKS` apart. -/
def Obligations.EveryStepKeepsThePacingLaw : Prop :=
  (∀ cfg : Config, PacingInv (State.resetWith cfg)) ∧
  (∀ s t : State, PacingInv s → step s = .next t → PacingInv t) ∧
  ∀ s : State, PacingInv s → ∀ n a b, s.tx[n]? = some a → s.tx[n + 1]? = some b →
    a.time + s.cfg.paceTicks ≤ b.time

/-- R207: every operation has a next state in every state, and the configuration stays (R28). That the schedule is left
alone is the model's (log 3). -/
def Obligations.EveryWellFormedOperationCompletes : Prop :=
  ∀ (s : State) (i : Instr), i.wf s.cfg = true →
    ∃ t, exec i s = .next t ∧ t.cfg = s.cfg ∧ t.sched = s.sched

/-- The frame of every operation, element by element: only the elements of its own "State written" line may change (R10's
owners, R111, R171; a composite writes what its parts write, R87). The rows of frames as in log 5. -/
def Obligations.OperationsWriteOnlyTheirOwnElements : Prop :=
  ∀ (i : Instr) (s t : State) (e : Element), exec i s = .next t → e ∉ mayWrite i → e.same s t

/-- The frame of the ring storage, cell by cell: an operation other than `RB_ALLOC` and `RESET` leaves every cell alone
but those at `(rb.wr +_CW j) & mask` for the bytes it pushes (R102, R13, R48). The rows of frames as in log 5. -/
def Obligations.OnlyPushedCellsOfTheStorageChange : Prop :=
  ∀ (i : Instr) (s t : State), (∀ c, i ≠ .rbAlloc c) → i ≠ .reset → exec i s = .next t →
    ∀ a, a ∉ storedCells s (pushedBytes s.cfg i) → t.rb.mem.read a = s.rb.mem.read a

/-- The four traces are append-only (R27); `RESET` alone clears them (R230). Rows of frames as in log 5. -/
def Obligations.TracesOnlyGrow : Prop :=
  ∀ (i : Instr) (s t : State), i ≠ .reset → exec i s = .next t →
    s.tx <+: t.tx ∧ s.ev <+: t.ev ∧ s.out <+: t.out ∧ s.diagTrace <+: t.diagTrace

/-! ### Reset and the ring buffer -/

/-- R230 and R29: `RESET` writes every element's value of the reset table. That the schedule and the count of free values
go on is the model's choice (log 14). -/
def Obligations.ResetWritesTheConstructionValues : Prop :=
  ∀ s : State, configWf s.cfg = true →
    opSelect s.cfg .reset = some 0x00#8 ∧
    exec .reset s = .next
      { cfg := s.cfg
        rb := { allocated := true, cap := s.cfg.rbCap, wr := 0, rd := 0, mem := [] }
        cqItems := []
        wkState := .wait
        wkWakeAt := 0
        ctlStop := false
        tpConnected := false
        rc := List.replicate s.cfg.kinds.length .idle
        now := 0
        diag := ⟨0, 0, 0, 0, 0, 0, 0, 0⟩
        tx := []
        ev := []
        out := []
        diagTrace := []
        sched := s.sched
        ret := .none
        draws := s.draws }

/-- R101: `RB_ALLOC` fails, with no state change, for zero, for anything but a power of two and above `RB_MAXCAP`; else the
ring is allocated anew, both cursors 0 and every cell unwritten. -/
def Obligations.RbAllocMakesAFreshRingOrFails : Prop :=
  ∀ (s : State) (capacity : Nat),
    opSelect s.cfg (.rbAlloc capacity) = some 0x01#8 ∧
    ((capacity = 0 ∨ (∀ k, capacity ≠ 2 ^ k) ∨ s.cfg.rbMaxCap < capacity) →
      exec (.rbAlloc capacity) s = .next { s with ret := .ok false }) ∧
    ((∃ k, capacity = 2 ^ k) → capacity ≤ s.cfg.rbMaxCap →
      exec (.rbAlloc capacity) s = .next
        { s with rb := { allocated := true, cap := capacity, wr := 0, rd := 0, mem := [] }, ret := .ok true })

/-- R102: `RB_PUSH` stores the first `n = min(|bytes|, free)` bytes in the cells `(rb.wr +_CW i) & mask`, moves `rb.wr` by
`n` and returns `n`; no other cell changes, `rb.rd` stays, and the content has gained exactly those bytes. -/
def Obligations.RbPushAppendsWhatFits : Prop :=
  ∀ (s : State) (bytes : List Byte), s.rb.allocated = true → RingInv s.cfg.cw s.rb →
    let n := min bytes.length (s.rb.cap - (content s.cfg.cw s.rb).length)
    opSelect s.cfg (.rbPush bytes) = some 0x02#8 ∧
    ∃ t, exec (.rbPush bytes) s = .next t ∧
      t = { s with rb := { s.rb with wr := addW s.cfg.cw s.rb.wr n, mem := t.rb.mem }, ret := .count n } ∧
      (∀ i < n, t.rb.mem.read (physIndex s.rb.cap (addW s.cfg.cw s.rb.wr i)) = bytes[i]?) ∧
      (∀ a, (∀ i < n, a ≠ physIndex s.rb.cap (addW s.cfg.cw s.rb.wr i)) → t.rb.mem.read a = s.rb.mem.read a) ∧
      content t.cfg.cw t.rb = content s.cfg.cw s.rb ++ bytes.take n

/-- R103: `RB_POP` returns the oldest `min(maxLen, length)` bytes and moves `rb.rd` past them, nothing else. -/
def Obligations.RbPopRemovesTheOldestBytes : Prop :=
  ∀ (s : State) (maxLen : Nat), s.rb.allocated = true → RingInv s.cfg.cw s.rb →
    let n := min maxLen (content s.cfg.cw s.rb).length
    let rb : Ring := { s.rb with rd := addW s.cfg.cw s.rb.rd n }
    opSelect s.cfg (.rbPop maxLen) = some 0x03#8 ∧
    exec (.rbPop maxLen) s = .next { s with rb := rb, ret := .bytes ((content s.cfg.cw s.rb).take n) } ∧
    content s.cfg.cw rb = (content s.cfg.cw s.rb).drop n

/-- R104: `RB_PEEK` returns the whole window, or no byte when `start + len` exceeds the length; the sum does not wrap and
nothing moves. -/
def Obligations.RbPeekIsAllOrNothing : Prop :=
  ∀ (s : State) (start len : Nat), s.rb.allocated = true →
    let c := content s.cfg.cw s.rb
    opSelect s.cfg (.rbPeek start len) = some 0x04#8 ∧
    (start + len > c.length → exec (.rbPeek start len) s = .next { s with ret := .bytes [] }) ∧
    (start + len ≤ c.length →
      exec (.rbPeek start len) s = .next { s with ret := .bytes ((c.drop start).take len) })

/-- R105: `RB_DISCARD` moves `rb.rd` by `min(len, length)` and returns that number. -/
def Obligations.RbDiscardDropsTheOldestBytes : Prop :=
  ∀ (s : State) (len : Nat), s.rb.allocated = true → RingInv s.cfg.cw s.rb →
    let n := min len (content s.cfg.cw s.rb).length
    let rb : Ring := { s.rb with rd := addW s.cfg.cw s.rb.rd n }
    opSelect s.cfg (.rbDiscard len) = some 0x05#8 ∧
    exec (.rbDiscard len) s = .next { s with rb := rb, ret := .count n } ∧
    content s.cfg.cw rb = (content s.cfg.cw s.rb).drop n

/-- R106: the 16-bit sum of the bytes at offsets n to m, 0 for an empty range, a drawn value where the range leaves the
content. The draw is a free value and a count of draws of the model's own (log 11). -/
def Obligations.RbChecksumSumsARange : Prop :=
  ∀ (s : State) (n m : Nat), s.rb.allocated = true →
    let c := content s.cfg.cw s.rb
    opSelect s.cfg (.rbChecksum n m) = some 0x06#8 ∧
    (n > m → exec (.rbChecksum n m) s = .next { s with ret := .sum 0#16 }) ∧
    (n ≤ m → m ≥ c.length →
      ∃ v, exec (.rbChecksum n m) s = .next { s with ret := .sum v, draws := s.draws + 1 }) ∧
    (n ≤ m → m < c.length →
      exec (.rbChecksum n m) s =
        .next { s with ret := .sum (BitVec.ofNat 16 (((c.drop n).take (m - n + 1)).map BitVec.toNat).sum) })

/-- R107: `RB_LENGTH` returns `rb.wr -_CW rb.rd`, the number of buffered bytes, at most `rb.cap`. -/
def Obligations.RbLengthCountsTheContent : Prop :=
  ∀ s : State, s.rb.allocated = true →
    opSelect s.cfg .rbLength = some 0x07#8 ∧
    exec .rbLength s = .next { s with ret := .count (subW s.cfg.cw s.rb.wr s.rb.rd) } ∧
    subW s.cfg.cw s.rb.wr s.rb.rd = (content s.cfg.cw s.rb).length ∧
    (RingInv s.cfg.cw s.rb → subW s.cfg.cw s.rb.wr s.rb.rd ≤ s.rb.cap)

/-- R100: while the ring is not allocated every `RB_` operation but `RB_ALLOC` changes no state and returns its empty
result. -/
def Obligations.UnallocatedRingRefuses : Prop :=
  ∀ (s : State) (bytes : List Byte) (a b : Nat), s.rb.allocated = false →
    exec (.rbPush bytes) s = .next { s with ret := .count 0 } ∧
    exec (.rbPop a) s = .next { s with ret := .bytes [] } ∧
    exec (.rbPeek a b) s = .next { s with ret := .bytes [] } ∧
    exec (.rbDiscard a) s = .next { s with ret := .count 0 } ∧
    exec (.rbChecksum a b) s = .next { s with ret := .sum 0#16 } ∧
    exec .rbLength s = .next { s with ret := .count 0 }

/-- R109, which the spec derives from R102, R103 and R105: a push, a pop or a discard in two parts leaves the same state as
in one, and the results add up. -/
def Obligations.RingTransfersSplit : Prop :=
  ∀ s : State, s.rb.allocated = true → RingInv s.cfg.cw s.rb →
    (∀ a b : List Byte, ∃ u v n m,
      exec (.rbPush a) s = .next u ∧ u.ret = .count n ∧ exec (.rbPush b) u = .next v ∧ v.ret = .count m ∧
      exec (.rbPush (a ++ b)) s = .next { v with ret := .count (n + m) }) ∧
    (∀ p q : Nat, ∃ u v x y,
      exec (.rbPop p) s = .next u ∧ u.ret = .bytes x ∧ exec (.rbPop q) u = .next v ∧ v.ret = .bytes y ∧
      exec (.rbPop (p + q)) s = .next { v with ret := .bytes (x ++ y) }) ∧
    ∀ p q : Nat, ∃ u v n m,
      exec (.rbDiscard p) s = .next u ∧ u.ret = .count n ∧ exec (.rbDiscard q) u = .next v ∧ v.ret = .count m ∧
      exec (.rbDiscard (p + q)) s = .next { v with ret := .count (n + m) }

/-- R110, which the spec derives from R102 and R103: popping `p` bytes and pushing them back keeps the capacity and
rotates the content, which is then the old one when everything was popped; both cursors are `p` further on. -/
def Obligations.PopThenPushRotatesTheContent : Prop :=
  ∀ (s : State) (p : Nat), s.rb.allocated = true → RingInv s.cfg.cw s.rb →
    let c := content s.cfg.cw s.rb
    p ≤ c.length →
      ∃ u v, exec (.rbPop p) s = .next u ∧ u.ret = .bytes (c.take p) ∧ content u.cfg.cw u.rb = c.drop p ∧
        exec (.rbPush (c.take p)) u = .next v ∧ v.ret = .count p ∧
        content v.cfg.cw v.rb = c.drop p ++ c.take p ∧ (p = c.length → content v.cfg.cw v.rb = c) ∧
        v.rb.cap = s.rb.cap ∧ v.rb.wr = addW s.cfg.cw s.rb.wr p ∧ v.rb.rd = addW s.cfg.cw s.rb.rd p

/-- R43, which the spec derives from R42 and R101 to R107: two states that differ only in where the same content lies in
the ring answer every operation alike, an `RB_CHECKSUM` whose range leaves the content apart, and stay alike. Rows of
frames as in log 5. -/
def Obligations.CursorPlacementIsUnobservable : Prop :=
  ∀ (i : Instr) (s s' t : State), StatesAlike s s' →
    (s.rb.allocated = true → RingInv s.cfg.cw s.rb ∧ RingInv s'.cfg.cw s'.rb) →
    (∀ n m, i = .rbChecksum n m → n > m ∨ m < (content s.cfg.cw s.rb).length) →
    exec i s = .next t → ∃ t', exec i s' = .next t' ∧ StatesAlike t t'

/-! ### The frame codec -/

/-- R120 with R73: the encoder's frame, byte for byte, for a payload of any length, and the `NORMALIZED` record and counter
exactly when the length is not 10. -/
def Obligations.FcEncodeBuildsTheFrame : Prop :=
  ∀ (s : State) (command : Byte) (payload : List Byte),
    let p := if payload.length < 10 then payload ++ List.replicate (10 - payload.length) 0x00#8 else payload.take 10
    let body := s.cfg.header :: command :: p
    let f := body ++ [BitVec.ofNat 8 (body.map BitVec.toNat).sum, s.cfg.footer]
    opSelect s.cfg (.fcEncode command payload) = some 0x10#8 ∧
    f.length = 14 ∧
    (payload.length = 10 → p = payload ∧ exec (.fcEncode command payload) s = .next { s with ret := .frame f }) ∧
    (payload.length ≠ 10 →
      exec (.fcEncode command payload) s = .next
        { s with
          ret := .frame f
          diagTrace := s.diagTrace ++ [.normalized payload.length]
          diag := { s.diag with normalized := s.diag.normalized + 1 } })

/-- R79, which the spec derives from R120 and R122: what is encoded is a valid frame; what is extracted was a valid frame
of the content, and the bytes after it are what is left. -/
def Obligations.EncodedAndExtractedFramesAreValid : Prop :=
  (∀ (cfg : Config) (command : Byte) (payload : List Byte),
    let f := frameOf cfg command payload
    f.length = 14 ∧ f[0]? = some cfg.header ∧ f[13]? = some cfg.footer ∧ f[12]? = some (csum f)) ∧
  ∀ (s t : State) (command : Byte) (payload : List Byte), s.rb.allocated = true → RingInv s.cfg.cw s.rb →
    exec .fcExtract s = .next t → t.ret = .decoded command payload →
      payload.length = 10 ∧
      ∃ noise, content s.cfg.cw s.rb = noise ++ frameOf s.cfg command payload ++ content t.cfg.cw t.rb

/-- R122, one pass of its loop at a time (R123, R124, R126, R127, R128): fewer than 14 bytes answer `NoFrame`; a window
that fails its header, footer or checksum test, in that order, costs one byte and one count, and the loop goes on; a
window that passes all three is returned and its 14 bytes are discarded. -/
def Obligations.FcExtractGoesPassByPass : Prop :=
  ∀ s : State, s.rb.allocated = true → RingInv s.cfg.cw s.rb →
    let str := content s.cfg.cw s.rb
    let past (n : Nat) (k : Counters) : State :=
      { s with rb := { s.rb with rd := addW s.cfg.cw s.rb.rd n }, diag := k }
    opSelect s.cfg .fcExtract = some 0x11#8 ∧
    (str.length < 14 → exec .fcExtract s = .next { s with ret := .noFrame }) ∧
    (14 ≤ str.length → str[0]? ≠ some s.cfg.header →
      exec .fcExtract s = exec .fcExtract (past 1 { s.diag with resyncHeader := s.diag.resyncHeader + 1 })) ∧
    (14 ≤ str.length → str[0]? = some s.cfg.header → str[13]? ≠ some s.cfg.footer →
      exec .fcExtract s = exec .fcExtract (past 1 { s.diag with resyncFooter := s.diag.resyncFooter + 1 })) ∧
    (14 ≤ str.length → str[0]? = some s.cfg.header → str[13]? = some s.cfg.footer → str[12]? ≠ some (csum str) →
      exec .fcExtract s = exec .fcExtract (past 1 { s.diag with resyncChecksum := s.diag.resyncChecksum + 1 })) ∧
    (14 ≤ str.length → str[0]? = some s.cfg.header → str[13]? = some s.cfg.footer → str[12]? = some (csum str) →
      exec .fcExtract s = .next
        { past 14 s.diag with ret := .decoded (str.getD 1 0x00#8) ((str.drop 2).take 10) })

/-- R129, which the spec derives from R122: `FC_EXTRACT` in closed form. Without a valid window it drops all but 13 bytes;
else it returns the first one and drops everything up to its end; each byte passed over moves one counter. -/
def Obligations.FcExtractReturnsTheFirstValidWindow : Prop :=
  ∀ s : State, s.rb.allocated = true → RingInv s.cfg.cw s.rb →
    let c := content s.cfg.cw s.rb
    ((∀ j, frameAt s.cfg c j = false) →
      ∃ t, exec .fcExtract s = .next t ∧
        t = { s with
          rb := { s.rb with rd := addW s.cfg.cw s.rb.rd (c.length - 13) }
          diag := passOvers s.cfg c (c.length - 13) s.diag
          ret := .noFrame } ∧
        content t.cfg.cw t.rb = c.drop (c.length - 13)) ∧
    ∀ j, frameAt s.cfg c j = true → (∀ i < j, frameAt s.cfg c i = false) →
      ∃ t, exec .fcExtract s = .next t ∧
        t = { s with
          rb := { s.rb with rd := addW s.cfg.cw s.rb.rd (j + 14) }
          diag := passOvers s.cfg c j s.diag
          ret := .decoded (c.getD (j + 1) 0x00#8) ((c.drop (j + 2)).take 10) } ∧
        content t.cfg.cw t.rb = c.drop (j + 14)

/-- R130 (d), which the spec derives from R129: a valid frame with any one byte changed is no valid frame, and the
extractor that meets it moves on by one byte. -/
def Obligations.SingleByteCorruptionIsRejected : Prop :=
  ∀ (s : State) (f rest : List Byte) (j : Nat) (b : Byte), s.rb.allocated = true → RingInv s.cfg.cw s.rb →
    validFrame s.cfg f = true → j < 14 → f[j]? ≠ some b → content s.cfg.cw s.rb = f.set j b ++ rest →
      validFrame s.cfg (f.set j b) = false ∧
      exec .fcExtract s = exec .fcExtract
        { s with
          rb := { s.rb with rd := addW s.cfg.cw s.rb.rd 1 }
          diag := passOver s.cfg (content s.cfg.cw s.rb) s.diag 0 }

/-- R131, which the spec derives from R123 and R102: a ring of fewer than 14 bytes never yields a frame and never drops a
byte; it fills up and stays full. -/
def Obligations.SmallRingNeverYieldsAFrame : Prop :=
  ∀ (s : State) (bytes : List Byte), s.rb.allocated = true → RingInv s.cfg.cw s.rb → s.rb.cap < 14 →
    exec .fcExtract s = .next { s with ret := .noFrame } ∧
    ∃ t, exec (.tpRx bytes) s = .next t ∧ t.ev = s.ev ∧ t.out = s.out ∧ t.rc = s.rc ∧
      content t.cfg.cw t.rb =
        content s.cfg.cw s.rb ++ bytes.take (s.rb.cap - (content s.cfg.cw s.rb).length)

/-- R132: `FC_DISPATCH` looks the command up among the kinds, then in the class table, independently. `r` is the state the
first look-up leaves (nothing done for no kind; R163's resolution for an awaiting one; `UNSOLICITED_RESPONSE` for an idle
one),
`known` whether there was a kind. R4 (d) makes the kind unique. -/
def Obligations.FcDispatchDoesBothLookUps : Prop :=
  ∀ (s r : State) (command : Byte) (p : List Byte) (known : Bool), p.length = 10 →
    (s.cfg.kinds.map KindParams.respCmd).Nodup →
    ((known = false ∧ r = s ∧ ∀ kp ∈ s.cfg.kinds, kp.respCmd ≠ command) ∨
      (known = true ∧ ∃ k kp, s.cfg.kinds[k]? = some kp ∧ kp.respCmd = command ∧
        ((rcOf s k ≠ .idle ∧ r = resolveByStatus kp k (p.getD 0 0x00#8) s) ∨
          (rcOf s k = .idle ∧
            r = { s with
              diagTrace := s.diagTrace ++ [.unsolicitedResponse k command]
              diag := { s.diag with unsolicited := s.diag.unsolicited + 1 } })))) →
    opSelect s.cfg (.fcDispatch command p) = some 0x12#8 ∧
    (classOf s.cfg command = .varRead →
      exec (.fcDispatch command p) s = .next
        { r with ev := r.ev ++ [.onVariableRead (p.getD 0 0x00#8) (readValue p)], ret := .none }) ∧
    (classOf s.cfg command = .status →
      exec (.fcDispatch command p) s = .next
        { r with ev := r.ev ++ [.onStatusReport command (p.getD 0 0x00#8) (p.getD 1 0x00#8)], ret := .none }) ∧
    (classOf s.cfg command = .mode →
      exec (.fcDispatch command p) s = .next
        { r with ev := r.ev ++ [.onModeReport (p.getD 0 0x00#8)], ret := .none }) ∧
    (classOf s.cfg command = .unclassified → known = true →
      exec (.fcDispatch command p) s = .next { r with ret := .none }) ∧
    (classOf s.cfg command = .unclassified → known = false →
      exec (.fcDispatch command p) s = .next
        { r with
          diagTrace := r.diagTrace ++ [.unknownCommand command]
          diag := { r.diag with unknownCmd := r.diag.unknownCmd + 1 }
          ret := .none })

/-- R74: a read-variable response delivers payload byte 0 as the identifier and bytes 1 to 4 as an unsigned little-endian
32-bit value; bytes 5 to 9 are ignored. -/
def Obligations.ReadVariableValueIsLittleEndian : Prop :=
  ∀ (s : State) (command b0 b1 b2 b3 b4 : Byte) (ignored : List Byte), ignored.length = 5 →
    classOf s.cfg command = .varRead → (∀ kp ∈ s.cfg.kinds, kp.respCmd ≠ command) →
    ∃ v : BitVec 32,
      exec (.fcDispatch command (b0 :: b1 :: b2 :: b3 :: b4 :: ignored)) s = .next
        { s with ev := s.ev ++ [.onVariableRead b0 v], ret := .none } ∧
      v = b1.setWidth 32 ||| (b2.setWidth 32 <<< 8) ||| (b3.setWidth 32 <<< 16) ||| (b4.setWidth 32 <<< 24) ∧
      v.toNat = b1.toNat + 2 ^ 8 * b2.toNat + 2 ^ 16 * b3.toNat + 2 ^ 24 * b4.toNat

/-! ### The queue and the worker -/

/-- R140: `CQ_ENQUEUE` appends the frame at the tail, or is refused with no effect when a finite `QDEPTH` is reached. -/
def Obligations.CqEnqueueAppendsTheFrame : Prop :=
  ∀ (s : State) (f : List Byte), f.length = 14 →
    opSelect s.cfg (.cqEnqueue f) = some 0x20#8 ∧
    ((∃ d, s.cfg.qDepth = some d ∧ s.cqItems.length ≥ d) →
      exec (.cqEnqueue f) s = .next { s with ret := .ok false }) ∧
    ((∀ d, s.cfg.qDepth = some d → s.cqItems.length < d) →
      exec (.cqEnqueue f) s = .next { s with cqItems := s.cqItems ++ [f], ret := .ok true })

/-- R141 with R142: a kind's request code goes to `RC_ISSUE`; any other is encoded and queued, or refused with no effect
by a full queue. R4 (d) makes the kind unique. -/
def Obligations.CmdSubmitQueuesOrIssues : Prop :=
  ∀ (s : State) (command : Byte) (payload : List Byte),
    opSelect s.cfg (.cmdSubmit command payload) = some 0x21#8 ∧
    (∀ k kp, (s.cfg.kinds.map KindParams.reqCmd).Nodup → s.cfg.kinds[k]? = some kp → kp.reqCmd = command →
      ∃ t, exec (.rcIssue k payload) s = .next t ∧ exec (.cmdSubmit command payload) s = .next t) ∧
    ((∀ kp ∈ s.cfg.kinds, kp.reqCmd ≠ command) → (∃ d, s.cfg.qDepth = some d ∧ s.cqItems.length ≥ d) →
      exec (.cmdSubmit command payload) s = .next { s with ret := .accepted false }) ∧
    ((∀ kp ∈ s.cfg.kinds, kp.reqCmd ≠ command) → (∀ d, s.cfg.qDepth = some d → s.cqItems.length < d) →
      ∃ e f t, exec (.fcEncode command payload) s = .next e ∧ e.ret = .frame f ∧ exec (.cqEnqueue f) e = .next t ∧
        t.cqItems = s.cqItems ++ [f] ∧ exec (.cmdSubmit command payload) s = .next { t with ret := .accepted true })

/-- R143: an enabled `WK_SERVE` exits when shutdown is requested; else it takes the oldest frame, writes it, notes a count
other than 14 and starts the pacing sleep. (A step that is not enabled does not exist:
`DisabledInternalStepsChangeNothing`.) -/
def Obligations.WkServeExitsOrSendsTheOldestFrame : Prop :=
  ∀ (s : State) (bytesWritten : Nat), s.wkState = .wait →
    opSelect s.cfg (.wkServe bytesWritten) = some 0x22#8 ∧
    (s.ctlStop = true →
      exec (.wkServe bytesWritten) s = .next { s with wkState := .exited, ret := .none }) ∧
    ∀ f rest, s.ctlStop = false → s.tpConnected = true → s.cqItems = f :: rest →
      (bytesWritten = 14 →
        exec (.wkServe bytesWritten) s = .next
          { s with
            cqItems := rest
            tx := s.tx ++ [{ time := s.now, frame := f }]
            wkWakeAt := s.now + s.cfg.paceTicks
            wkState := .sleep
            ret := .none }) ∧
      (bytesWritten ≠ 14 →
        exec (.wkServe bytesWritten) s = .next
          { s with
            cqItems := rest
            tx := s.tx ++ [{ time := s.now, frame := f }]
            diagTrace := s.diagTrace ++ [.shortWrite bytesWritten]
            diag := { s.diag with shortWrite := s.diag.shortWrite + 1 }
            wkWakeAt := s.now + s.cfg.paceTicks
            wkState := .sleep
            ret := .none })

/-- R144: once the time has come, `WK_WAKE` ends the sleep. -/
def Obligations.WkWakeEndsTheSleep : Prop :=
  ∀ s : State, s.wkState = .sleep → s.now ≥ s.wkWakeAt →
    opSelect s.cfg .wkWake = some 0x23#8 ∧ exec .wkWake s = .next { s with wkState := .wait, ret := .none }

/-- R145, R184, R185: the shutdown request and the two connection events each write their one flag. -/
def Obligations.FlagOperationsWriteTheirFlag : Prop :=
  ∀ s : State,
    (opSelect s.cfg .ctlShutdown = some 0x24#8 ∧ exec .ctlShutdown s = .next { s with ctlStop := true, ret := .none }) ∧
    (opSelect s.cfg .tpConnect = some 0x41#8 ∧ exec .tpConnect s = .next { s with tpConnected := true, ret := .none }) ∧
    (opSelect s.cfg .tpDisconnect = some 0x42#8 ∧
      exec .tpDisconnect s = .next { s with tpConnected := false, ret := .none })

/-- A step that is not enabled does not exist (R143, R144, R163, R166). The model's reading: scheduled all the same, it
changes nothing and says so in its result (log 8). -/
def Obligations.DisabledInternalStepsChangeNothing : Prop :=
  ∀ (s : State) (w k : Nat) (status : Byte),
    ((s.wkState ≠ .wait ∨ (s.ctlStop = false ∧ (s.cqItems = [] ∨ s.tpConnected = false))) →
      exec (.wkServe w) s = .next { s with ret := .notEnabled }) ∧
    ((s.wkState ≠ .sleep ∨ s.now < s.wkWakeAt) → exec .wkWake s = .next { s with ret := .notEnabled }) ∧
    (k < s.cfg.kinds.length → rcOf s k = .idle →
      exec (.rcResolve k status) s = .next { s with ret := .notEnabled } ∧
      exec (.rcExpire k) s = .next { s with ret := .notEnabled }) ∧
    ∀ issueTs deadline, k < s.cfg.kinds.length → rcOf s k = .awaiting issueTs deadline → s.now < deadline →
      exec (.rcExpire k) s = .next { s with ret := .notEnabled }

/-- R147: without a connection and without a shutdown request nothing is sent and the queue only grows, whatever operation
but `RESET` is taken; `TP_CONNECT` enables the waiting worker again with the queue as it was. -/
def Obligations.DisconnectionOnlyDelays : Prop :=
  ∀ s : State, s.tpConnected = false → s.ctlStop = false →
    wkServeEnabled s = false ∧
    (∀ (i : Instr) (t : State), i ≠ .reset → exec i s = .next t → t.tx = s.tx ∧ s.cqItems <+: t.cqItems) ∧
    ∃ t, exec .tpConnect s = .next t ∧ t.cqItems = s.cqItems ∧
      (s.wkState = .wait → s.cqItems ≠ [] → wkServeEnabled t = true)

/-- The order half of R150, which the spec derives from R140, R143 and R148: along every run without a `RESET`, the frames
written followed by the frames queued only grow at their end; so frames leave in the order they were enqueued, each
once. -/
def Obligations.FramesLeaveInEnqueueOrder : Prop :=
  ∀ (ops : List Instr) (s t : State), .reset ∉ ops → runOps ops s = some t →
    sentThenQueued s <+: sentThenQueued t ∧ s.tx.map TxRecord.frame <+: t.tx.map TxRecord.frame ∧
    ∀ w u, exec (.wkServe w) t = .next u → sentThenQueued u = sentThenQueued t

/-- R151: after the worker's exit no worker step is enabled, nothing is written and the queue keeps its frames, along every
run without a `RESET`; and `RESET` restarts it. -/
def Obligations.ExitedWorkerNeverStepsAgain : Prop :=
  (∀ (ops : List Instr) (s t : State), s.wkState = .exited → .reset ∉ ops → runOps ops s = some t →
    t.wkState = .exited ∧ wkServeEnabled t = false ∧ wkWakeEnabled t = false ∧ t.tx = s.tx ∧
      s.cqItems <+: t.cqItems) ∧
  ∀ s : State, ∃ t, exec .reset s = .next t ∧ t.wkState = .wait

/-- R152: with a finite `QDEPTH` reached, `CQ_ENQUEUE`, `CMD_SUBMIT` and `RC_ISSUE` are refused with no state change at
all; with an unbounded one an enqueue never is. -/
def Obligations.FullQueueRefuses : Prop :=
  ∀ (s : State) (command : Byte) (payload f : List Byte) (k : Nat), f.length = 14 →
    (∀ d, s.cfg.qDepth = some d → s.cqItems.length ≥ d →
      exec (.cqEnqueue f) s = .next { s with ret := .ok false } ∧
      exec (.cmdSubmit command payload) s = .next { s with ret := .accepted false } ∧
      (k < s.cfg.kinds.length → exec (.rcIssue k payload) s = .next { s with ret := .accepted false })) ∧
    (s.cfg.qDepth = none →
      exec (.cqEnqueue f) s = .next { s with cqItems := s.cqItems ++ [f], ret := .ok true } ∧
      ((∀ kp ∈ s.cfg.kinds, kp.reqCmd ≠ command) →
        ∃ t, exec (.cmdSubmit command payload) s = .next t ∧ t.ret = .accepted true))

/-- The count half of R150, which the spec derives from R140, R143 and R148, under the eager schedule (R52): N frames
enqueued while disconnected, then a connect and N turns of the worker, write exactly those N frames in their order, a
pacing interval apart. The schedule stands in for R52's fairness, which no step can show (log 16). -/
def Obligations.QueuedFramesAllLeavePaced : Prop :=
  ∀ (s : State) (frames : List (List Byte)), s.wkState = .wait → s.ctlStop = false → s.tpConnected = false →
    s.cqItems = [] → s.cfg.qDepth = none → (∀ f ∈ frames, f.length = 14) →
    ∃ t, runOps (frames.map .cqEnqueue ++ .tpConnect ::
        (List.replicate frames.length (workerTurn s.cfg.paceTicks)).flatten) s = some t ∧
      t.tx = s.tx ++ frames.zipIdx.map (fun fi => { time := s.now + fi.2 * s.cfg.paceTicks, frame := fi.1 }) ∧
      t.cqItems = [] ∧ t.wkState = .wait

/-- The bound of R144's corner case and R248, for the schedule of `PACE_TICKS` ticks, a `WK_WAKE` and a `WK_SERVE`: from
every state of the pacing invariant with a shutdown requested, this schedule ends in `EXITED` and writes no frame. That
the worker takes its two steps at all is R52's fairness, which the schedule stands in for (log 16). From `WAIT` and
`EXITED` the `WK_WAKE`, and from `EXITED` the `WK_SERVE`, is not enabled and changes nothing (log 8). -/
def Obligations.ShutdownCompletesWithinOnePacingInterval : Prop :=
  ∀ (s : State) (w : Nat), PacingInv s → s.ctlStop = true →
    ∃ t, runOps (List.replicate s.cfg.paceTicks .tick ++ [.wkWake, .wkServe w]) s = some t ∧
      t.wkState = .exited ∧ t.tx = s.tx ∧ t.cqItems = s.cqItems

/-! ### The response correlator -/

/-- R161 and R162: an accepted `RC_ISSUE` arms the kind's record, encodes and queues the request; a rejected one, for
whatever reason, changes nothing. -/
def Obligations.RcIssueArmsAndQueuesOrIsRejected : Prop :=
  ∀ (s : State) (k : Nat) (kp : KindParams) (payload : List Byte),
    s.cfg.kinds[k]? = some kp → s.rc.length = s.cfg.kinds.length →
    opSelect s.cfg (.rcIssue k payload) = some 0x30#8 ∧
    ((rcOf s k ≠ .idle ∨ s.tpConnected = false ∨ ∃ d, s.cfg.qDepth = some d ∧ s.cqItems.length ≥ d) →
      exec (.rcIssue k payload) s = .next { s with ret := .accepted false }) ∧
    (rcOf s k = .idle → s.tpConnected = true → (∀ d, s.cfg.qDepth = some d → s.cqItems.length < d) →
      ∃ t, exec (.rcIssue k payload) s = .next t ∧
        rcOf t k = .awaiting s.now (s.now + kp.timeoutTicks) ∧ (∀ j, j ≠ k → rcOf t j = rcOf s j) ∧
        t = { s with
          rc := t.rc
          cqItems := s.cqItems ++ [frameOf s.cfg kp.reqCmd payload]
          diagTrace := if payload.length = 10 then s.diagTrace else s.diagTrace ++ [.normalized payload.length]
          diag := if payload.length = 10 then s.diag else { s.diag with normalized := s.diag.normalized + 1 }
          ret := .accepted true })

/-- R163 with R164: a matching frame's status byte, tested in the order of the table, ends the request with one outcome
and clears its record. -/
def Obligations.RcResolveReportsTheStatus : Prop :=
  ∀ (s : State) (k : Nat) (kp : KindParams) (status : Byte) (issueTs deadline : Time),
    s.cfg.kinds[k]? = some kp → rcOf s k = .awaiting issueTs deadline →
    opSelect s.cfg (.rcResolve k status) = some 0x31#8 ∧
    ∃ t, exec (.rcResolve k status) s = .next t ∧
      rcOf t k = .idle ∧ (∀ j, j ≠ k → rcOf t j = rcOf s j) ∧
      t = { s with
        rc := t.rc
        out := s.out ++
          [if status = 0x00#8 then { kind := k, success := true, reason := .ok, code := some status }
            else if status = 0x01#8 then { kind := k, success := false, reason := .deviceFail, code := some status }
            else if status = kp.failCode then
              { kind := k, success := false, reason := .deviceSpecific, code := some status }
            else { kind := k, success := false, reason := .unknownCode, code := some status }]
        ret := .none }

/-- R166: at its deadline a request ends with a timeout outcome and a `TIMEOUT` record, and its record is cleared. -/
def Obligations.RcExpireReportsTheTimeout : Prop :=
  ∀ (s : State) (k : Nat) (issueTs deadline : Time),
    k < s.cfg.kinds.length → rcOf s k = .awaiting issueTs deadline → s.now ≥ deadline →
    opSelect s.cfg (.rcExpire k) = some 0x32#8 ∧
    ∃ t, exec (.rcExpire k) s = .next t ∧
      rcOf t k = .idle ∧ (∀ j, j ≠ k → rcOf t j = rcOf s j) ∧
      t = { s with
        rc := t.rc
        out := s.out ++ [{ kind := k, success := false, reason := .timeout, code := none }]
        diagTrace := s.diagTrace ++ [.timeout k]
        ret := .none }

/-- R186: `TICK` advances the time by one, then ends every request whose deadline has come, in ascending order of kind,
and touches nothing else. -/
def Obligations.TickAdvancesTimeAndExpiresRequests : Prop :=
  ∀ s : State, s.rc.length = s.cfg.kinds.length →
    let due := (List.range s.cfg.kinds.length).filter (rcExpireEnabled { s with now := s.now + 1 })
    opSelect s.cfg .tick = some 0x43#8 ∧
    (∀ k, k ∈ due ↔ ∃ issueTs deadline, rcOf s k = .awaiting issueTs deadline ∧ s.now + 1 ≥ deadline) ∧
    ∃ t, exec .tick s = .next t ∧
      (∀ k, rcOf t k = if k ∈ due then .idle else rcOf s k) ∧
      t = { s with
        now := s.now + 1
        rc := t.rc
        out := s.out ++ due.map (fun k => { kind := k, success := false, reason := .timeout, code := none })
        diagTrace := s.diagTrace ++ due.map .timeout
        ret := .none }

/-- R166's corner case with R167: an accepted request of kind `k` that nothing of the inbound path ends is outstanding for
exactly `TIMEOUT_TICKS` ticks. Whatever else is taken after the issue, `RESET` apart (the caller's, the worker's and the
transport's operations, arrivals that report no outcome of kind `k`), its record and its deadline stand while fewer ticks
than that have passed; the tick that makes up the number reports one outcome of the kind, a timeout, and frees it. -/
def Obligations.UnansweredRequestTimesOut : Prop :=
  ∀ (s : State) (k : Nat) (kp : KindParams) (payload : List Byte),
    s.cfg.kinds[k]? = some kp → s.rc.length = s.cfg.kinds.length → 1 ≤ kp.timeoutTicks →
    rcOf s k = .idle → s.tpConnected = true → (∀ d, s.cfg.qDepth = some d → s.cqItems.length < d) →
    ∃ t, exec (.rcIssue k payload) s = .next t ∧
      rcOf t k = .awaiting s.now (s.now + kp.timeoutTicks) ∧ outcomesOf t k = outcomesOf s k ∧
      ∀ ops : List Instr, (∀ i ∈ ops, i.wf s.cfg = true ∧ i ≠ .reset) →
        (∀ (n : Nat) (i : Instr) (v w : State), ops[n]? = some i → agentOf i = .inboundPath →
          runOps (ops.take n) t = some v → exec i v = .next w → outcomesOf w k = outcomesOf v k) →
        ∃ u, runOps ops t = some u ∧
          (ops.count .tick < kp.timeoutTicks →
            rcOf u k = .awaiting s.now (s.now + kp.timeoutTicks) ∧ outcomesOf u k = outcomesOf s k) ∧
          (ops.count .tick + 1 = kp.timeoutTicks → ∃ v, exec .tick u = .next v ∧ rcOf v k = .idle ∧
            v.out.filter (fun o => o.kind == k) = u.out.filter (fun o => o.kind == k) ++
              [{ kind := k, success := false, reason := .timeout, code := none }])

/-- R169 and R172, which the spec derives from R163, R166 and R21: no operation but `RESET` reports more than one outcome
of a kind; it reports one exactly when it ends the kind's outstanding request, and only a response, a dispatch or the
timer does; so between one issue and the next there is at most one outcome. Rows of frames as in log 5. -/
def Obligations.AtMostOneResolutionPerRequest : Prop :=
  (∀ (i : Instr) (s t : State) (k : Nat), i ≠ .reset → exec i s = .next t →
    (rcOf s k = .idle → outcomesOf t k = outcomesOf s k) ∧
    (rcOf s k ≠ .idle →
      (rcOf t k = rcOf s k ∧ outcomesOf t k = outcomesOf s k) ∨
      (rcOf t k = .idle ∧ outcomesOf t k = outcomesOf s k + 1 ∧
        (agentOf i = .inboundPath ∨ agentOf i = .timer)))) ∧
  ∀ (ops : List Instr) (s t : State) (k : Nat),
    (∀ i ∈ ops, i ≠ .reset ∧ (∀ j p, i ≠ .rcIssue j p) ∧ ∀ c p, i ≠ .cmdSubmit c p) → runOps ops s = some t →
      outcomesOf t k ≤ outcomesOf s k + 1 ∧ (rcOf s k = .idle → outcomesOf t k = outcomesOf s k)

/-! ### The inbound path -/

/-- R180 with R181: `TP_RX` is a push, a record of what did not fit, then extraction and dispatch until there is no frame,
as one step. -/
def Obligations.TpRxPushesThenDrains : Prop :=
  ∀ (s : State) (bytes : List Byte), s.rb.allocated = true → RingInv s.cfg.cw s.rb →
    opSelect s.cfg (.tpRx bytes) = some 0x40#8 ∧
    ∃ (n : Nat) (u drained : State), exec (.rbPush bytes) s = .next u ∧ u.ret = .count n ∧
      DrainsTo
        (if n < bytes.length then
          { u with
            diagTrace := u.diagTrace ++ [.rxOverflow (bytes.length - n)]
            diag := { u.diag with rxDropped := u.diag.rxDropped + (bytes.length - n) } }
        else u)
        drained ∧
      exec (.tpRx bytes) s = .next { drained with ret := .none }

/-- R190, which the spec derives from R180 and R129: at most 13 bytes stay buffered after a `TP_RX`, so a delivery of at
most `rb.cap - 13` bytes that follows one never overflows. -/
def Obligations.TpRxLeavesAtMostThirteenBytes : Prop :=
  ∀ (s : State) (bytes : List Byte), s.rb.allocated = true → RingInv s.cfg.cw s.rb →
    ∃ t, exec (.tpRx bytes) s = .next t ∧ (content t.cfg.cw t.rb).length ≤ 13 ∧
      ∀ more : List Byte, more.length ≤ t.rb.cap - 13 →
        ∃ u, exec (.tpRx more) t = .next u ∧ u.diag.rxDropped = t.diag.rxDropped

/-- R183, which the spec derives from R129 and R109: a delivery that fits leaves the same state, traces included, whether
it comes in one part or two. -/
def Obligations.StreamSplittingIsUnobservable : Prop :=
  ∀ (s : State) (a b : List Byte), s.rb.allocated = true → RingInv s.cfg.cw s.rb →
    (content s.cfg.cw s.rb).length + a.length + b.length ≤ s.rb.cap →
    ∃ t, runOps [.tpRx a, .tpRx b] s = some t ∧ exec (.tpRx (a ++ b)) s = .next t

/-- The five frame rows are the arrival of their 14 bytes, in index order (R70, R74 to R77, R45 (b), R180). That the row of
a frame means its arrival is the model's reading (log 5). -/
def Obligations.FrameRowsAreDeliveries : Prop :=
  ∀ (s : State) (command a b : Byte) (v : BitVec 32) (p : List Byte),
    (p.length = 10 → exec (.frame command p) s = exec (.tpRx (frameOf s.cfg command p)) s) ∧
    (p.length = 5 →
      exec (.frameVarRead a v p) s =
        exec (.tpRx (frameOf s.cfg 0x10#8
          ([a, v.extractLsb' 0 8, v.extractLsb' 8 8, v.extractLsb' 16 8, v.extractLsb' 24 8] ++ p))) s) ∧
    (p.length = 8 → exec (.frameStatus command a b p) s = exec (.tpRx (frameOf s.cfg command ([a, b] ++ p))) s) ∧
    (p.length = 9 → exec (.frameMode command a p) s = exec (.tpRx (frameOf s.cfg command ([a] ++ p))) s) ∧
    (p.length = 9 → exec (.frameResponse command a p) s = exec (.tpRx (frameOf s.cfg command ([a] ++ p))) s)

/-- What a frame that arrives at an empty ring delivers, row by row (R70, R74, R75, R76, R81, R132): the event of its
class, or the record of an unknown command. That the row means the arrival is the model's reading (log 5). -/
def Obligations.ArrivingFramesDeliverTheirFields : Prop :=
  ∀ (s : State) (i : Instr), s.rb.allocated = true → RingInv s.cfg.cw s.rb → 14 ≤ s.rb.cap →
    content s.cfg.cw s.rb = [] → i.wf s.cfg = true →
    let arrived := passedThrough s (pushedBytes s.cfg i)
    (∀ command p, i = .frame command p → classOf s.cfg command = .unclassified →
      exec i s = .next
        { arrived with
          diagTrace := s.diagTrace ++ [.unknownCommand command]
          diag := { s.diag with unknownCmd := s.diag.unknownCmd + 1 }
          ret := .none }) ∧
    (∀ command p, i = .frame command p → classOf s.cfg command = .varRead →
      exec i s = .next
        { arrived with ev := s.ev ++ [.onVariableRead (p.getD 0 0x00#8) (readValue p)], ret := .none }) ∧
    (∀ identifier value rest, i = .frameVarRead identifier value rest →
      exec i s = .next { arrived with ev := s.ev ++ [.onVariableRead identifier value], ret := .none }) ∧
    (∀ command status state rest, i = .frameStatus command status state rest →
      exec i s = .next { arrived with ev := s.ev ++ [.onStatusReport command status state], ret := .none }) ∧
    ∀ command mode rest, i = .frameMode command mode rest →
      exec i s = .next { arrived with ev := s.ev ++ [.onModeReport mode], ret := .none }

/-- What a correlated response without a class does when it arrives at an empty ring (R77, R132, R163, R168): it ends the
outstanding request by its status byte; with none outstanding it is logged and discarded. That the row means the arrival
is the model's reading (log 5). -/
def Obligations.ArrivingResponseResolvesItsKind : Prop :=
  ∀ (s : State) (command status : Byte) (rest : List Byte) (k : Nat) (kp : KindParams),
    s.rb.allocated = true → RingInv s.cfg.cw s.rb → 14 ≤ s.rb.cap → content s.cfg.cw s.rb = [] →
    rest.length = 9 → (s.cfg.kinds.map KindParams.respCmd).Nodup → s.cfg.kinds[k]? = some kp →
    kp.respCmd = command → classOf s.cfg command = .unclassified →
    let arrived := passedThrough s (frameOf s.cfg command (status :: rest))
    (rcOf s k ≠ .idle →
      ∃ t, exec (.frameResponse command status rest) s = .next t ∧
        exec (.rcResolve k status) arrived = .next t ∧ rcOf t k = .idle ∧ outcomesOf t k = outcomesOf s k + 1) ∧
    (rcOf s k = .idle →
      exec (.frameResponse command status rest) s = .next
        { arrived with
          diagTrace := s.diagTrace ++ [.unsolicitedResponse k command]
          diag := { s.diag with unsolicited := s.diag.unsolicited + 1 }
          ret := .none })
end

