-- ==== Sys2Proof/Laws/Arith.lean ====
section
/-! SUPPORT. Modular arithmetic of the cursors, powers of two, and the physical index (R40, R50, R57, G1, G2). -/

namespace Sys2Proof.Machine

/-! ### Powers of two -/

/-- G1: the mask test says "power of two". -/
theorem isPow2_iff (c : Nat) : isPow2 c = true ↔ ∃ k, c = 2 ^ k := by
  constructor
  · intro h
    simp only [isPow2, Bool.and_eq_true, decide_eq_true_eq, beq_iff_eq] at h
    obtain ⟨h1, h2⟩ := h
    by_contra hne
    have hlo : 2 ^ c.log2 ≤ c := Nat.log2_self_le (by omega)
    have hhi : c < 2 ^ (c.log2 + 1) := Nat.lt_log2_self
    have hlt : 2 ^ c.log2 < c := lt_of_le_of_ne hlo fun e => hne ⟨c.log2, e.symm⟩
    rw [pow_succ] at hhi
    have top : ∀ x, 2 ^ c.log2 ≤ x → x ≤ c → x.testBit c.log2 = true := by
      intro x hx hxc
      have : x / 2 ^ c.log2 = 1 := by rw [Nat.div_eq_iff (by positivity)]; omega
      simp [Nat.testBit_eq_decide_div_mod_eq, this]
    have := Nat.testBit_and c (c - 1) c.log2
    rw [h2, top c hlo (le_refl _), top (c - 1) (by omega) (by omega)] at this
    simp at this
  · rintro ⟨k, rfl⟩
    have : 1 ≤ 2 ^ k := Nat.one_le_two_pow
    simp [isPow2, Nat.and_two_pow_sub_one_eq_mod, this]

/-- A power of two is positive. -/
theorem isPow2_pos {c : Nat} (h : isPow2 c = true) : 0 < c := by
  obtain ⟨k, rfl⟩ := (isPow2_iff c).1 h
  positivity

/-- G2: a power of two below `2^n` divides it. -/
theorem isPow2_dvd {c n : Nat} (h : isPow2 c = true) (hlt : c < 2 ^ n) : c ∣ 2 ^ n := by
  obtain ⟨k, rfl⟩ := (isPow2_iff c).1 h
  exact pow_dvd_pow 2 (Nat.pow_lt_pow_iff_right (by omega)|>.1 hlt).le

/-! ### The physical index -/

/-- R40: the masked form is the remainder. -/
theorem physIndex_eq_mod {cap : Nat} (h : isPow2 cap = true) (c : Nat) : physIndex cap c = c % cap := by
  obtain ⟨k, rfl⟩ := (isPow2_iff cap).1 h
  exact Nat.and_two_pow_sub_one_eq_mod c k

/-- An index is inside the capacity (R49). -/
theorem physIndex_lt {cap : Nat} (h : isPow2 cap = true) (c : Nat) : physIndex cap c < cap := by
  rw [physIndex_eq_mod h]
  exact Nat.mod_lt _ (isPow2_pos h)

/-- R57: the index sequence goes on across a cursor's wrap. -/
theorem physIndex_addW {cap cw : Nat} (h : isPow2 cap = true) (hlt : cap < 2 ^ cw) (c i : Nat) :
    physIndex cap (addW cw c i) = (c + i) % cap := by
  rw [physIndex_eq_mod h, addW, truncW, Nat.mod_mod_of_dvd _ (isPow2_dvd h hlt)]

/-- Different offsets below the capacity have different indices. -/
theorem index_injective {cap a i j : Nat} (hi : i < cap) (hj : j < cap) (h : (a + i) % cap = (a + j) % cap) :
    i = j := by
  have := Nat.ModEq.add_left_cancel' a (show a + i ≡ a + j [MOD cap] from h)
  exact Nat.ModEq.eq_of_lt_of_lt this hi hj

/-! ### Cursor arithmetic -/

theorem addW_lt (n a b : Nat) : addW n a b < 2 ^ n := Nat.mod_lt _ (by positivity)

theorem subW_lt (n a b : Nat) : subW n a b < 2 ^ n := Nat.mod_lt _ (by positivity)

theorem addW_zero {n a : Nat} (h : a < 2 ^ n) : addW n a 0 = a := Nat.mod_eq_of_lt h

/-- Two additions in a row are one. -/
theorem addW_addW (n a b c : Nat) : addW n (addW n a b) c = addW n a (b + c) := by
  simp [addW, truncW, Nat.add_assoc]

/-- What a difference is added to gives what it was taken from. -/
theorem addW_subW {n a b : Nat} (ha : a < 2 ^ n) (hb : b < 2 ^ n) : addW n b (subW n a b) = a := by
  simp only [addW, subW, truncW, Nat.mod_eq_of_lt hb]
  have e : b + (a + (2 ^ n - b)) = a + 2 ^ n := by omega
  rw [Nat.add_mod_mod, e, Nat.add_mod_right, Nat.mod_eq_of_lt ha]

/-- The difference is the only number below `2^n` that leads back. -/
theorem subW_addW {n b d : Nat} (hd : d < 2 ^ n) : subW n (addW n b d) b = d := by
  simp only [addW, subW, truncW]
  have hb := Nat.mod_lt b (show 2 ^ n > 0 by positivity)
  have h : (b + d) % 2 ^ n + (2 ^ n - b % 2 ^ n) ≡ d [MOD 2 ^ n] := by
    have h1 : (b + d) % 2 ^ n ≡ b % 2 ^ n + d [MOD 2 ^ n] := by simp [Nat.ModEq]
    refine (h1.add_right _).trans ?_
    have e : b % 2 ^ n + d + (2 ^ n - b % 2 ^ n) = d + 2 ^ n := by omega
    rw [e]
    simp [Nat.ModEq]
  rw [h, Nat.mod_eq_of_lt hd]

/-- Moving the read cursor up takes as much off the difference. -/
theorem subW_sub_right {n a b d : Nat} (ha : a < 2 ^ n) (hb : b < 2 ^ n) (hd : d ≤ subW n a b) :
    subW n a (addW n b d) = subW n a b - d := by
  have hlt := subW_lt n a b
  calc
    subW n a (addW n b d) = subW n (addW n (addW n b d) (subW n a b - d)) (addW n b d) := by
      rw [addW_addW, Nat.add_sub_cancel' hd, addW_subW ha hb]
    _ = _ := subW_addW (by omega)

/-- Moving the write cursor up adds as much to the difference. -/
theorem subW_add_left {n a b d : Nat} (ha : a < 2 ^ n) (hb : b < 2 ^ n) (hd : subW n a b + d < 2 ^ n) :
    subW n (addW n a d) b = subW n a b + d := by
  calc
    subW n (addW n a d) b = subW n (addW n b (subW n a b + d)) b := by
      rw [← addW_addW, addW_subW ha hb]
    _ = _ := subW_addW hd

/-! ### Operand bytes -/

@[simp] theorem leBytes_length (w n : Nat) : (leBytes w n).length = w := by
  induction w generalizing n with
  | zero => rfl
  | succ w ih => simp [leBytes, ih]

/-- Reading back the bytes of a natural that fits. -/
theorem leNat_leBytes (w n : Nat) (h : n < 256 ^ w) : leNat (leBytes w n) = n := by
  induction w generalizing n with
  | zero => simp [leBytes, leNat] at *; omega
  | succ w ih =>
    rw [pow_succ] at h
    simp only [leBytes, leNat, BitVec.toNat_ofNat]
    rw [ih (n / 256) (Nat.div_lt_of_lt_mul (by omega))]
    omega

/-- The bytes of a natural of no fixed width read back. -/
theorem leNat_natBytes (n : Nat) : leNat (natBytes n) = n := by
  refine leNat_leBytes _ _ ?_
  have h : n < 2 ^ (n.log2 + 1) := Nat.lt_log2_self
  calc
    n < 2 ^ (n.log2 + 1) := h
    _ ≤ 2 ^ (8 * (n.log2 / 8 + 1)) := Nat.pow_le_pow_right (by omega) (by omega)
    _ = 256 ^ (n.log2 / 8 + 1) := by rw [pow_mul]; norm_num

/-- A `CW`-bit operand fits its bytes. -/
theorem leNat_operand {cw v : Nat} (h : v < 2 ^ cw) : leNat (leBytes (operandBytes cw) v) = v := by
  refine leNat_leBytes _ _ (lt_of_lt_of_le h ?_)
  calc
    2 ^ cw ≤ 2 ^ (8 * operandBytes cw) := Nat.pow_le_pow_right (by omega) (by unfold operandBytes; omega)
    _ = 256 ^ operandBytes cw := by rw [pow_mul]; norm_num

end Sys2Proof.Machine
end

