-- ==== Sys2Proof/Laws/Memory.lean ====
section
/-! SUPPORT. The ring storage: a read after a write, the canonical form, the range of the indices. -/

namespace Sys2Proof.Machine

@[simp] theorem memory_read_nil (i : Nat) : Memory.read [] i = none := rfl

/-- Reading the cell just written gives the byte written. -/
theorem memory_read_write_same (m : Memory) (i : Nat) (v : Byte) : (m.write i v).read i = some v := by
  induction m with
  | nil => simp [Memory.write, Memory.read]
  | cons c m ih =>
    obtain ⟨j, b⟩ := c
    unfold Memory.write
    split
    · simp [Memory.read]
    · split
      · simp [Memory.read]
      · next h => simp [Memory.read, h, ih]

/-- A write leaves every other cell alone. -/
theorem memory_read_write_ne (m : Memory) {i j : Nat} (v : Byte) (h : j ≠ i) :
    (m.write i v).read j = m.read j := by
  induction m with
  | nil => simp [Memory.write, Memory.read, h]
  | cons c m ih =>
    obtain ⟨l, b⟩ := c
    unfold Memory.write
    split
    · simp [Memory.read, h]
    · split
      · next e => subst e; simp [Memory.read, h]
      · simp only [Memory.read, ih]

/-- Every cell after a write: the byte written there, the old cell elsewhere. -/
theorem memory_read_write (m : Memory) (i j : Nat) (v : Byte) :
    (m.write i v).read j = if j = i then some v else m.read j := by
  split
  · next h => subst h; exact memory_read_write_same m j v
  · next h => exact memory_read_write_ne m v h

/-- A written cell's entry is the new one or an old one. -/
theorem memory_mem_write (m : Memory) (i : Nat) (v : Byte) :
    ∀ c ∈ m.write i v, c = (i, v) ∨ c ∈ m := by
  induction m with
  | nil => simp [Memory.write]
  | cons d m ih =>
    obtain ⟨j, b⟩ := d
    unfold Memory.write
    intro c hc
    split at hc
    · simpa using hc
    · split at hc
      · rcases List.mem_cons.1 hc with h | h
        · exact .inl h
        · exact .inr (List.mem_cons_of_mem _ h)
      · rcases List.mem_cons.1 hc with h | h
        · exact .inr (h ▸ List.mem_cons_self)
        · rcases ih c h with h | h
          · exact .inl h
          · exact .inr (List.mem_cons_of_mem _ h)

/-- The canonical form, as a fact about the entries. -/
theorem memory_wf_cons {j : Nat} {b : Byte} {m : Memory} :
    Memory.wf ((j, b) :: m) = true ↔ (∀ c ∈ m, j < c.1) ∧ m.wf = true := by
  simp [Memory.wf]

/-- A write keeps the canonical form. -/
theorem memory_write_wf (m : Memory) (i : Nat) (v : Byte) (h : m.wf = true) : (m.write i v).wf = true := by
  induction m with
  | nil => simp [Memory.write, Memory.wf]
  | cons d m ih =>
    obtain ⟨j, b⟩ := d
    obtain ⟨hj, hm⟩ := memory_wf_cons.1 h
    unfold Memory.write
    split
    · next hlt =>
      refine memory_wf_cons.2 ⟨fun c hc => ?_, h⟩
      rcases List.mem_cons.1 hc with rfl | hc
      · exact hlt
      · exact hlt.trans (hj c hc)
    · split
      · next e => subst e; exact memory_wf_cons.2 ⟨hj, hm⟩
      · next hlt hne =>
        refine memory_wf_cons.2 ⟨fun c hc => ?_, ih hm⟩
        rcases memory_mem_write m i v c hc with rfl | hc
        · exact Nat.lt_of_le_of_ne (Nat.le_of_not_lt hlt) (Ne.symm hne)
        · exact hj c hc

/-- A write below a bound keeps every index below it. -/
theorem memory_write_lt {m : Memory} {i n : Nat} (v : Byte) (hi : i < n) (h : ∀ c ∈ m, c.1 < n) :
    ∀ c ∈ m.write i v, c.1 < n := by
  intro c hc
  rcases memory_mem_write m i v c hc with rfl | hc
  · exact hi
  · exact h c hc

/-- Two storages in canonical form that read alike are the same data. -/
theorem memory_ext {m m' : Memory} (h : m.wf = true) (h' : m'.wf = true) (hr : ∀ i, m.read i = m'.read i) :
    m = m' := by
  have below : ∀ {j : Nat} {m : Memory}, (∀ c ∈ m, j < c.1) → m.read j = none := by
    intro j m hj
    induction m with
    | nil => rfl
    | cons c m ih =>
      have := hj c List.mem_cons_self
      rw [Memory.read, if_neg (Nat.ne_of_lt this)]
      exact ih fun d hd => hj d (List.mem_cons_of_mem _ hd)
  induction m generalizing m' with
  | nil =>
    cases m' with
    | nil => rfl
    | cons c m' => simpa [Memory.read] using hr c.1
  | cons c m ih =>
    obtain ⟨j, b⟩ := c
    cases m' with
    | nil => simpa [Memory.read] using hr j
    | cons c' m' =>
      obtain ⟨j', b'⟩ := c'
      obtain ⟨hj, hm⟩ := memory_wf_cons.1 h
      obtain ⟨hj', hm'⟩ := memory_wf_cons.1 h'
      have hjj : j = j' := by
        rcases Nat.lt_trichotomy j j' with hlt | heq | hgt
        · have := hr j
          rw [Memory.read, if_pos rfl, Memory.read, if_neg (Nat.ne_of_lt hlt),
            below fun c hc => hlt.trans (hj' c hc)] at this
          exact absurd this (by simp)
        · exact heq
        · have := hr j'
          rw [Memory.read, if_neg (Nat.ne_of_lt hgt), below (fun c hc => hgt.trans (hj c hc)), Memory.read,
            if_pos rfl] at this
          exact absurd this (by simp)
      subst hjj
      have hb : b = b' := by simpa [Memory.read] using hr j
      subst hb
      congr 1
      refine ih hm hm' fun i => ?_
      have hi := hr i
      by_cases e : i = j
      · subst e; rw [below hj, below hj']
      · simpa [Memory.read, e] using hi

end Sys2Proof.Machine
end

