-- ==== Sys2Proof/Laws/Ring.lean ====
section
/-! SUPPORT. The ring buffer as a sequence: what each ring operation does to the content, and that each keeps the ring
invariant (R42, R108). -/

namespace Sys2Proof.Machine

/-! ### Slices and content -/

@[simp] theorem slice_length (cw : Nat) (rb : Ring) (a n : Nat) : (slice cw rb a n).length = n := by simp [slice]

theorem slice_getElem? (cw : Nat) (rb : Ring) (a n i : Nat) :
    (slice cw rb a n)[i]? = if i < n then some (byteAtOffset cw rb (a + i)) else none := by
  simp only [slice, List.getElem?_map]
  split
  · next h => rw [List.getElem?_range h]; rfl
  · next h => rw [List.getElem?_eq_none (by simpa using h)]; rfl

@[simp] theorem content_length (cw : Nat) (rb : Ring) : (content cw rb).length = cursorGap cw rb := by simp [content]

theorem content_getElem? (cw : Nat) (rb : Ring) (i : Nat) :
    (content cw rb)[i]? = if i < cursorGap cw rb then some (byteAtOffset cw rb i) else none := by
  simp [content, slice_getElem?]

/-- A slice inside the content is that part of it (R42). -/
theorem slice_eq_content {cw : Nat} {rb : Ring} {a n : Nat} (h : a + n ≤ cursorGap cw rb) :
    slice cw rb a n = ((content cw rb).drop a).take n := by
  refine List.ext_getElem? fun i => ?_
  rw [slice_getElem?]
  by_cases hi : i < n
  · rw [if_pos hi, List.getElem?_take_of_lt hi, List.getElem?_drop, content_getElem?, if_pos (by omega)]
  · rw [if_neg hi, List.getElem?_eq_none]
    simp; omega

/-! ### Discarding -/

/-- Moving the read cursor over `n` bytes of the content drops them (R103, R105). -/
theorem discard_content {cw : Nat} {rb : Ring} {n : Nat} (hw : rb.wr < 2 ^ cw) (hr : rb.rd < 2 ^ cw)
    (hn : n ≤ cursorGap cw rb) :
    cursorGap cw { rb with rd := addW cw rb.rd n } = cursorGap cw rb - n ∧
      content cw { rb with rd := addW cw rb.rd n } = (content cw rb).drop n := by
  have hg : cursorGap cw { rb with rd := addW cw rb.rd n } = cursorGap cw rb - n := subW_sub_right hw hr hn
  refine ⟨hg, List.ext_getElem? fun i => ?_⟩
  rw [List.getElem?_drop, content_getElem?, content_getElem?, hg]
  have hb : byteAtOffset cw { rb with rd := addW cw rb.rd n } i = byteAtOffset cw rb (n + i) := by
    simp only [byteAtOffset, offsetIndex, addW_addW]
  rw [hb]
  by_cases hi : i < cursorGap cw rb - n
  · rw [if_pos hi, if_pos (by omega)]
  · rw [if_neg hi, if_neg (by omega)]

/-- Moving the read cursor over part of the content keeps the ring invariant. -/
theorem discard_ringInv {cw : Nat} {rb : Ring} {n : Nat} (h : RingInv cw rb) (hn : n ≤ cursorGap cw rb) :
    RingInv cw { rb with rd := addW cw rb.rd n } := by
  obtain ⟨hp, hc, hw, hr, hl, hm, hb, hs⟩ := h
  have hg := (discard_content hw hr hn).1
  refine ⟨hp, hc, hw, addW_lt _ _ _, ?_, hm, hb, fun i hi => ?_⟩
  · rw [hg]; exact (Nat.sub_le _ _).trans hl
  · rw [hg] at hi
    have := hs (n + i) (by omega)
    simpa only [offsetIndex, addW_addW] using this

/-! ### Storing -/

/-- A cell that no stored byte lands in is left alone. -/
theorem storeBytes_read_out {cw cap wr : Nat} (bs : List Byte) (i : Nat) (m : Memory) (a : Nat)
    (h : ∀ j < bs.length, a ≠ physIndex cap (addW cw wr (i + j))) :
    (storeBytes cw cap wr bs i m).read a = m.read a := by
  induction bs generalizing i m with
  | nil => rfl
  | cons b bs ih =>
    rw [storeBytes, ih]
    · exact memory_read_write_ne _ _ (by simpa using h 0 (by simp))
    · intro j hj
      have := h (j + 1) (by simpa using hj)
      rwa [show i + (j + 1) = i + 1 + j by omega] at this

/-- The cell of stored byte `j` holds it, provided no more bytes are stored than there are cells. -/
theorem storeBytes_read_in {cw cap wr : Nat} (hp : isPow2 cap = true) (hc : cap < 2 ^ cw) (bs : List Byte)
    (i : Nat) (m : Memory) (j : Nat) (hj : j < bs.length) (hl : bs.length ≤ cap) :
    (storeBytes cw cap wr bs i m).read (physIndex cap (addW cw wr (i + j))) = bs[j]? := by
  induction bs generalizing i m j with
  | nil => simp at hj
  | cons b bs ih =>
    rw [storeBytes]
    cases j with
    | zero =>
      rw [storeBytes_read_out, Nat.add_zero, memory_read_write_same]
      · rfl
      · intro l hl' e
        rw [Nat.add_zero, physIndex_addW hp hc, physIndex_addW hp hc,
          show wr + (i + 1 + l) = wr + i + (1 + l) by omega] at e
        have := index_injective (i := 0) (isPow2_pos hp) (by simp at hl; omega) e
        omega
    | succ j =>
      have := ih (i + 1) (m.write (physIndex cap (addW cw wr i)) b) j (by simpa using hj)
        (by simp at hl; omega)
      rw [show i + (j + 1) = i + 1 + j by omega, this]
      rfl

theorem storeBytes_wf {cw cap wr : Nat} (bs : List Byte) (i : Nat) (m : Memory) (h : m.wf = true) :
    (storeBytes cw cap wr bs i m).wf = true := by
  induction bs generalizing i m with
  | nil => exact h
  | cons b bs ih => exact ih _ _ (memory_write_wf _ _ _ h)

theorem storeBytes_lt {cw cap wr : Nat} (hp : isPow2 cap = true) (bs : List Byte) (i : Nat) (m : Memory)
    (h : ∀ c ∈ m, c.1 < cap) : ∀ c ∈ storeBytes cw cap wr bs i m, c.1 < cap := by
  induction bs generalizing i m with
  | nil => exact h
  | cons b bs ih => exact ih _ _ (memory_write_lt _ (physIndex_lt hp _) h)

/-- Storing two sequences one after the other is storing their concatenation. -/
theorem storeBytes_append {cw cap wr : Nat} (as bs : List Byte) (i : Nat) (m : Memory) :
    storeBytes cw cap wr (as ++ bs) i m = storeBytes cw cap wr bs (i + as.length) (storeBytes cw cap wr as i m) := by
  induction as generalizing i m with
  | nil => rfl
  | cons a as ih =>
    simp only [List.cons_append, storeBytes, ih, List.length_cons]
    rw [show i + 1 + as.length = i + (as.length + 1) by omega]

/-- Where a store begins is a matter of the cursor alone. -/
theorem storeBytes_shift {cw cap wr : Nat} (n : Nat) (bs : List Byte) (i : Nat) (m : Memory) :
    storeBytes cw cap (addW cw wr n) bs i m = storeBytes cw cap wr bs (n + i) m := by
  induction bs generalizing i m with
  | nil => rfl
  | cons b bs ih => simp only [storeBytes, addW_addW, ih, Nat.add_assoc]

/-! ### Pushing -/

/-- The ring after a push on an allocated ring (R102). -/
theorem ringPush_allocated {cw : Nat} {rb : Ring} (bytes : List Byte) (ha : rb.allocated = true) :
    ringPush cw rb bytes =
      ({ rb with
          mem := storeBytes cw rb.cap rb.wr (bytes.take (min bytes.length (ringFree cw rb))) 0 rb.mem
          wr := addW cw rb.wr (min bytes.length (ringFree cw rb)) },
        min bytes.length (ringFree cw rb)) := by
  simp [ringPush, ha]

/-- What a push does on a ring that meets the invariant: the content grows by the part that fits, the ring invariant
holds again, and only the cells of the bytes stored are written (R102, R108). -/
theorem ringPush_spec {cw : Nat} {rb : Ring} (bytes : List Byte) (ha : rb.allocated = true) (h : RingInv cw rb) :
    let n := min bytes.length (rb.cap - cursorGap cw rb)
    let r := ringPush cw rb bytes
    r.2 = n ∧ r.1.allocated = true ∧ r.1.cap = rb.cap ∧ r.1.rd = rb.rd ∧ r.1.wr = addW cw rb.wr n ∧
      cursorGap cw r.1 = cursorGap cw rb + n ∧ content cw r.1 = content cw rb ++ bytes.take n ∧ RingInv cw r.1 ∧
      (∀ j < n, r.1.mem.read (physIndex rb.cap (addW cw rb.wr j)) = bytes[j]?) ∧
      ∀ a, (∀ j < n, a ≠ physIndex rb.cap (addW cw rb.wr j)) → r.1.mem.read a = rb.mem.read a := by
  intro n r
  obtain ⟨hp, hc, hw, hr, hl, hm, hb, hs⟩ := h
  have hn : n ≤ rb.cap - cursorGap cw rb := Nat.min_le_right _ _
  have hnb : n ≤ bytes.length := Nat.min_le_left _ _
  have hlen : (bytes.take n).length = n := by simp [hnb]
  have hr' : r = ({ rb with mem := storeBytes cw rb.cap rb.wr (bytes.take n) 0 rb.mem, wr := addW cw rb.wr n }, n) :=
    ringPush_allocated bytes ha
  have hgap : cursorGap cw r.1 = cursorGap cw rb + n := by
    rw [hr']; exact subW_add_left hw hr (by change cursorGap cw rb + n < _; omega)
  have hin : ∀ j < n, r.1.mem.read (physIndex rb.cap (addW cw rb.wr j)) = bytes[j]? := by
    intro j hj
    have := storeBytes_read_in (wr := rb.wr) hp hc (bytes.take n) 0 rb.mem j (by omega) (by omega)
    rw [hr']
    simpa [List.getElem?_take_of_lt hj] using this
  have hout : ∀ a, (∀ j < n, a ≠ physIndex rb.cap (addW cw rb.wr j)) → r.1.mem.read a = rb.mem.read a := by
    intro a ha'
    rw [hr']
    refine storeBytes_read_out _ _ _ _ fun j hj => ?_
    simpa using ha' j (by omega)
  -- the cell of offset `i`, seen from the write cursor
  have hwr : ∀ i, addW cw rb.rd (cursorGap cw rb + i) = addW cw rb.wr i := by
    intro i
    rw [← addW_addW]
    exact congrArg (addW cw · i) (addW_subW hw hr)
  have hold : ∀ i < cursorGap cw rb, ∀ j < n, offsetIndex cw rb i ≠ physIndex rb.cap (addW cw rb.wr j) := by
    intro i hi j hj e
    rw [offsetIndex, ← hwr, physIndex_addW hp hc, physIndex_addW hp hc] at e
    have := index_injective (by omega) (by omega) e
    omega
  have hoff : ∀ i, offsetIndex cw r.1 i = offsetIndex cw rb i := by intro i; rw [hr']; rfl
  have hread : ∀ i < cursorGap cw rb, r.1.mem.read (offsetIndex cw r.1 i) = rb.mem.read (offsetIndex cw rb i) := by
    intro i hi
    rw [hoff]
    exact hout _ (hold i hi)
  have hnew : ∀ j < n, r.1.mem.read (offsetIndex cw r.1 (cursorGap cw rb + j)) = bytes[j]? := by
    intro j hj
    rw [hoff, offsetIndex, hwr]
    exact hin j hj
  refine ⟨by rw [hr'], by rw [hr']; exact ha, by rw [hr'], by rw [hr'], by rw [hr'], hgap, ?_, ?_, hin, hout⟩
  · refine List.ext_getElem? fun i => ?_
    rw [content_getElem?, hgap]
    by_cases hi : i < cursorGap cw rb
    · rw [if_pos (by omega), List.getElem?_append_left (by simpa using hi), content_getElem?, if_pos hi, byteAtOffset,
        byteAtOffset, Memory.byteAt, Memory.byteAt, hread i hi, hoff]
    · obtain ⟨j, rfl⟩ := Nat.exists_eq_add_of_le (Nat.le_of_not_lt hi)
      rw [List.getElem?_append_right (by simp), content_length, Nat.add_sub_cancel_left]
      by_cases hj : j < n
      · rw [if_pos (by omega), List.getElem?_take_of_lt hj, byteAtOffset, Memory.byteAt, hnew j hj,
          List.getElem?_eq_getElem (by omega)]
        rfl
      · rw [if_neg (by omega), List.getElem?_eq_none (by omega)]
  · refine ⟨by rw [hr']; exact hp, by rw [hr']; exact hc, by rw [hr']; exact addW_lt _ _ _, by rw [hr']; exact hr, ?_,
      by rw [hr']; exact storeBytes_wf _ _ _ hm, by rw [hr']; exact storeBytes_lt hp _ _ _ hb, ?_⟩
    · rw [hgap]
      have : r.1.cap = rb.cap := by rw [hr']
      omega
    · intro i hi
      rw [hgap] at hi
      by_cases hlt : i < cursorGap cw rb
      · rw [hread i hlt]; exact hs i hlt
      · obtain ⟨j, rfl⟩ := Nat.exists_eq_add_of_le (Nat.le_of_not_lt hlt)
        rw [hnew j (by omega), List.getElem?_eq_getElem (by omega)]
        rfl

/-! ### The other ring operations on an allocated ring -/

theorem ringLength_allocated {cw : Nat} {rb : Ring} (ha : rb.allocated = true) :
    ringLength cw rb = (content cw rb).length := by simp [ringLength, ha]

/-- `RB_DISCARD` says how much it dropped (R105). -/
theorem ringDiscard_spec {cw : Nat} {rb : Ring} (len : Nat) (ha : rb.allocated = true) (h : RingInv cw rb) :
    let n := min len (cursorGap cw rb)
    ringDiscard cw rb len = ({ rb with rd := addW cw rb.rd n }, n) ∧
      cursorGap cw (ringDiscard cw rb len).1 = cursorGap cw rb - n ∧
      content cw (ringDiscard cw rb len).1 = (content cw rb).drop n ∧ RingInv cw (ringDiscard cw rb len).1 := by
  intro n
  have hn : n ≤ cursorGap cw rb := Nat.min_le_right _ _
  have e : ringDiscard cw rb len = ({ rb with rd := addW cw rb.rd n }, n) := by simp [ringDiscard, ha, n]
  have hc := discard_content h.2.2.1 h.2.2.2.1 hn
  rw [e]
  exact ⟨rfl, hc.1, hc.2, discard_ringInv h hn⟩

/-- `RB_POP` answers the bytes that `RB_DISCARD` drops (R103). -/
theorem ringPop_eq {cw : Nat} {rb : Ring} (k : Nat) (ha : rb.allocated = true) :
    ringPop cw rb k = ((ringDiscard cw rb k).1, (content cw rb).take k) := by
  have h : slice cw rb 0 (min k (cursorGap cw rb)) = (content cw rb).take k := by
    rw [slice_eq_content (by omega), List.drop_zero]
    rw [← content_length, List.take_eq_take_iff]
    simp
  simp [ringPop, ringDiscard, ha, h]

/-- `RB_PEEK` answers a part of the content, whole or not at all (R104). -/
theorem ringPeek_eq {cw : Nat} {rb : Ring} (start len : Nat) (ha : rb.allocated = true) :
    ringPeek cw rb start len =
      if start + len ≤ (content cw rb).length then ((content cw rb).drop start).take len else [] := by
  simp only [ringPeek, ha, if_true, content_length]
  by_cases h : start + len ≤ cursorGap cw rb
  · rw [if_neg (by omega), if_pos h, slice_eq_content h]
  · rw [if_pos (by omega), if_neg h]

/-- `RB_CHECKSUM`: the sum of a part of the content, 0 for an empty range, no value for a range that leaves it (R106). -/
theorem ringChecksum_eq {cw : Nat} {rb : Ring} (n m : Nat) (ha : rb.allocated = true) :
    ringChecksum cw rb n m =
      if m < n then some 0#16
      else if (content cw rb).length ≤ m then none
      else some (sum16 (((content cw rb).drop n).take (m - n + 1))) := by
  simp only [ringChecksum, ha, if_true, content_length]
  by_cases h : m < n
  · simp [h]
  · by_cases h' : cursorGap cw rb ≤ m
    · simp [h, h']
    · rw [slice_eq_content (by omega)]

/-- A freshly allocated ring is empty (R101). -/
theorem fresh_content (cw cap : Nat) : cursorGap cw (Ring.fresh cap) = 0 ∧ content cw (Ring.fresh cap) = [] := by
  have h : cursorGap cw (Ring.fresh cap) = 0 := by
    have : (2 : Nat) ^ cw % 2 ^ cw = 0 := Nat.mod_self _
    simp [cursorGap, Ring.fresh, subW, truncW]
  exact ⟨h, List.eq_nil_of_length_eq_zero (by simp [h])⟩

/-- A freshly allocated ring meets the invariant. -/
theorem fresh_ringInv {cw cap : Nat} (hp : isPow2 cap = true) (hc : cap < 2 ^ cw) : RingInv cw (Ring.fresh cap) := by
  have hg := (fresh_content cw cap).1
  refine ⟨hp, hc, by simp [Ring.fresh], by simp [Ring.fresh], by rw [hg]; exact Nat.zero_le _, by
    simp [Ring.fresh, Memory.wf], by simp [Ring.fresh], fun i hi => ?_⟩
  rw [hg] at hi
  omega

/-- `RB_ALLOC` either leaves the ring alone or makes it fresh (R101). -/
theorem ringAlloc_cases (maxCap : Nat) (rb : Ring) (c : Nat) :
    (isPow2 c = true ∧ c ≤ maxCap ∧ ringAlloc maxCap rb c = (Ring.fresh c, true)) ∨
      ((isPow2 c = false ∨ maxCap < c) ∧ ringAlloc maxCap rb c = (rb, false)) := by
  by_cases hp : isPow2 c = true
  · have := isPow2_pos hp
    by_cases hc : maxCap < c
    · exact .inr ⟨.inr hc, by simp [ringAlloc, hc]⟩
    · exact .inl ⟨hp, by omega, by simp [ringAlloc, hp, hc]; omega⟩
  · simp only [Bool.not_eq_true] at hp
    exact .inr ⟨.inl hp, by simp [ringAlloc, hp]⟩

end Sys2Proof.Machine
end

