-- ==== Sys2Proof/Laws/State.lean ====
section
/-! SUPPORT. The fields of a state after each shared update, so that no proof unfolds a record update. -/

namespace Sys2Proof.Machine

/-! ### `returning` -/

@[simp] theorem returning_cfg (r : Result) (s : State) : (returning r s).cfg = s.cfg := rfl
@[simp] theorem returning_rb (r : Result) (s : State) : (returning r s).rb = s.rb := rfl
@[simp] theorem returning_cqItems (r : Result) (s : State) : (returning r s).cqItems = s.cqItems := rfl
@[simp] theorem returning_wkState (r : Result) (s : State) : (returning r s).wkState = s.wkState := rfl
@[simp] theorem returning_wkWakeAt (r : Result) (s : State) : (returning r s).wkWakeAt = s.wkWakeAt := rfl
@[simp] theorem returning_ctlStop (r : Result) (s : State) : (returning r s).ctlStop = s.ctlStop := rfl
@[simp] theorem returning_tpConnected (r : Result) (s : State) : (returning r s).tpConnected = s.tpConnected := rfl
@[simp] theorem returning_rc (r : Result) (s : State) : (returning r s).rc = s.rc := rfl
@[simp] theorem returning_now (r : Result) (s : State) : (returning r s).now = s.now := rfl
@[simp] theorem returning_diag (r : Result) (s : State) : (returning r s).diag = s.diag := rfl
@[simp] theorem returning_tx (r : Result) (s : State) : (returning r s).tx = s.tx := rfl
@[simp] theorem returning_ev (r : Result) (s : State) : (returning r s).ev = s.ev := rfl
@[simp] theorem returning_out (r : Result) (s : State) : (returning r s).out = s.out := rfl
@[simp] theorem returning_diagTrace (r : Result) (s : State) : (returning r s).diagTrace = s.diagTrace := rfl
@[simp] theorem returning_sched (r : Result) (s : State) : (returning r s).sched = s.sched := rfl
@[simp] theorem returning_ret (r : Result) (s : State) : (returning r s).ret = r := rfl
@[simp] theorem returning_draws (r : Result) (s : State) : (returning r s).draws = s.draws := rfl

/-! ### `raiseDiag` -/

@[simp] theorem raiseDiag_cfg (r : DiagRecord) (s : State) : (raiseDiag r s).cfg = s.cfg := rfl
@[simp] theorem raiseDiag_rb (r : DiagRecord) (s : State) : (raiseDiag r s).rb = s.rb := rfl
@[simp] theorem raiseDiag_cqItems (r : DiagRecord) (s : State) : (raiseDiag r s).cqItems = s.cqItems := rfl
@[simp] theorem raiseDiag_wkState (r : DiagRecord) (s : State) : (raiseDiag r s).wkState = s.wkState := rfl
@[simp] theorem raiseDiag_wkWakeAt (r : DiagRecord) (s : State) : (raiseDiag r s).wkWakeAt = s.wkWakeAt := rfl
@[simp] theorem raiseDiag_ctlStop (r : DiagRecord) (s : State) : (raiseDiag r s).ctlStop = s.ctlStop := rfl
@[simp] theorem raiseDiag_tpConnected (r : DiagRecord) (s : State) :
    (raiseDiag r s).tpConnected = s.tpConnected := rfl
@[simp] theorem raiseDiag_rc (r : DiagRecord) (s : State) : (raiseDiag r s).rc = s.rc := rfl
@[simp] theorem raiseDiag_now (r : DiagRecord) (s : State) : (raiseDiag r s).now = s.now := rfl
@[simp] theorem raiseDiag_diag (r : DiagRecord) (s : State) : (raiseDiag r s).diag = countDiag r s.diag := rfl
@[simp] theorem raiseDiag_tx (r : DiagRecord) (s : State) : (raiseDiag r s).tx = s.tx := rfl
@[simp] theorem raiseDiag_ev (r : DiagRecord) (s : State) : (raiseDiag r s).ev = s.ev := rfl
@[simp] theorem raiseDiag_out (r : DiagRecord) (s : State) : (raiseDiag r s).out = s.out := rfl
@[simp] theorem raiseDiag_diagTrace (r : DiagRecord) (s : State) :
    (raiseDiag r s).diagTrace = s.diagTrace ++ [r] := rfl
@[simp] theorem raiseDiag_sched (r : DiagRecord) (s : State) : (raiseDiag r s).sched = s.sched := rfl
@[simp] theorem raiseDiag_ret (r : DiagRecord) (s : State) : (raiseDiag r s).ret = s.ret := rfl
@[simp] theorem raiseDiag_draws (r : DiagRecord) (s : State) : (raiseDiag r s).draws = s.draws := rfl

/-! ### `emitEvent` -/

@[simp] theorem emitEvent_cfg (e : Event) (s : State) : (emitEvent e s).cfg = s.cfg := rfl
@[simp] theorem emitEvent_rb (e : Event) (s : State) : (emitEvent e s).rb = s.rb := rfl
@[simp] theorem emitEvent_cqItems (e : Event) (s : State) : (emitEvent e s).cqItems = s.cqItems := rfl
@[simp] theorem emitEvent_wkState (e : Event) (s : State) : (emitEvent e s).wkState = s.wkState := rfl
@[simp] theorem emitEvent_wkWakeAt (e : Event) (s : State) : (emitEvent e s).wkWakeAt = s.wkWakeAt := rfl
@[simp] theorem emitEvent_ctlStop (e : Event) (s : State) : (emitEvent e s).ctlStop = s.ctlStop := rfl
@[simp] theorem emitEvent_tpConnected (e : Event) (s : State) : (emitEvent e s).tpConnected = s.tpConnected := rfl
@[simp] theorem emitEvent_rc (e : Event) (s : State) : (emitEvent e s).rc = s.rc := rfl
@[simp] theorem emitEvent_now (e : Event) (s : State) : (emitEvent e s).now = s.now := rfl
@[simp] theorem emitEvent_diag (e : Event) (s : State) : (emitEvent e s).diag = s.diag := rfl
@[simp] theorem emitEvent_tx (e : Event) (s : State) : (emitEvent e s).tx = s.tx := rfl
@[simp] theorem emitEvent_ev (e : Event) (s : State) : (emitEvent e s).ev = s.ev ++ [e] := rfl
@[simp] theorem emitEvent_out (e : Event) (s : State) : (emitEvent e s).out = s.out := rfl
@[simp] theorem emitEvent_diagTrace (e : Event) (s : State) : (emitEvent e s).diagTrace = s.diagTrace := rfl
@[simp] theorem emitEvent_sched (e : Event) (s : State) : (emitEvent e s).sched = s.sched := rfl
@[simp] theorem emitEvent_ret (e : Event) (s : State) : (emitEvent e s).ret = s.ret := rfl
@[simp] theorem emitEvent_draws (e : Event) (s : State) : (emitEvent e s).draws = s.draws := rfl

/-! ### `resolveRequest` -/

@[simp] theorem resolveRequest_cfg (k : Nat) (why : Reason) (code : Option Byte) (s : State) :
    (resolveRequest k why code s).cfg = s.cfg := rfl
@[simp] theorem resolveRequest_rb (k : Nat) (why : Reason) (code : Option Byte) (s : State) :
    (resolveRequest k why code s).rb = s.rb := rfl
@[simp] theorem resolveRequest_cqItems (k : Nat) (why : Reason) (code : Option Byte) (s : State) :
    (resolveRequest k why code s).cqItems = s.cqItems := rfl
@[simp] theorem resolveRequest_wkState (k : Nat) (why : Reason) (code : Option Byte) (s : State) :
    (resolveRequest k why code s).wkState = s.wkState := rfl
@[simp] theorem resolveRequest_wkWakeAt (k : Nat) (why : Reason) (code : Option Byte) (s : State) :
    (resolveRequest k why code s).wkWakeAt = s.wkWakeAt := rfl
@[simp] theorem resolveRequest_ctlStop (k : Nat) (why : Reason) (code : Option Byte) (s : State) :
    (resolveRequest k why code s).ctlStop = s.ctlStop := rfl
@[simp] theorem resolveRequest_tpConnected (k : Nat) (why : Reason) (code : Option Byte) (s : State) :
    (resolveRequest k why code s).tpConnected = s.tpConnected := rfl
@[simp] theorem resolveRequest_rc (k : Nat) (why : Reason) (code : Option Byte) (s : State) :
    (resolveRequest k why code s).rc = s.rc.set k .idle := rfl
@[simp] theorem resolveRequest_now (k : Nat) (why : Reason) (code : Option Byte) (s : State) :
    (resolveRequest k why code s).now = s.now := rfl
@[simp] theorem resolveRequest_diag (k : Nat) (why : Reason) (code : Option Byte) (s : State) :
    (resolveRequest k why code s).diag = s.diag := rfl
@[simp] theorem resolveRequest_tx (k : Nat) (why : Reason) (code : Option Byte) (s : State) :
    (resolveRequest k why code s).tx = s.tx := rfl
@[simp] theorem resolveRequest_ev (k : Nat) (why : Reason) (code : Option Byte) (s : State) :
    (resolveRequest k why code s).ev = s.ev := rfl
@[simp] theorem resolveRequest_out (k : Nat) (why : Reason) (code : Option Byte) (s : State) :
    (resolveRequest k why code s).out = s.out ++ [{ kind := k, success := decide (why = .ok), reason := why, code := code }] := rfl
@[simp] theorem resolveRequest_diagTrace (k : Nat) (why : Reason) (code : Option Byte) (s : State) :
    (resolveRequest k why code s).diagTrace = s.diagTrace := rfl
@[simp] theorem resolveRequest_sched (k : Nat) (why : Reason) (code : Option Byte) (s : State) :
    (resolveRequest k why code s).sched = s.sched := rfl
@[simp] theorem resolveRequest_ret (k : Nat) (why : Reason) (code : Option Byte) (s : State) :
    (resolveRequest k why code s).ret = s.ret := rfl
@[simp] theorem resolveRequest_draws (k : Nat) (why : Reason) (code : Option Byte) (s : State) :
    (resolveRequest k why code s).draws = s.draws := rfl

/-! ### `scheduleFirst` -/

@[simp] theorem scheduleFirst_cfg (t : Transaction) (s : State) : (scheduleFirst t s).cfg = s.cfg := rfl
@[simp] theorem scheduleFirst_rb (t : Transaction) (s : State) : (scheduleFirst t s).rb = s.rb := rfl
@[simp] theorem scheduleFirst_cqItems (t : Transaction) (s : State) : (scheduleFirst t s).cqItems = s.cqItems := rfl
@[simp] theorem scheduleFirst_wkState (t : Transaction) (s : State) : (scheduleFirst t s).wkState = s.wkState := rfl
@[simp] theorem scheduleFirst_wkWakeAt (t : Transaction) (s : State) :
    (scheduleFirst t s).wkWakeAt = s.wkWakeAt := rfl
@[simp] theorem scheduleFirst_ctlStop (t : Transaction) (s : State) : (scheduleFirst t s).ctlStop = s.ctlStop := rfl
@[simp] theorem scheduleFirst_tpConnected (t : Transaction) (s : State) :
    (scheduleFirst t s).tpConnected = s.tpConnected := rfl
@[simp] theorem scheduleFirst_rc (t : Transaction) (s : State) : (scheduleFirst t s).rc = s.rc := rfl
@[simp] theorem scheduleFirst_now (t : Transaction) (s : State) : (scheduleFirst t s).now = s.now := rfl
@[simp] theorem scheduleFirst_diag (t : Transaction) (s : State) : (scheduleFirst t s).diag = s.diag := rfl
@[simp] theorem scheduleFirst_tx (t : Transaction) (s : State) : (scheduleFirst t s).tx = s.tx := rfl
@[simp] theorem scheduleFirst_ev (t : Transaction) (s : State) : (scheduleFirst t s).ev = s.ev := rfl
@[simp] theorem scheduleFirst_out (t : Transaction) (s : State) : (scheduleFirst t s).out = s.out := rfl
@[simp] theorem scheduleFirst_diagTrace (t : Transaction) (s : State) :
    (scheduleFirst t s).diagTrace = s.diagTrace := rfl
@[simp] theorem scheduleFirst_sched (t : Transaction) (s : State) : (scheduleFirst t s).sched = t :: s.sched := rfl
@[simp] theorem scheduleFirst_ret (t : Transaction) (s : State) : (scheduleFirst t s).ret = s.ret := rfl
@[simp] theorem scheduleFirst_draws (t : Transaction) (s : State) : (scheduleFirst t s).draws = s.draws := rfl

end Sys2Proof.Machine
end

