-- ==== Sys2Proof/Laws/Codec.lean ====
section
/-! SUPPORT. Frames: what `FC_ENCODE` builds is valid (R79), and what one pass of `FC_EXTRACT` does to the content. -/

namespace Sys2Proof.Machine

/-! ### Frames -/

@[simp] theorem normalizePayload_length (q : List Byte) : (normalizePayload q).length = payloadLen := by
  unfold normalizePayload
  split <;> simp <;> omega

/-- A payload of ten bytes is left as it is (R73). -/
theorem normalizePayload_id {q : List Byte} (h : q.length = payloadLen) : normalizePayload q = q := by
  unfold normalizePayload
  rw [if_neg (by omega), List.take_of_length_le (by omega)]

@[simp] theorem frameOf_length (cfg : Config) (c : Byte) (p : List Byte) : (frameOf cfg c p).length = frameLen := by
  simp [frameOf]

/-- The twelve bytes the checksum covers. -/
theorem frameOf_take (cfg : Config) (c : Byte) (p : List Byte) :
    (frameOf cfg c p).take 12 = cfg.header :: c :: normalizePayload p := by
  simp [frameOf]

/-- The bytes of a frame, by index (R70). -/
theorem frameOf_getElem? (cfg : Config) (c : Byte) (p : List Byte) :
    (frameOf cfg c p)[0]? = some cfg.header ∧ (frameOf cfg c p)[1]? = some c ∧
      ((frameOf cfg c p).drop 2).take payloadLen = normalizePayload p ∧
      (frameOf cfg c p)[12]? = some (csum (frameOf cfg c p)) ∧ (frameOf cfg c p)[13]? = some cfg.footer := by
  have hn : (normalizePayload p).length = 10 := normalizePayload_length p
  refine ⟨rfl, rfl, ?_, ?_, ?_⟩
  · simp [frameOf]
  · rw [csum, frameOf_take]
    simp [frameOf]
  · simp [frameOf, hn]

/-- R79: `FC_ENCODE` produces only valid frames. -/
theorem frameOf_valid (cfg : Config) (c : Byte) (p : List Byte) : validFrame cfg (frameOf cfg c p) = true := by
  obtain ⟨h0, -, -, h12, h13⟩ := frameOf_getElem? cfg c p
  simp only [validFrame, frameOf_length, h0, h12, h13]
  simp

/-- A valid frame is the frame of its own command and payload. -/
theorem validFrame_eq_frameOf {cfg : Config} {w : List Byte} (h : validFrame cfg w = true) :
    w = frameOf cfg (w.getD 1 0x00#8) ((w.drop 2).take payloadLen) := by
  simp only [validFrame, Bool.and_eq_true, beq_iff_eq] at h
  obtain ⟨⟨⟨hl, h0⟩, h13⟩, h12⟩ := h
  obtain ⟨a0, a1, a2, a3, a4, a5, a6, a7, a8, a9, a10, a11, a12, a13, rfl⟩ :
      ∃ a0 a1 a2 a3 a4 a5 a6 a7 a8 a9 a10 a11 a12 a13,
        w = [a0, a1, a2, a3, a4, a5, a6, a7, a8, a9, a10, a11, a12, a13] := by
    match w, hl with
    | [a0, a1, a2, a3, a4, a5, a6, a7, a8, a9, a10, a11, a12, a13], _ =>
      exact ⟨a0, a1, a2, a3, a4, a5, a6, a7, a8, a9, a10, a11, a12, a13, rfl⟩
  simp only [List.getElem?_cons_zero, List.getElem?_cons_succ, Option.some.injEq, csum, List.take_succ_cons,
    List.take_zero] at h0 h12 h13
  subst h0 h13 h12
  simp [frameOf, normalizePayload]

/-! ### One pass of the extractor (R122 to R128) -/

/-- Whether a window at the front is a frame, test by test. -/
theorem frameAt_zero {cfg : Config} {str : List Byte} (h : frameLen ≤ str.length) :
    frameAt cfg str 0 = true ↔
      str[0]? = some cfg.header ∧ str[13]? = some cfg.footer ∧ str[12]? = some (sum8 (str.take 12)) := by
  have hl : (str.take 14).length = 14 := by simp at *; omega
  simp only [frameAt, validFrame, csum, List.drop_zero, Nat.zero_add, h, decide_true, Bool.true_and,
    Bool.and_eq_true, beq_iff_eq, frameLen, hl, true_and, List.take_take]
  simp
  constructor
  · rintro ⟨⟨a, b⟩, d⟩; exact ⟨a, b, d⟩
  · rintro ⟨a, b, d⟩; exact ⟨⟨a, b⟩, d⟩

/-- A one-byte peek inside the content. -/
theorem ringPeek_one {cw : Nat} {rb : Ring} {i : Nat} (ha : rb.allocated = true) (hi : i < (content cw rb).length)
    (b : Byte) : ringPeek cw rb i 1 = [b] ↔ (content cw rb)[i]? = some b := by
  rw [ringPeek_eq i 1 ha, if_pos (by omega), List.take_one_drop_eq_of_lt_length hi, List.getElem?_eq_getElem hi]
  simp

/-- The low byte of the 16-bit sum is the 8-bit sum (R127). -/
theorem sum16_low (bs : List Byte) : (sum16 bs).setWidth 8 = sum8 bs := by
  apply BitVec.eq_of_toNat_eq
  simp only [sum16, sum8, BitVec.toNat_setWidth, BitVec.toNat_ofNat]
  omega

/-- Fewer than 14 bytes: no frame yet (R123). -/
theorem extractPasses_short {cfg : Config} {rb : Ring} (passes : Nat) (k : Counters)
    (h : ringLength cfg.cw rb < frameLen) : extractPasses cfg passes rb k = (rb, k, none) := by
  cases passes with
  | zero => rfl
  | succ n => simp only [extractPasses, h, if_true]

/-- A valid window at the front: it is taken, whole (R128). -/
theorem extractPasses_frame {cfg : Config} {rb : Ring} (passes : Nat) (k : Counters) (ha : rb.allocated = true)
    (h : frameAt cfg (content cfg.cw rb) 0 = true) :
    extractPasses cfg (passes + 1) rb k =
      ((ringDiscard cfg.cw rb frameLen).1, k,
        some ((content cfg.cw rb).getD 1 0x00#8, ((content cfg.cw rb).drop 2).take payloadLen)) := by
  have hl : 14 ≤ (content cfg.cw rb).length := by
    simp only [frameAt, frameLen, Bool.and_eq_true, decide_eq_true_eq] at h; omega
  obtain ⟨h0, h13, h12⟩ := (frameAt_zero hl).1 h
  have t2 := (ringPeek_one ha (by omega) _).2 h0
  have t4 := (ringPeek_one ha (by omega) _).2 h13
  have t5 := (ringPeek_one ha (by omega) _).2 h12
  have hs : ringChecksum cfg.cw rb 0 11 = some (sum16 ((content cfg.cw rb).take 12)) := by
    rw [ringChecksum_eq 0 11 ha, if_neg (by omega), if_neg (by omega)]; rfl
  have hw : ringPeek cfg.cw rb 0 frameLen = (content cfg.cw rb).take frameLen := by
    rw [ringPeek_eq 0 frameLen ha, if_pos (by simpa using hl), List.drop_zero]
  rw [extractPasses, if_neg (by rw [ringLength_allocated ha, frameLen]; omega), if_neg (by simp [t2]), if_neg (by simp [t4]),
    if_neg (by simp [hs, t5, sum16_low]), hw]
  have ht : (((content cfg.cw rb).take frameLen).drop 2).take payloadLen =
      ((content cfg.cw rb).drop 2).take payloadLen := by
    rw [List.drop_take, List.take_take]; rfl
  simp [ht]

/-- A window at the front that is no frame: one byte is discarded and one counter moves (R124, R126, R127). -/
theorem extractPasses_pass {cfg : Config} {rb : Ring} (passes : Nat) (k : Counters) (ha : rb.allocated = true)
    (hl : frameLen ≤ (content cfg.cw rb).length) (h : frameAt cfg (content cfg.cw rb) 0 = false) :
    extractPasses cfg (passes + 1) rb k =
      extractPasses cfg passes (ringDiscard cfg.cw rb 1).1 (passOver cfg (content cfg.cw rb) k 0) := by
  have hl' : 14 ≤ (content cfg.cw rb).length := hl
  have hs : ringChecksum cfg.cw rb 0 11 = some (sum16 ((content cfg.cw rb).take 12)) := by
    rw [ringChecksum_eq 0 11 ha, if_neg (by omega), if_neg (by omega)]; rfl
  rw [extractPasses, if_neg (by rw [ringLength_allocated ha, frameLen]; omega)]
  by_cases h0 : (content cfg.cw rb)[0]? = some cfg.header
  · rw [if_neg (by simp [(ringPeek_one ha (by omega) _).2 h0])]
    by_cases h13 : (content cfg.cw rb)[13]? = some cfg.footer
    · rw [if_neg (by simp [(ringPeek_one ha (by omega) _).2 h13])]
      have h12 : (content cfg.cw rb)[12]? ≠ some (sum8 ((content cfg.cw rb).take 12)) := by
        intro e
        rw [(frameAt_zero hl).2 ⟨h0, h13, e⟩] at h
        exact absurd h (by simp)
      have hp := ringPeek_one (cw := cfg.cw) (i := 12) ha (by omega) (sum8 ((content cfg.cw rb).take 12))
      rw [if_pos (by
        rw [hs]
        simp only [Option.map_some, sum16_low, ne_eq, Option.some.injEq]
        exact fun e => h12 (hp.1 e.symm))]
      simp [passOver, h0, h13]
    · rw [if_pos fun e => h13 ((ringPeek_one ha (by omega) _).1 e)]
      simp [passOver, h0, h13]
  · rw [if_pos fun e => h0 ((ringPeek_one ha (by omega) _).1 e)]
    simp [passOver, h0]

/-- `FC_EXTRACT` reaches the state by the ring and the counters alone. -/
theorem extractFrame_eq (s : State) :
    extractFrame s =
      ({ s with
          rb := (extractPasses s.cfg (ringLength s.cfg.cw s.rb + 1) s.rb s.diag).1
          diag := (extractPasses s.cfg (ringLength s.cfg.cw s.rb + 1) s.rb s.diag).2.1 },
        (extractPasses s.cfg (ringLength s.cfg.cw s.rb + 1) s.rb s.diag).2.2) := rfl

/-- On a ring never allocated there is no frame (R100). -/
theorem extractPasses_unallocated {cfg : Config} {rb : Ring} (passes : Nat) (k : Counters)
    (h : rb.allocated = false) : extractPasses cfg passes rb k = (rb, k, none) :=
  extractPasses_short passes k (by simp [ringLength, h])

/-- The extractor writes `rb.rd` and the three resync counters, nothing else (R122). -/
theorem extractPasses_frame_condition (cfg : Config) (passes : Nat) (rb : Ring) (k : Counters) :
    let r := extractPasses cfg passes rb k
    r.1.allocated = rb.allocated ∧ r.1.cap = rb.cap ∧ r.1.wr = rb.wr ∧ r.1.mem = rb.mem ∧
      r.2.1.rxDropped = k.rxDropped ∧ r.2.1.unknownCmd = k.unknownCmd ∧ r.2.1.unsolicited = k.unsolicited ∧
      r.2.1.normalized = k.normalized ∧ r.2.1.shortWrite = k.shortWrite := by
  have hd : ∀ (rb : Ring) n, (ringDiscard cfg.cw rb n).1.allocated = rb.allocated ∧
      (ringDiscard cfg.cw rb n).1.cap = rb.cap ∧ (ringDiscard cfg.cw rb n).1.wr = rb.wr ∧
      (ringDiscard cfg.cw rb n).1.mem = rb.mem := by
    intro rb n
    unfold ringDiscard
    split <;> exact ⟨rfl, rfl, rfl, rfl⟩
  induction passes generalizing rb k with
  | zero => exact ⟨rfl, rfl, rfl, rfl, rfl, rfl, rfl, rfl, rfl⟩
  | succ n ih =>
    obtain ⟨d1, d2, d3, d4⟩ := hd rb 1
    simp only [extractPasses]
    split
    · exact ⟨rfl, rfl, rfl, rfl, rfl, rfl, rfl, rfl, rfl⟩
    · split
      · simpa [d1, d2, d3, d4] using ih (ringDiscard cfg.cw rb 1).1 { k with resyncHeader := k.resyncHeader + 1 }
      · split
        · simpa [d1, d2, d3, d4] using ih (ringDiscard cfg.cw rb 1).1 { k with resyncFooter := k.resyncFooter + 1 }
        · split
          · simpa [d1, d2, d3, d4] using
              ih (ringDiscard cfg.cw rb 1).1 { k with resyncChecksum := k.resyncChecksum + 1 }
          · obtain ⟨e1, e2, e3, e4⟩ := hd rb frameLen
            exact ⟨e1, e2, e3, e4, rfl, rfl, rfl, rfl, rfl⟩

end Sys2Proof.Machine
end

