-- ==== Sys2Proof/Laws/Correlator.lean ====
section
/-! SUPPORT. The correlator: `rc[k]` after each update, what a dispatch and a tick can do, and what they leave alone. -/

namespace Sys2Proof.Machine

/-! ### `rc[k]` -/

/-- `rc[k]` reads from `rc` alone. -/
theorem rcOf_congr {s t : State} (h : s.rc = t.rc) (k : Nat) : rcOf s k = rcOf t k := by simp [rcOf, h]

/-- `rc[j]` after `rc[k]` is written (R171: the kinds are independent). -/
theorem getD_set (l : List RcState) (k j : Nat) (x : RcState) :
    (l.set k x).getD j .idle = if j = k ∧ k < l.length then x else l.getD j .idle := by
  simp only [List.getD_eq_getElem?_getD, List.getElem?_set]
  by_cases h : k = j
  · subst h
    by_cases hl : k < l.length
    · simp [hl]
    · simp [hl]
  · simp [h, Ne.symm h]

/-- A resolution leaves `Idle` at its kind and every other kind as it was (R163, R166, R171). -/
theorem rcOf_resolveRequest (k j : Nat) (why : Reason) (code : Option Byte) (s : State) :
    rcOf (resolveRequest k why code s) j = if j = k then .idle else rcOf s j := by
  simp only [rcOf, resolveRequest_rc, getD_set]
  by_cases h : j = k
  · subst h
    by_cases hl : j < s.rc.length
    · simp [hl]
    · simp [List.getD_eq_getElem?_getD, hl]
  · simp [h]

theorem rcOf_raiseDiag (r : DiagRecord) (s : State) (k : Nat) : rcOf (raiseDiag r s) k = rcOf s k := rfl

theorem rcOf_expireRequest (k j : Nat) (s : State) :
    rcOf (expireRequest k s) j = if j = k then .idle else rcOf s j := by
  rw [expireRequest, rcOf_raiseDiag, rcOf_resolveRequest]

/-! ### Dispatch -/

/-- What one response can do: resolve an awaiting kind, or be reported as unsolicited (R163, R168). -/
theorem respond_cases (kp : KindParams) (k : Nat) (c st : Byte) (s : State) :
    (∃ t d, rcOf s k = .awaiting t d ∧
        respond kp k c st s = resolveRequest k (statusReason kp st) (some st) s) ∨
      (rcOf s k = .idle ∧ respond kp k c st s = raiseDiag (.unsolicitedResponse k c) s) := by
  unfold respond
  split
  · next t d h => exact .inl ⟨t, d, h, rfl⟩
  · next h => exact .inr ⟨h, rfl⟩

/-- A response touches `rc`, `OUT`, `DIAG` and its counter only. -/
theorem respond_keeps (kp : KindParams) (k : Nat) (c st : Byte) (s : State) :
    let t := respond kp k c st s
    t.cfg = s.cfg ∧ t.rb = s.rb ∧ t.cqItems = s.cqItems ∧ t.wkState = s.wkState ∧ t.wkWakeAt = s.wkWakeAt ∧
      t.ctlStop = s.ctlStop ∧ t.tpConnected = s.tpConnected ∧ t.rc.length = s.rc.length ∧ t.now = s.now ∧
      t.tx = s.tx ∧ t.ev = s.ev ∧ t.sched = s.sched ∧ t.ret = s.ret ∧ t.draws = s.draws := by
  rcases respond_cases kp k c st s with ⟨_, _, -, h⟩ | ⟨-, h⟩ <;> simp [h]

/-- The correlator's half of a dispatch touches `rc`, `OUT`, `DIAG` and its counter only. -/
theorem correlate_keeps (c st : Byte) (kps : List KindParams) (k : Nat) (s : State) :
    let t := (correlate c st kps k s).1
    t.cfg = s.cfg ∧ t.rb = s.rb ∧ t.cqItems = s.cqItems ∧ t.wkState = s.wkState ∧ t.wkWakeAt = s.wkWakeAt ∧
      t.ctlStop = s.ctlStop ∧ t.tpConnected = s.tpConnected ∧ t.rc.length = s.rc.length ∧ t.now = s.now ∧
      t.tx = s.tx ∧ t.ev = s.ev ∧ t.sched = s.sched ∧ t.ret = s.ret ∧ t.draws = s.draws := by
  induction kps generalizing k s with
  | nil => simp [correlate]
  | cons kp rest ih =>
    simp only [correlate]
    split
    · have h1 := ih (k + 1) (respond kp k c st s)
      have h2 := respond_keeps kp k c st s
      simp only at h1 h2 ⊢
      simp only [h1, h2, and_self]
    · exact ih (k + 1) s

/-- A command that is no kind's response leaves the correlator alone (R165). -/
theorem correlate_miss {c : Byte} {kps : List KindParams} (h : ∀ kp ∈ kps, kp.respCmd ≠ c) (st : Byte) (k : Nat)
    (s : State) : correlate c st kps k s = (s, false) := by
  induction kps generalizing k with
  | nil => rfl
  | cons kp rest ih =>
    rw [correlate, if_neg (h kp List.mem_cons_self).symm]
    exact ih (fun x hx => h x (List.mem_cons_of_mem _ hx)) (k + 1)

/-- With `RESP_CMD` injective (R4 (d)) a response reaches exactly its kind. -/
theorem correlate_hit {kps : List KindParams} (hn : (kps.map KindParams.respCmd).Nodup) {j : Nat} {kp : KindParams}
    (hj : kps[j]? = some kp) (st : Byte) (k : Nat) (s : State) :
    correlate kp.respCmd st kps k s = (respond kp (k + j) kp.respCmd st s, true) := by
  induction kps generalizing j k with
  | nil => simp at hj
  | cons q rest ih =>
    obtain ⟨hq, hr⟩ := List.nodup_cons.1 (List.map_cons (f := KindParams.respCmd) ▸ hn)
    cases j with
    | zero =>
      obtain rfl : q = kp := by simpa using hj
      rw [correlate, if_pos rfl, correlate_miss]
      · rfl
      · intro x hx e
        exact hq (e ▸ List.mem_map_of_mem hx)
    | succ j =>
      have hm : kp ∈ rest := List.mem_of_getElem? (by simpa using hj)
      rw [correlate, if_neg (fun e : kp.respCmd = q.respCmd => hq (e ▸ List.mem_map_of_mem hm)),
        ih hr (by simpa using hj)]
      rw [show k + 1 + j = k + (j + 1) by omega]

/-- A dispatch touches `rc`, `EV`, `OUT`, `DIAG` and two counters only: "Dispatch never touches the ring buffer or the
queue" (R132). -/
theorem dispatchFrame_keeps (c : Byte) (p : List Byte) (s : State) :
    let t := dispatchFrame c p s
    t.cfg = s.cfg ∧ t.rb = s.rb ∧ t.cqItems = s.cqItems ∧ t.wkState = s.wkState ∧ t.wkWakeAt = s.wkWakeAt ∧
      t.ctlStop = s.ctlStop ∧ t.tpConnected = s.tpConnected ∧ t.rc.length = s.rc.length ∧ t.now = s.now ∧
      t.tx = s.tx ∧ t.sched = s.sched ∧ t.ret = s.ret ∧ t.draws = s.draws := by
  have h := correlate_keeps c (payloadByte p 0) s.cfg.kinds 0 s
  simp only [dispatchFrame] at h ⊢
  split
  · simp [h]
  · split <;> simp [h]

/-! ### Time -/

/-- One kind's test, when its deadline has come: it expires. -/
theorem expireIfDue_due {s : State} {k : Nat} (h : rcExpireEnabled s k = true) :
    expireIfDue s k = expireRequest k s := by simp [expireIfDue, h]

theorem expireIfDue_not {s : State} {k : Nat} (h : rcExpireEnabled s k = false) : expireIfDue s k = s := by
  simp [expireIfDue, h]

/-- An expiry touches `rc`, `OUT` and `DIAG` only (R166). -/
theorem expireIfDue_keeps (s : State) (k : Nat) :
    let t := expireIfDue s k
    t.cfg = s.cfg ∧ t.rb = s.rb ∧ t.cqItems = s.cqItems ∧ t.wkState = s.wkState ∧ t.wkWakeAt = s.wkWakeAt ∧
      t.ctlStop = s.ctlStop ∧ t.tpConnected = s.tpConnected ∧ t.rc.length = s.rc.length ∧ t.now = s.now ∧
      t.diag = s.diag ∧ t.tx = s.tx ∧ t.ev = s.ev ∧ t.sched = s.sched ∧ t.ret = s.ret ∧ t.draws = s.draws := by
  unfold expireIfDue
  split <;> simp [expireRequest, countDiag]

/-- The tests of `TICK` touch `rc`, `OUT` and `DIAG` only (R186). -/
theorem expireAll_keeps (ks : List Nat) (s : State) :
    let t := ks.foldl expireIfDue s
    t.cfg = s.cfg ∧ t.rb = s.rb ∧ t.cqItems = s.cqItems ∧ t.wkState = s.wkState ∧ t.wkWakeAt = s.wkWakeAt ∧
      t.ctlStop = s.ctlStop ∧ t.tpConnected = s.tpConnected ∧ t.rc.length = s.rc.length ∧ t.now = s.now ∧
      t.diag = s.diag ∧ t.tx = s.tx ∧ t.ev = s.ev ∧ t.sched = s.sched ∧ t.ret = s.ret ∧ t.draws = s.draws := by
  induction ks generalizing s with
  | nil => simp
  | cons k ks ih =>
    have h1 := ih (expireIfDue s k)
    have h2 := expireIfDue_keeps s k
    simp only at h1 h2
    simp only [List.foldl_cons, h1, h2, and_self]

/-- Whether a kind's deadline has come is a matter of its own record and of the time. -/
theorem rcExpireEnabled_congr {s t : State} {k : Nat} (h : rcOf s k = rcOf t k) (hn : s.now = t.now) :
    rcExpireEnabled s k = rcExpireEnabled t k := by simp [rcExpireEnabled, h, hn]

/-- `rc[j]` after the tests of a list of kinds: `Idle` where one of them was due, unchanged elsewhere (R186). -/
theorem rcOf_expireAll (ks : List Nat) (s : State) (j : Nat) :
    rcOf (ks.foldl expireIfDue s) j = if j ∈ ks ∧ rcExpireEnabled s j = true then .idle else rcOf s j := by
  induction ks generalizing s with
  | nil => simp
  | cons k ks ih =>
    rw [List.foldl_cons, ih]
    have hnow : (expireIfDue s k).now = s.now := (expireIfDue_keeps s k).2.2.2.2.2.2.2.2.1
    by_cases hk : rcExpireEnabled s k = true
    · have hrc : ∀ i, rcOf (expireIfDue s k) i = if i = k then .idle else rcOf s i := by
        intro i; rw [expireIfDue_due hk, rcOf_expireRequest]
      by_cases hj : j = k
      · subst hj
        simp [hrc, hk]
      · have : rcOf (expireIfDue s k) j = rcOf s j := by simp [hrc, hj]
        rw [rcExpireEnabled_congr this hnow, this]
        simp [hj]
    · simp only [Bool.not_eq_true] at hk
      rw [expireIfDue_not hk]
      by_cases hj : j = k
      · subst hj; simp [hk]
      · simp [hj]

/-- `OUT` and `DIAG` after the tests of a list of different kinds: one record for each that was due, in the list's
order (R166, R186, R209 (f)). -/
theorem traces_expireAll {ks : List Nat} (hn : ks.Nodup) (s : State) :
    (ks.foldl expireIfDue s).out =
        s.out ++ (ks.filter (rcExpireEnabled s)).map
          (fun k => { kind := k, success := false, reason := .timeout, code := none }) ∧
      (ks.foldl expireIfDue s).diagTrace =
        s.diagTrace ++ (ks.filter (rcExpireEnabled s)).map DiagRecord.timeout := by
  induction ks generalizing s with
  | nil => simp
  | cons k ks ih =>
    obtain ⟨hk, hks⟩ := List.nodup_cons.1 hn
    have hsame : ks.filter (rcExpireEnabled (expireIfDue s k)) = ks.filter (rcExpireEnabled s) := by
      refine List.filter_congr fun j hj => ?_
      have hjk : j ≠ k := fun e => hk (e ▸ hj)
      refine rcExpireEnabled_congr ?_ (expireIfDue_keeps s k).2.2.2.2.2.2.2.2.1
      unfold expireIfDue
      split
      · rw [rcOf_expireRequest, if_neg hjk]
      · rfl
    obtain ⟨h1, h2⟩ := ih hks (expireIfDue s k)
    rw [List.foldl_cons, h1, h2, hsame]
    by_cases hd : rcExpireEnabled s k = true
    · simp [expireIfDue_due hd, expireRequest, hd]
    · simp only [Bool.not_eq_true] at hd
      simp [expireIfDue_not hd, hd]

/-- `TICK` touches `now`, `rc`, `OUT` and `DIAG` only (R186). -/
theorem advanceTime_keeps (s : State) :
    let t := advanceTime s
    t.now = s.now + 1 ∧ t.cfg = s.cfg ∧ t.rb = s.rb ∧ t.cqItems = s.cqItems ∧ t.wkState = s.wkState ∧
      t.wkWakeAt = s.wkWakeAt ∧ t.ctlStop = s.ctlStop ∧ t.tpConnected = s.tpConnected ∧
      t.rc.length = s.rc.length ∧ t.diag = s.diag ∧ t.tx = s.tx ∧ t.ev = s.ev ∧ t.sched = s.sched ∧
      t.ret = s.ret ∧ t.draws = s.draws := by
  have h := expireAll_keeps (List.range s.cfg.kinds.length) { s with now := s.now + 1 }
  simp only [advanceTime] at h ⊢
  simp only [h, and_self]

end Sys2Proof.Machine
end

