-- ==== Sys2Proof/Laws/Inbound.lean ====
section
/-! SUPPORT. The inbound path: what a delivery leaves alone (R180). -/

namespace Sys2Proof.Machine

/-- `FC_EXTRACT` touches `rb.rd` and the resync counters only (R122). -/
theorem extractFrame_keeps (s : State) :
    let t := (extractFrame s).1
    t.cfg = s.cfg ∧ t.rb.allocated = s.rb.allocated ∧ t.rb.cap = s.rb.cap ∧ t.rb.wr = s.rb.wr ∧
      t.rb.mem = s.rb.mem ∧ t.cqItems = s.cqItems ∧ t.wkState = s.wkState ∧ t.wkWakeAt = s.wkWakeAt ∧
      t.ctlStop = s.ctlStop ∧ t.tpConnected = s.tpConnected ∧ t.rc = s.rc ∧ t.now = s.now ∧ t.tx = s.tx ∧
      t.ev = s.ev ∧ t.out = s.out ∧ t.diagTrace = s.diagTrace ∧ t.sched = s.sched ∧ t.ret = s.ret ∧
      t.draws = s.draws := by
  obtain ⟨h1, h2, h3, h4, -⟩ :=
    extractPasses_frame_condition s.cfg (ringLength s.cfg.cw s.rb + 1) s.rb s.diag
  rw [extractFrame_eq]
  exact ⟨rfl, h1, h2, h3, h4, rfl, rfl, rfl, rfl, rfl, rfl, rfl, rfl, rfl, rfl, rfl, rfl, rfl, rfl⟩

/-- Draining touches the ring, the correlator, the traces `EV`, `OUT`, `DIAG` and the counters only: "It does not touch
the queue or the worker" (R180). -/
theorem drainFrames_keeps (turns : Nat) (s : State) :
    let t := drainFrames turns s
    t.cfg = s.cfg ∧ t.rb.allocated = s.rb.allocated ∧ t.rb.cap = s.rb.cap ∧ t.rb.wr = s.rb.wr ∧
      t.rb.mem = s.rb.mem ∧ t.cqItems = s.cqItems ∧ t.wkState = s.wkState ∧ t.wkWakeAt = s.wkWakeAt ∧
      t.ctlStop = s.ctlStop ∧ t.tpConnected = s.tpConnected ∧ t.rc.length = s.rc.length ∧ t.now = s.now ∧
      t.tx = s.tx ∧ t.sched = s.sched ∧ t.ret = s.ret ∧ t.draws = s.draws := by
  induction turns generalizing s with
  | zero => simp [drainFrames]
  | succ n ih =>
    have he := extractFrame_keeps s
    rw [drainFrames]
    rcases hx : extractFrame s with ⟨s1, _ | ⟨c, p⟩⟩
    · rw [hx] at he
      simp only at he ⊢
      simp only [he, and_self]
    · rw [hx] at he
      have hd := dispatchFrame_keeps c p s1
      have hi := ih (dispatchFrame c p s1)
      simp only at he hd hi ⊢
      simp only [hi, hd, he, and_self]

/-- A delivery touches the ring, the correlator, the traces `EV`, `OUT`, `DIAG` and the counters only (R180). -/
theorem receiveBytes_keeps (bytes : List Byte) (s : State) :
    let t := receiveBytes bytes s
    t.cfg = s.cfg ∧ t.rb.allocated = s.rb.allocated ∧ t.rb.cap = s.rb.cap ∧ t.cqItems = s.cqItems ∧
      t.wkState = s.wkState ∧ t.wkWakeAt = s.wkWakeAt ∧ t.ctlStop = s.ctlStop ∧ t.tpConnected = s.tpConnected ∧
      t.rc.length = s.rc.length ∧ t.now = s.now ∧ t.tx = s.tx ∧ t.sched = s.sched ∧ t.ret = s.ret ∧
      t.draws = s.draws := by
  have hp : (ringPush s.cfg.cw s.rb bytes).1.allocated = s.rb.allocated ∧
      (ringPush s.cfg.cw s.rb bytes).1.cap = s.rb.cap := by
    unfold ringPush; split <;> exact ⟨rfl, rfl⟩
  simp only [receiveBytes]
  split
  · have h := drainFrames_keeps (ringLength s.cfg.cw (ringPush s.cfg.cw s.rb bytes).1 + 1)
      (raiseDiag (.rxOverflow (bytes.length - (ringPush s.cfg.cw s.rb bytes).2))
        { s with rb := (ringPush s.cfg.cw s.rb bytes).1 })
    simp only [raiseDiag_cfg, raiseDiag_rb, raiseDiag_cqItems, raiseDiag_wkState, raiseDiag_wkWakeAt,
      raiseDiag_ctlStop, raiseDiag_tpConnected, raiseDiag_rc, raiseDiag_now, raiseDiag_tx, raiseDiag_sched,
      raiseDiag_ret, raiseDiag_draws] at h
    simp only [h, hp, and_self]
  · have h := drainFrames_keeps (ringLength s.cfg.cw (ringPush s.cfg.cw s.rb bytes).1 + 1)
      { s with rb := (ringPush s.cfg.cw s.rb bytes).1 }
    simp only at h
    simp only [h, hp, and_self]

end Sys2Proof.Machine
end

