-- ==== Sys2Proof/Laws/PerInstr.lean ====
section
/-! SUPPORT. What the encoding of each operation looks like: an `OP8` transaction that opens with the operation's
op-select code (R84), or a `FRAME14` that is a valid frame (R70, R79). -/

namespace Sys2Proof.Laws

open Sys2Proof.Machine

/-- Every op-select code of the table selects its operation. -/
theorem opcodeOf_opcodeByte (o : Opcode) : opcodeOf (opcodeByte o) = some o := by cases o <;> decide

/-- The bytes of an operation, or of a frame. -/
def EncodingShape.Statement (i : Instr) : Prop :=
  ∀ cfg : Config,
    (∃ o args, encode cfg i = .op8 (opcodeByte o :: args) ∧ opcodeOf (opcodeByte o) = some o) ∨
      ∃ w, encode cfg i = .frame14 w ∧ validFrame cfg w = true

theorem EncodingShape.op {i : Instr} (o : Opcode) (args : Config → List Byte)
    (h : ∀ cfg, encode cfg i = encodeOp o (args cfg)) : EncodingShape.Statement i :=
  fun cfg => .inl ⟨o, args cfg, h cfg, opcodeOf_opcodeByte o⟩

theorem EncodingShape.wire {i : Instr} (command : Byte) (payload : List Byte)
    (h : ∀ cfg, encode cfg i = .frame14 (frameOf cfg command payload)) : EncodingShape.Statement i :=
  fun cfg => .inr ⟨_, h cfg, frameOf_valid cfg command payload⟩

theorem EncodingShape.reset : EncodingShape.Statement .reset :=
  EncodingShape.op .reset _ fun _ => rfl

theorem EncodingShape.rbAlloc (capacity : Nat) : EncodingShape.Statement (.rbAlloc capacity) :=
  EncodingShape.op .rbAlloc _ fun _ => rfl

theorem EncodingShape.rbPush (bytes : List Byte) : EncodingShape.Statement (.rbPush bytes) :=
  EncodingShape.op .rbPush _ fun _ => rfl

theorem EncodingShape.rbPop (maxLen : Nat) : EncodingShape.Statement (.rbPop maxLen) :=
  EncodingShape.op .rbPop _ fun _ => rfl

theorem EncodingShape.rbPeek (start len : Nat) : EncodingShape.Statement (.rbPeek start len) :=
  EncodingShape.op .rbPeek _ fun _ => rfl

theorem EncodingShape.rbDiscard (len : Nat) : EncodingShape.Statement (.rbDiscard len) :=
  EncodingShape.op .rbDiscard _ fun _ => rfl

theorem EncodingShape.rbChecksum (n m : Nat) : EncodingShape.Statement (.rbChecksum n m) :=
  EncodingShape.op .rbChecksum _ fun _ => rfl

theorem EncodingShape.rbLength : EncodingShape.Statement .rbLength :=
  EncodingShape.op .rbLength _ fun _ => rfl

theorem EncodingShape.fcEncode (command : Byte) (payload : List Byte) : EncodingShape.Statement (.fcEncode command payload) :=
  EncodingShape.op .fcEncode _ fun _ => rfl

theorem EncodingShape.fcExtract : EncodingShape.Statement .fcExtract :=
  EncodingShape.op .fcExtract _ fun _ => rfl

theorem EncodingShape.fcDispatch (command : Byte) (payload : List Byte) : EncodingShape.Statement (.fcDispatch command payload) :=
  EncodingShape.op .fcDispatch _ fun _ => rfl

theorem EncodingShape.cqEnqueue (f : List Byte) : EncodingShape.Statement (.cqEnqueue f) :=
  EncodingShape.op .cqEnqueue _ fun _ => rfl

theorem EncodingShape.cmdSubmit (commandCode : Byte) (payload : List Byte) : EncodingShape.Statement (.cmdSubmit commandCode payload) :=
  EncodingShape.op .cmdSubmit _ fun _ => rfl

theorem EncodingShape.wkServe (bytesWritten : Nat) : EncodingShape.Statement (.wkServe bytesWritten) :=
  EncodingShape.op .wkServe _ fun _ => rfl

theorem EncodingShape.wkWake : EncodingShape.Statement .wkWake :=
  EncodingShape.op .wkWake _ fun _ => rfl

theorem EncodingShape.ctlShutdown : EncodingShape.Statement .ctlShutdown :=
  EncodingShape.op .ctlShutdown _ fun _ => rfl

theorem EncodingShape.rcIssue (kind : Nat) (payload : List Byte) : EncodingShape.Statement (.rcIssue kind payload) :=
  EncodingShape.op .rcIssue _ fun _ => rfl

theorem EncodingShape.rcResolve (kind : Nat) (status : Byte) : EncodingShape.Statement (.rcResolve kind status) :=
  EncodingShape.op .rcResolve _ fun _ => rfl

theorem EncodingShape.rcExpire (kind : Nat) : EncodingShape.Statement (.rcExpire kind) :=
  EncodingShape.op .rcExpire _ fun _ => rfl

theorem EncodingShape.tpRx (bytes : List Byte) : EncodingShape.Statement (.tpRx bytes) :=
  EncodingShape.op .tpRx _ fun _ => rfl

theorem EncodingShape.tpConnect : EncodingShape.Statement .tpConnect :=
  EncodingShape.op .tpConnect _ fun _ => rfl

theorem EncodingShape.tpDisconnect : EncodingShape.Statement .tpDisconnect :=
  EncodingShape.op .tpDisconnect _ fun _ => rfl

theorem EncodingShape.tick : EncodingShape.Statement .tick :=
  EncodingShape.op .tick _ fun _ => rfl

theorem EncodingShape.frame (command : Byte) (payload : List Byte) : EncodingShape.Statement (.frame command payload) :=
  EncodingShape.wire command payload fun _ => rfl

theorem EncodingShape.frameVarRead (identifier : Byte) (value : BitVec 32) (rest : List Byte) : EncodingShape.Statement (.frameVarRead identifier value rest) :=
  EncodingShape.wire varReadCode (identifier :: (valueBytes value ++ rest)) fun _ => rfl

theorem EncodingShape.frameStatus (command status state : Byte) (rest : List Byte) : EncodingShape.Statement (.frameStatus command status state rest) :=
  EncodingShape.wire command (status :: state :: rest) fun _ => rfl

theorem EncodingShape.frameMode (command mode : Byte) (rest : List Byte) : EncodingShape.Statement (.frameMode command mode rest) :=
  EncodingShape.wire command (mode :: rest) fun _ => rfl

theorem EncodingShape.frameResponse (command status : Byte) (rest : List Byte) : EncodingShape.Statement (.frameResponse command status rest) :=
  EncodingShape.wire command (status :: rest) fun _ => rfl

end Sys2Proof.Laws
end

