-- ==== Sys2Proof/Laws/Queue.lean ====
section
/-! SUPPORT. The queue, the worker and the issue of requests: what each shared operation can do (R140 to R152, R161). -/

namespace Sys2Proof.Machine

/-- Whether the queue is full is a matter of the queue and its bound. -/
theorem queueFull_congr {s t : State} (hc : s.cfg = t.cfg) (hq : s.cqItems = t.cqItems) : queueFull s = queueFull t := by
  simp [queueFull, hc, hq]

/-- `FC_ENCODE` touches the `NORMALIZED` diagnostic only (R121). -/
theorem encodeFrame_eq (c : Byte) (p : List Byte) (s : State) :
    encodeFrame c p s =
      (if p.length = payloadLen then s else raiseDiag (.normalized p.length) s, frameOf s.cfg c p) := rfl

theorem encodeFrame_keeps (c : Byte) (p : List Byte) (s : State) :
    let t := (encodeFrame c p s).1
    t.cfg = s.cfg ∧ t.rb = s.rb ∧ t.cqItems = s.cqItems ∧ t.wkState = s.wkState ∧ t.wkWakeAt = s.wkWakeAt ∧
      t.ctlStop = s.ctlStop ∧ t.tpConnected = s.tpConnected ∧ t.rc = s.rc ∧ t.now = s.now ∧ t.tx = s.tx ∧
      t.ev = s.ev ∧ t.out = s.out ∧ t.sched = s.sched ∧ t.ret = s.ret ∧ t.draws = s.draws := by
  rw [encodeFrame_eq]
  dsimp only
  split <;> simp

/-- `CQ_ENQUEUE` appends at the tail, or a full queue refuses it (R140, R152). -/
theorem enqueueFrame_cases (f : List Byte) (s : State) :
    (queueFull s = false ∧ enqueueFrame f s = ({ s with cqItems := s.cqItems ++ [f] }, true)) ∨
      (queueFull s = true ∧ enqueueFrame f s = (s, false)) := by
  unfold enqueueFrame
  cases h : queueFull s <;> simp

/-- Where there is room, a frame is appended to a state that has the same queue and bound. -/
theorem enqueueFrame_room {s t : State} (h : queueFull s = false) (hc : t.cfg = s.cfg) (hq : t.cqItems = s.cqItems)
    (f : List Byte) : enqueueFrame f t = ({ t with cqItems := s.cqItems ++ [f] }, true) := by
  rw [enqueueFrame, queueFull_congr hc hq, h, hq]
  rfl

/-- `RC_ISSUE` either is rejected with no effect (R162) or arms the record and queues the frame (R161). -/
theorem issueRequest_cases (kp : KindParams) (k : Nat) (p : List Byte) (s : State) :
    ((rcOf s k ≠ .idle ∨ s.tpConnected = false ∨ queueFull s = true) ∧ issueRequest kp k p s = (s, false)) ∨
      (rcOf s k = .idle ∧ s.tpConnected = true ∧ queueFull s = false ∧
        issueRequest kp k p s =
          ({ (encodeFrame kp.reqCmd p s).1 with
              rc := s.rc.set k (.awaiting s.now (s.now + kp.timeoutTicks))
              cqItems := s.cqItems ++ [frameOf s.cfg kp.reqCmd p] }, true)) := by
  unfold issueRequest
  split
  · next t d h => exact .inl ⟨.inl (by simp [h]), rfl⟩
  · next h =>
    cases hc : s.tpConnected
    · exact .inl ⟨.inr (.inl rfl), by simp⟩
    · cases hq : queueFull s
      · refine .inr ⟨h, rfl, rfl, ?_⟩
        simp only [encodeFrame_eq, Bool.not_true, Bool.false_eq_true, if_false]
        split
        · simp [enqueueFrame_room hq, hc]
        · simp [enqueueFrame_room hq, hc, raiseDiag]
      · exact .inl ⟨.inr (.inr rfl), by simp⟩

/-- `CMD_SUBMIT` is `RC_ISSUE` for a kind's request code (R142); for any other code it queues the frame, or a full queue
refuses it (R141, R152). -/
theorem submitCommand_cases (c : Byte) (p : List Byte) (s : State) :
    (∃ k kp, reqKind s.cfg c = some k ∧ s.cfg.kinds[k]? = some kp ∧ submitCommand c p s = issueRequest kp k p s) ∨
      (reqKind s.cfg c = none ∧ queueFull s = true ∧ submitCommand c p s = (s, false)) ∨
      (reqKind s.cfg c = none ∧ queueFull s = false ∧
        submitCommand c p s =
          ({ (encodeFrame c p s).1 with cqItems := s.cqItems ++ [frameOf s.cfg c p] }, true)) := by
  cases hk : reqKind s.cfg c with
  | some k =>
    have hlt : k < s.cfg.kinds.length := (List.findIdx?_eq_some_iff_getElem.1 hk).1
    refine .inl ⟨k, s.cfg.kinds[k], rfl, List.getElem?_eq_getElem hlt, ?_⟩
    simp [submitCommand, hk, List.getElem?_eq_getElem hlt]
  | none =>
    right
    cases hq : queueFull s
    · refine .inr ⟨rfl, rfl, ?_⟩
      simp only [submitCommand, hk, encodeFrame_eq, Option.bind_none, hq, Bool.false_eq_true, if_false]
      split <;> simp [enqueueFrame_room hq, raiseDiag]
    · exact .inl ⟨rfl, rfl, by simp [submitCommand, hk, hq]⟩

/-- A worker that serves exits (shutdown wins), or writes the oldest frame and sleeps (R143, R146). -/
theorem serveWorker_cases {s : State} (w : Nat) (h : wkServeEnabled s = true) :
    s.wkState = .wait ∧
      ((s.ctlStop = true ∧ serveWorker w s = { s with wkState := .exited }) ∨
        (s.ctlStop = false ∧ s.tpConnected = true ∧ ∃ f rest, s.cqItems = f :: rest ∧
          serveWorker w s =
            { (if w = frameLen then s else raiseDiag (.shortWrite w) s) with
                cqItems := rest
                tx := s.tx ++ [{ time := s.now, frame := f }]
                wkWakeAt := s.now + s.cfg.paceTicks
                wkState := .sleep })) := by
  simp only [wkServeEnabled, Bool.and_eq_true, Bool.or_eq_true, Bool.not_eq_true', List.isEmpty_eq_false_iff,
    beq_iff_eq] at h
  obtain ⟨hw, h⟩ := h
  refine ⟨hw, ?_⟩
  cases hs : s.ctlStop
  · rw [hs] at h
    obtain ⟨hq, hc⟩ := h.resolve_left (by simp)
    obtain ⟨f, rest, hf⟩ := List.exists_cons_of_ne_nil hq
    refine .inr ⟨rfl, hc, f, rest, hf, ?_⟩
    simp only [serveWorker, hs, hf]
    by_cases e : w = frameLen
    · simp [e, hs]
    · simp [e, raiseDiag, hs]
  · exact .inl ⟨rfl, by simp [serveWorker, hs]⟩

end Sys2Proof.Machine
end

