-- ==== Sys2Proof/Laws/Stream.lean ====
section
/-! SUPPORT. The extractor and the drain loop as functions of the content alone (R42, R129, R183): what the extractor does
to a byte sequence, that dispatching does not look at the ring, and the two put together. -/

namespace Sys2Proof.Laws

open Sys2Proof.Machine

/-- The extractor on a byte sequence: how many bytes it drops, the counters, what it returns. -/
def scan (cfg : Config) : Nat → List Byte → Counters → Nat × Counters × Option (Byte × List Byte)
  | 0, _, k => (0, k, none)
  | passes + 1, str, k =>
    if str.length < frameLen then (0, k, none)
    else if frameAt cfg str 0 then (frameLen, k, some (str.getD 1 0x00#8, (str.drop 2).take payloadLen))
    else
      let r := scan cfg passes (str.drop 1) (passOver cfg str k 0)
      (r.1 + 1, r.2)

/-- A discard inside the content (R105). -/
theorem ringDiscard_within {cw n : Nat} {rb : Ring} (ha : rb.allocated = true) (h : RingInv cw rb)
    (hn : n ≤ (content cw rb).length) :
    (ringDiscard cw rb n).1 = { rb with rd := addW cw rb.rd n } ∧
      content cw { rb with rd := addW cw rb.rd n } = (content cw rb).drop n ∧
      RingInv cw { rb with rd := addW cw rb.rd n } := by
  obtain ⟨h1, -, h3, h4⟩ := ringDiscard_spec n ha h
  rw [content_length] at hn
  rw [Nat.min_eq_left hn] at *
  rw [h1] at h3 h4
  exact ⟨by rw [h1], h3, h4⟩

/-- The passes over a ring are the scan of its content; only the read cursor moves. -/
theorem extractPasses_eq_scan (cfg : Config) (passes : Nat) (rb : Ring) (k : Counters) (ha : rb.allocated = true)
    (h : RingInv cfg.cw rb) :
    let r := scan cfg passes (content cfg.cw rb) k
    extractPasses cfg passes rb k = ({ rb with rd := addW cfg.cw rb.rd r.1 }, r.2) ∧
      r.1 ≤ (content cfg.cw rb).length := by
  have h0 : addW cfg.cw rb.rd 0 = rb.rd := addW_zero h.2.2.2.1
  induction passes generalizing rb k with
  | zero => simp [extractPasses, scan, h0]
  | succ n ih =>
    simp only [scan]
    by_cases hs : (content cfg.cw rb).length < 14
    · rw [if_pos hs, extractPasses_short _ _ (by rw [ringLength_allocated ha]; exact hs)]
      simp [h0]
    · have hl : 14 ≤ (content cfg.cw rb).length := by omega
      rw [if_neg hs]
      cases hf : frameAt cfg (content cfg.cw rb) 0 with
      | true =>
        rw [extractPasses_frame n k ha hf, (ringDiscard_within ha h (n := frameLen) hl).1]
        exact ⟨rfl, hl⟩
      | false =>
        obtain ⟨d1, d2, d3⟩ := ringDiscard_within ha h (n := 1) (by omega)
        rw [extractPasses_pass n k ha hl hf, d1]
        have hn := ih { rb with rd := addW cfg.cw rb.rd 1 } (passOver cfg (content cfg.cw rb) k 0) ha d3
          (addW_zero d3.2.2.2.1)
        simp only [d2] at hn
        obtain ⟨e1, e2⟩ := hn
        rw [List.length_drop] at e2
        simp only [e1, addW_addW, Bool.false_eq_true, if_false]
        exact ⟨by rw [Nat.add_comm], by omega⟩

/-- Passing over a byte depends only on the window that starts there (R183). -/
theorem passOver_drop (cfg : Config) (str : List Byte) (a j : Nat) (k : Counters) :
    passOver cfg (str.drop a) k j = passOver cfg str k (a + j) := by
  simp [passOver, List.getElem?_drop, Nat.add_assoc]

theorem passOvers_succ (cfg : Config) (str : List Byte) (n : Nat) (k : Counters) :
    passOvers cfg str (n + 1) k = passOvers cfg (str.drop 1) n (passOver cfg str k 0) := by
  simp only [passOvers, List.range_succ_eq_map, List.foldl_cons, List.foldl_map]
  congr 1
  funext x y
  rw [passOver_drop, Nat.add_comm]

theorem frameAt_drop (cfg : Config) (str : List Byte) (a j : Nat) (h : a ≤ str.length) :
    frameAt cfg (str.drop a) j = frameAt cfg str (a + j) := by
  simp only [frameAt, List.length_drop, List.drop_drop]
  congr 1
  simp; omega

theorem frameAt_length {cfg : Config} {str : List Byte} {j : Nat} (h : frameAt cfg str j = true) :
    j + 14 ≤ str.length := by
  simp only [frameAt, Bool.and_eq_true, decide_eq_true_eq] at h
  exact h.1

/-- The scan of a sequence without a valid window (R129). -/
theorem scan_none (cfg : Config) (passes : Nat) (str : List Byte) (k : Counters) (hn : str.length ≤ passes + 13)
    (h : ∀ j, frameAt cfg str j = false) :
    scan cfg passes str k = (str.length - 13, passOvers cfg str (str.length - 13) k, none) := by
  induction passes generalizing str k with
  | zero =>
    have : str.length - 13 = 0 := by omega
    simp [scan, this, passOvers]
  | succ n ih =>
    simp only [scan, h, Bool.false_eq_true, if_false]
    by_cases hs : str.length < 14
    · have : str.length - 13 = 0 := by omega
      simp [hs, this, passOvers]
    · have hd := ih (str.drop 1) (passOver cfg str k 0) (by simp; omega)
        (by intro j; rw [frameAt_drop _ _ _ _ (by omega)]; exact h _)
      obtain ⟨m, hm⟩ : ∃ m, str.length - 13 = m + 1 := ⟨str.length - 14, by omega⟩
      have : (str.drop 1).length - 13 = m := by simp; omega
      rw [if_neg hs, hd, this, hm, passOvers_succ]

/-- The scan of a sequence whose first valid window starts at `j` (R129). -/
theorem scan_some (cfg : Config) (passes : Nat) (str : List Byte) (k : Counters) (j : Nat)
    (hn : str.length ≤ passes + 13) (hj : frameAt cfg str j = true) (h : ∀ i < j, frameAt cfg str i = false) :
    scan cfg passes str k =
      (j + 14, passOvers cfg str j k, some (str.getD (j + 1) 0x00#8, (str.drop (j + 2)).take payloadLen)) := by
  have hlen := frameAt_length hj
  induction j generalizing passes str k with
  | zero =>
    obtain ⟨m, rfl⟩ : ∃ m, passes = m + 1 := ⟨passes - 1, by omega⟩
    simp only [scan, hj, if_true]
    rw [if_neg (by simp only [frameLen]; omega)]
    simp [passOvers]
  | succ j ih =>
    obtain ⟨m, rfl⟩ : ∃ m, passes = m + 1 := ⟨passes - 1, by omega⟩
    simp only [scan, h 0 (by omega), Bool.false_eq_true, if_false]
    have hd := ih m (str.drop 1) (passOver cfg str k 0) (by simp; omega)
      (by rw [frameAt_drop _ _ _ _ (by omega), Nat.add_comm]; exact hj)
      (by intro i hi; rw [frameAt_drop _ _ _ _ (by omega)]; exact h _ (by omega)) (by simp; omega)
    rw [if_neg (by simp only [frameLen]; omega), hd, passOvers_succ]
    simp [Nat.add_comm, Nat.add_left_comm]

/-- A sequence has no valid window, or a first one. -/
theorem frameAt_least (cfg : Config) (str : List Byte) :
    (∀ j, frameAt cfg str j = false) ∨ ∃ j, frameAt cfg str j = true ∧ ∀ i < j, frameAt cfg str i = false := by
  by_cases h : ∃ j, frameAt cfg str j = true
  · exact .inr ⟨Nat.find h, Nat.find_spec h, fun i hi => by simpa using Nat.find_min h hi⟩
  · exact .inl (by simpa using h)

/-- `FC_EXTRACT` is the scan of the content; it moves the read cursor and the counters (R122, R129). -/
theorem extractFrame_eq_scan (s : State) (ha : s.rb.allocated = true) (h : RingInv s.cfg.cw s.rb) :
    let r := scan s.cfg ((content s.cfg.cw s.rb).length + 1) (content s.cfg.cw s.rb) s.diag
    extractFrame s =
      ({ s with rb := { s.rb with rd := addW s.cfg.cw s.rb.rd r.1 }, diag := r.2.1 }, r.2.2) := by
  have e := (extractPasses_eq_scan s.cfg ((content s.cfg.cw s.rb).length + 1) s.rb s.diag ha h).1
  rw [extractFrame_eq, ringLength_allocated ha, e]

/-- The payload and the place of what the scan returns. -/
theorem scan_length {cfg : Config} {passes : Nat} {str : List Byte} {k : Counters} {command : Byte}
    {payload : List Byte} (h : (scan cfg passes str k).2.2 = some (command, payload)) :
    payload.length = payloadLen ∧ 14 ≤ (scan cfg passes str k).1 ∧ (scan cfg passes str k).1 ≤ str.length := by
  induction passes generalizing str k with
  | zero => simp [scan] at h
  | succ n ih =>
    simp only [scan] at h ⊢
    by_cases hs : str.length < 14
    · rw [if_pos hs] at h; simp at h
    · rw [if_neg hs] at h ⊢
      cases hf : frameAt cfg str 0 with
      | true =>
        rw [if_pos hf] at h
        simp only [Option.some.injEq, Prod.mk.injEq] at h
        rw [if_pos rfl, ← h.2]
        simp only [List.length_take, List.length_drop, payloadLen, frameLen]
        omega
      | false =>
        rw [hf, if_neg (by simp)] at h
        obtain ⟨h1, h2, h3⟩ := ih h
        rw [if_neg (by simp)]
        rw [List.length_drop] at h3
        exact ⟨h1, by simp only []; omega, by simp only []; omega⟩

/-! ### Dispatch and the ring -/

/-- Resolution and diagnostics do not look at the ring. -/
theorem respond_ring (kp : KindParams) (k : Nat) (c st : Byte) (s : State) (x : Ring) :
    respond kp k c st { s with rb := x } = { respond kp k c st s with rb := x } := by
  have e : rcOf { s with rb := x } k = rcOf s k := rfl
  simp only [respond, e]
  cases rcOf s k <;> rfl

theorem correlate_ring (c st : Byte) (kps : List KindParams) (k : Nat) (s : State) (x : Ring) :
    correlate c st kps k { s with rb := x } =
      ({ (correlate c st kps k s).1 with rb := x }, (correlate c st kps k s).2) := by
  induction kps generalizing k s with
  | nil => rfl
  | cons kp rest ih =>
    simp only [correlate]
    by_cases h : c = kp.respCmd
    · simp only [if_pos h, respond_ring, ih]
    · simp only [if_neg h, ih]

/-- "Dispatch never touches the ring buffer" (R132), nor looks at it. -/
theorem dispatchFrame_ring (c : Byte) (p : List Byte) (s : State) (x : Ring) :
    dispatchFrame c p { s with rb := x } = { dispatchFrame c p s with rb := x } := by
  simp only [dispatchFrame, correlate_ring]
  cases classEvent (classOf s.cfg c) c p with
  | some e => rfl
  | none => simp only []; split <;> rfl

/-- Nor does it look at the last result. -/
theorem respond_ret (kp : KindParams) (k : Nat) (c st : Byte) (s : State) (y : Result) :
    respond kp k c st { s with ret := y } = { respond kp k c st s with ret := y } := by
  have e : rcOf { s with ret := y } k = rcOf s k := rfl
  simp only [respond, e]
  cases rcOf s k <;> rfl

theorem correlate_ret (c st : Byte) (kps : List KindParams) (k : Nat) (s : State) (y : Result) :
    correlate c st kps k { s with ret := y } =
      ({ (correlate c st kps k s).1 with ret := y }, (correlate c st kps k s).2) := by
  induction kps generalizing k s with
  | nil => rfl
  | cons kp rest ih =>
    simp only [correlate]
    by_cases h : c = kp.respCmd
    · simp only [if_pos h, respond_ret, ih]
    · simp only [if_neg h, ih]

theorem dispatchFrame_ret (c : Byte) (p : List Byte) (s : State) (y : Result) :
    dispatchFrame c p { s with ret := y } = { dispatchFrame c p s with ret := y } := by
  simp only [dispatchFrame, correlate_ret]
  cases classEvent (classOf s.cfg c) c p with
  | some e => rfl
  | none => simp only []; split <;> rfl

/-! ### The drain loop -/

/-- The drain loop on a byte sequence: how many bytes it drops and the state it leaves, the ring apart. -/
def drain : Nat → List Byte → State → Nat × State
  | 0, _, s => (0, s)
  | turns + 1, str, s =>
    let r := scan s.cfg (str.length + 1) str s.diag
    match r.2.2 with
    | none => (r.1, { s with diag := r.2.1 })
    | some (command, payload) =>
      let q := drain turns (str.drop r.1) (dispatchFrame command payload { s with diag := r.2.1 })
      (r.1 + q.1, q.2)

theorem drain_ring (turns : Nat) (str : List Byte) (s : State) (x : Ring) :
    drain turns str { s with rb := x } = ((drain turns str s).1, { (drain turns str s).2 with rb := x }) := by
  induction turns generalizing str s with
  | zero => rfl
  | succ n ih =>
    simp only [drain]
    cases (scan s.cfg (str.length + 1) str s.diag).2.2 with
    | none => rfl
    | some f =>
      have key := dispatchFrame_ring f.1 f.2 { s with diag := (scan s.cfg (str.length + 1) str s.diag).2.1 } x
      simp only [] at key ⊢
      rw [key, ih]

/-- The drain loop of `TP_RX` is the drain of the content; only the read cursor of the ring moves (R180, R183). -/
theorem drainFrames_eq_drain (turns : Nat) (s : State) (ha : s.rb.allocated = true) (h : RingInv s.cfg.cw s.rb) :
    let r := drain turns (content s.cfg.cw s.rb) s
    drainFrames turns s = { r.2 with rb := { s.rb with rd := addW s.cfg.cw s.rb.rd r.1 } } ∧
      r.1 ≤ (content s.cfg.cw s.rb).length := by
  induction turns generalizing s with
  | zero => simp [drainFrames, drain, addW_zero h.2.2.2.1]
  | succ n ih =>
    have hx := extractFrame_eq_scan s ha h
    have hle := (extractPasses_eq_scan s.cfg ((content s.cfg.cw s.rb).length + 1) s.rb s.diag ha h).2
    simp only [] at hx hle
    simp only [drainFrames, drain, hx]
    generalize scan s.cfg ((content s.cfg.cw s.rb).length + 1) (content s.cfg.cw s.rb) s.diag = r at hle ⊢
    obtain ⟨n1, k, res⟩ := r
    simp only [] at hle ⊢
    cases res with
    | none => exact ⟨rfl, hle⟩
    | some f =>
      obtain ⟨c, p⟩ := f
      obtain ⟨-, d2, d3⟩ := ringDiscard_within ha h hle
      have key := dispatchFrame_ring c p { s with diag := k } { s.rb with rd := addW s.cfg.cw s.rb.rd n1 }
      simp only [] at key ⊢
      rw [key]
      have hc : (dispatchFrame c p { s with diag := k }).cfg.cw = s.cfg.cw :=
        congrArg Config.cw (dispatchFrame_keeps c p { s with diag := k }).1
      generalize dispatchFrame c p { s with diag := k } = u at hc ⊢
      have hi := ih { u with rb := { s.rb with rd := addW s.cfg.cw s.rb.rd n1 } } ha (by simp only [hc]; exact d3)
      simp only [hc, d2, drain_ring, addW_addW, List.length_drop] at hi
      exact ⟨hi.1, by have := hi.2; omega⟩

end Sys2Proof.Laws
end

