-- ==== Sys2Proof/Laws/Split.lean ====
section
/-! SUPPORT. Where a delivery ends does not matter to what is decided (R183): the scan and the drain of a sequence in two
parts, and `TP_RX` in closed form. -/

namespace Sys2Proof.Laws

open Sys2Proof.Machine

/-! ### Enough passes and enough turns -/

theorem scan_passes {cfg : Config} {n m : Nat} {str : List Byte} (k : Counters) (hn : str.length ≤ n + 13)
    (hm : str.length ≤ m + 13) : scan cfg n str k = scan cfg m str k := by
  rcases frameAt_least cfg str with h | ⟨j, h, h'⟩
  · rw [scan_none _ _ _ _ hn h, scan_none _ _ _ _ hm h]
  · rw [scan_some _ _ _ _ j hn h h', scan_some _ _ _ _ j hm h h']

theorem drain_turns {n m : Nat} {str : List Byte} (s : State) (hn : str.length < 14 * n) (hm : str.length < 14 * m) :
    drain n str s = drain m str s := by
  induction n generalizing m str s with
  | zero => omega
  | succ n ih =>
    obtain ⟨m, rfl⟩ : ∃ x, m = x + 1 := ⟨m - 1, by omega⟩
    simp only [drain]
    cases hr : (scan s.cfg (str.length + 1) str s.diag).2.2 with
    | none => rfl
    | some f =>
      obtain ⟨h1, h2, h3⟩ := scan_length (command := f.1) (payload := f.2) hr
      simp only []
      rw [ih (m := m)]
      · simp; omega
      · simp; omega

/-! ### A sequence and what comes after it -/

/-- A window inside the first part (R129). -/
theorem frameAt_append {cfg : Config} {a : List Byte} (b : List Byte) {j : Nat} (h : j + 14 ≤ a.length) :
    frameAt cfg (a ++ b) j = frameAt cfg a j := by
  simp only [frameAt]
  have e : ((a ++ b).drop j).take frameLen = (a.drop j).take frameLen := by
    rw [List.drop_append_of_le_length (by omega),
      List.take_append_of_le_length (by simp only [List.length_drop, frameLen]; omega)]
  rw [e]
  congr 1
  simp [frameLen]; omega

theorem passOver_append (cfg : Config) {a : List Byte} (b : List Byte) (k : Counters) {j : Nat}
    (h : j + 14 ≤ a.length) : passOver cfg (a ++ b) k j = passOver cfg a k j := by
  simp only [passOver]
  rw [List.getElem?_append_left (by omega), List.getElem?_append_left (by omega)]

theorem passOvers_append (cfg : Config) {a : List Byte} (b : List Byte) {n : Nat} (k : Counters)
    (h : n + 13 ≤ a.length ∨ n = 0) : passOvers cfg (a ++ b) n k = passOvers cfg a n k := by
  induction n with
  | zero => rfl
  | succ n ih =>
    simp only [passOvers, List.range_succ, List.foldl_append, List.foldl_cons, List.foldl_nil] at ih ⊢
    rw [ih (by omega), passOver_append _ _ _ (by omega)]

theorem passOvers_add (cfg : Config) (str : List Byte) (n m : Nat) (k : Counters) :
    passOvers cfg str (n + m) k = passOvers cfg (str.drop n) m (passOvers cfg str n k) := by
  induction n generalizing str k with
  | zero => simp [passOvers]
  | succ n ih => rw [Nat.add_right_comm, passOvers_succ, ih, passOvers_succ, List.drop_drop, Nat.add_comm]

/-- Without a window in the first part, the scan goes on from its last 13 bytes when more arrives (R123, R183). -/
theorem scan_append {cfg : Config} {a : List Byte} (b : List Byte) (k : Counters) (h : ∀ j, frameAt cfg a j = false) :
    scan cfg ((a ++ b).length + 1) (a ++ b) k =
      let r := scan cfg ((a.drop (a.length - 13) ++ b).length + 1) (a.drop (a.length - 13) ++ b)
        (passOvers cfg a (a.length - 13) k)
      (a.length - 13 + r.1, r.2) := by
  have hd : a.drop (a.length - 13) ++ b = (a ++ b).drop (a.length - 13) := by
    rw [List.drop_append_of_le_length (by omega)]
  have hp : passOvers cfg a (a.length - 13) k = passOvers cfg (a ++ b) (a.length - 13) k :=
    (passOvers_append _ _ _ (by omega)).symm
  rw [hd, hp]
  generalize hn : a.length - 13 = n
  have hl : n ≤ (a ++ b).length := by simp; omega
  rcases frameAt_least cfg (a ++ b) with h1 | ⟨j, h1, h2⟩
  · have e : (a ++ b).length - 13 = n + (((a ++ b).drop n).length - 13) := by simp; omega
    rw [scan_none _ _ _ _ (by omega) h1, scan_none _ _ _ _ (by omega)]
    · rw [e, passOvers_add]
    · intro j
      rw [frameAt_drop _ _ _ _ hl]
      exact h1 _
  · have hj : n ≤ j := by
      by_contra hc
      rw [frameAt_append b (by omega), h] at h1
      exact absurd h1 (by simp)
    obtain ⟨i, rfl⟩ := Nat.exists_eq_add_of_le hj
    rw [scan_some _ _ _ _ _ (by omega) h1 h2, scan_some _ _ _ _ i (by omega)]
    · simp only [passOvers_add, List.getD_eq_getElem?_getD, List.getElem?_drop, List.drop_drop, Nat.add_assoc]
    · rw [frameAt_drop _ _ _ _ hl]; exact h1
    · intro x hx; rw [frameAt_drop _ _ _ _ hl]; exact h2 _ (by omega)

/-- The drain of two parts is the drain of the first, then of what it left and the second (R183). -/
theorem drain_append {n m : Nat} {a : List Byte} (b : List Byte) (s : State) (hn : a.length < 14 * n)
    (hm : (a ++ b).length < 14 * m) :
    let r := drain n a s
    let q := drain m (a.drop r.1 ++ b) r.2
    drain m (a ++ b) s = (r.1 + q.1, q.2) := by
  induction n generalizing m a s with
  | zero => omega
  | succ n ih =>
    obtain ⟨m, rfl⟩ : ∃ x, m = x + 1 := ⟨m - 1, by omega⟩
    rcases frameAt_least s.cfg a with h1 | ⟨j, h1, h2⟩
    · rw [drain.eq_2 _ _ n, scan_none _ _ _ _ (by omega) h1]
      simp only [drain]
      rw [scan_append _ _ h1]
      generalize scan s.cfg ((a.drop (a.length - 13) ++ b).length + 1) (a.drop (a.length - 13) ++ b)
        (passOvers s.cfg a (a.length - 13) s.diag) = r
      obtain ⟨r1, r2, r3⟩ := r
      cases r3 with
      | none => simp
      | some f =>
        simp only [Nat.add_assoc]
        rw [← List.drop_drop, List.drop_append_of_le_length (by omega)]
    · have hl := frameAt_length h1
      have hs := scan_some s.cfg ((a ++ b).length + 1) (a ++ b) s.diag j (by omega)
        (by rw [frameAt_append b hl]; exact h1)
        (by intro i hi; rw [frameAt_append b (by omega)]; exact h2 _ hi)
      have e1 : (a ++ b).getD (j + 1) 0x00#8 = a.getD (j + 1) 0x00#8 := by
        simp [List.getElem?_append_left (show j + 1 < a.length by omega)]
      have e2 : ((a ++ b).drop (j + 2)).take payloadLen = (a.drop (j + 2)).take payloadLen := by
        rw [List.drop_append_of_le_length (by omega),
          List.take_append_of_le_length (by simp only [List.length_drop, payloadLen]; omega)]
      rw [passOvers_append _ _ _ (by omega), e1, e2] at hs
      rw [drain.eq_2 _ _ n, scan_some _ _ _ _ j (by omega) h1 h2, drain.eq_2 _ _ m, hs]
      have hi := ih (m := m) (a := a.drop (j + 14))
        (dispatchFrame (a.getD (j + 1) 0x00#8) ((a.drop (j + 2)).take payloadLen)
          { s with diag := passOvers s.cfg a j s.diag }) (by simp; omega) (by simp at hm ⊢; omega)
      simp only [] at hi ⊢
      rw [List.drop_append_of_le_length (by omega), hi]
      simp only [List.drop_drop, Nat.add_assoc]
      rw [drain_turns (n := m) (m := m + 1)]
      · simp at hm ⊢; omega
      · simp at hm ⊢; omega

/-- The drain does not look at the last result. -/
theorem drain_ret (turns : Nat) (str : List Byte) (s : State) (y : Result) :
    drain turns str { s with ret := y } = ((drain turns str s).1, { (drain turns str s).2 with ret := y }) := by
  induction turns generalizing str s with
  | zero => rfl
  | succ n ih =>
    simp only [drain]
    cases (scan s.cfg (str.length + 1) str s.diag).2.2 with
    | none => rfl
    | some f =>
      have key := dispatchFrame_ret f.1 f.2 { s with diag := (scan s.cfg (str.length + 1) str s.diag).2.1 } y
      simp only [] at key ⊢
      rw [key, ih]

/-- What the drain leaves: at most 13 bytes (R123, R190). -/
theorem drain_rest {turns : Nat} {str : List Byte} (s : State) (hn : str.length < 14 * turns) :
    str.length - (drain turns str s).1 ≤ 13 ∧ (drain turns str s).1 ≤ str.length := by
  induction turns generalizing str s with
  | zero => omega
  | succ n ih =>
    simp only [drain]
    rcases frameAt_least s.cfg str with h | ⟨j, h1, h2⟩
    · rw [scan_none _ _ _ _ (by omega) h]
      simp only []
      omega
    · have hl := frameAt_length h1
      rw [scan_some _ _ _ _ j (by omega) h1 h2]
      have hi := ih (str := str.drop (j + 14))
        (dispatchFrame (str.getD (j + 1) 0x00#8) ((str.drop (j + 2)).take payloadLen)
          { s with diag := passOvers s.cfg str j s.diag }) (by simp; omega)
      simp only [List.length_drop] at hi ⊢
      omega

/-- `TP_RX`: the push, the record of what did not fit, the drain of the content the push leaves (R180). -/
theorem receiveBytes_eq (bytes : List Byte) (s : State) (ha : s.rb.allocated = true) (h : RingInv s.cfg.cw s.rb) :
    let p := ringPush s.cfg.cw s.rb bytes
    let told : State := if p.2 < bytes.length then raiseDiag (.rxOverflow (bytes.length - p.2)) s else s
    let str := content s.cfg.cw p.1
    let r := drain (str.length + 1) str told
    receiveBytes bytes s = { r.2 with rb := { p.1 with rd := addW s.cfg.cw s.rb.rd r.1 } } ∧ r.1 ≤ str.length ∧
      content s.cfg.cw { p.1 with rd := addW s.cfg.cw s.rb.rd r.1 } = str.drop r.1 ∧
      RingInv s.cfg.cw { p.1 with rd := addW s.cfg.cw s.rb.rd r.1 } := by
  intro p told str r
  obtain ⟨-, h2, -, h4, -, -, -, h8, -⟩ := ringPush_spec bytes ha h
  have hcw : told.cfg.cw = s.cfg.cw := by simp only [told]; split <;> rfl
  have key := drainFrames_eq_drain (str.length + 1) { told with rb := p.1 } h2 (by simp only [hcw]; exact h8)
  simp only [hcw, drain_ring] at key
  have e : receiveBytes bytes s = drainFrames (str.length + 1) { told with rb := p.1 } := by
    simp only [receiveBytes, str, p, ringLength_allocated h2, told]
    congr 1
    split <;> rfl
  have hrd : p.1.rd = s.rb.rd := h4
  obtain ⟨-, d2, d3⟩ := ringDiscard_within h2 h8 key.2
  rw [h4] at d2 d3
  rw [e, key.1, hrd]
  exact ⟨rfl, key.2, d2, d3⟩

end Sys2Proof.Laws
end

