-- ==== Sys2Proof/Tests/Slice0.lean ====
section
/-! SUPPORT. Tests of one step each, with the values of spec/95_test_vectors.md (its section is named with each), the words
of the decoder written out from 30_encoding.md, and for every obligation with hypotheses a state and operands that meet
them. -/

namespace Sys2Proof.Tests

open Sys2Proof.Machine

/-! ### Helpers -/

/-- The state an operation leaves. -/
def after (i : Instr) (s : State) : Option State :=
  match exec i s with
  | .next t => some t
  | .fault _ => none
  | .refused _ => none

/-- The state a step leaves. -/
def afterStep (s : State) : Option State :=
  match step s with
  | .next t => some t
  | .fault _ => none
  | .refused _ => none

def refusal (i : Instr) (s : State) : Option Refusal :=
  match exec i s with
  | .next _ => none
  | .fault _ => none
  | .refused r => some r

/-- The reset state under the spec's test configuration. -/
def resetT : State := State.resetWith Config.tcfg

/-- A ring of 8-bit cursors whose first cells hold the bytes given. -/
def ringState (cap wr rd : Nat) (cells : List Byte) : State :=
  { resetT with
    cfg := { Config.tcfg with cw := 8, rbCap := 16, rbMaxCap := 128 }
    rb := ⟨true, cap, wr, rd, cells.zipIdx.map (fun bi => (bi.2, bi.1))⟩ }

/-- Vector 2.1 after row 5: content 4 5 6 7 8. -/
def ring5 : State := ringState 8 8 3 [1, 2, 3, 4, 5, 6, 7, 8]

/-- A ring that was never allocated (R100). -/
def unallocated : State := { ring5 with rb := ⟨false, 0, 0, 0, []⟩ }

/-- `F_RD` of 95_test_vectors.md. -/
def fRd : List Byte := [0xAA, 0x10, 0x11, 0, 0, 0, 0, 0, 0, 0, 0, 0, 0xCB, 0x55]

/-- `F_ST` of 95_test_vectors.md. -/
def fSt : List Byte := [0xAA, 0x30, 0x05, 0x03, 0, 0, 0, 0, 0, 0, 0, 0, 0xE2, 0x55]

def connected : State := { resetT with tpConnected := true }

/-- `rc[CAL] = Awaiting{100, 2100}` at a time. -/
def awaitingAt (now : Nat) : State := { connected with now := now, rc := [.awaiting 100 2100] }

/-- A queue of at most two frames, and full. -/
def fullQueue : State :=
  { connected with cfg := { Config.tcfg with qDepth := some 2 }, cqItems := [fRd, fSt] }

def zeros (n : Nat) : List Byte := List.replicate n 0

/-! ### WellFormed: each check refuses a term -/

theorem test_wf_capacity_too_wide : (Instr.rbAlloc (2 ^ 32)).wf Config.tcfg = false := by decide
theorem test_wf_maxLen_too_wide : (Instr.rbPop (2 ^ 32)).wf Config.tcfg = false := by decide
theorem test_wf_peek_start_too_wide : (Instr.rbPeek (2 ^ 32) 0).wf Config.tcfg = false := by decide
theorem test_wf_peek_len_too_wide : (Instr.rbPeek 0 (2 ^ 32)).wf Config.tcfg = false := by decide
theorem test_wf_discard_too_wide : (Instr.rbDiscard (2 ^ 32)).wf Config.tcfg = false := by decide
theorem test_wf_checksum_n_too_wide : (Instr.rbChecksum (2 ^ 32) 0).wf Config.tcfg = false := by decide
theorem test_wf_checksum_m_too_wide : (Instr.rbChecksum 0 (2 ^ 32)).wf Config.tcfg = false := by decide
theorem test_wf_dispatch_length : (Instr.fcDispatch 0x10 (zeros 9)).wf Config.tcfg = false := by decide
theorem test_wf_enqueue_length : (Instr.cqEnqueue (zeros 13)).wf Config.tcfg = false := by decide
theorem test_wf_issue_kind : (Instr.rcIssue 1 []).wf Config.tcfg = false := by decide
theorem test_wf_resolve_kind : (Instr.rcResolve 1 0).wf Config.tcfg = false := by decide
theorem test_wf_expire_kind : (Instr.rcExpire 1).wf Config.tcfg = false := by decide
theorem test_wf_frame_length : (Instr.frame 0x7E (zeros 9)).wf Config.tcfg = false := by decide
theorem test_wf_frame_response_code : (Instr.frame 0x21 (zeros 10)).wf Config.tcfg = false := by decide
theorem test_wf_frame_classified_code : (Instr.frame 0x10 (zeros 10)).wf Config.tcfg = false := by decide
theorem test_wf_varRead_length : (Instr.frameVarRead 0 0 (zeros 4)).wf Config.tcfg = false := by decide
theorem test_wf_varRead_class :
    (Instr.frameVarRead 0 0 (zeros 5)).wf { Config.tcfg with cmdClass := [] } = false := by decide
theorem test_wf_status_code : (Instr.frameStatus 0x40 0 0 (zeros 8)).wf Config.tcfg = false := by decide
theorem test_wf_mode_code : (Instr.frameMode 0x30 0 (zeros 9)).wf Config.tcfg = false := by decide
theorem test_wf_response_code : (Instr.frameResponse 0x10 0 (zeros 9)).wf Config.tcfg = false := by decide
theorem test_wf_accepts :
    (Instr.rbAlloc (2 ^ 32 - 1)).wf Config.tcfg = true ∧ (Instr.rcExpire 0).wf Config.tcfg = true ∧
      (Instr.frameStatus 0x30 5 3 (zeros 8)).wf Config.tcfg = true := by decide

/-! ### Decode: one word for each constructor, written out from R84, R88 and R70 to R77 -/

theorem test_decode_reset : decode Config.tcfg (.op8 [0x00]) = .ok .reset := by decide
theorem test_decode_rbAlloc : decode Config.tcfg (.op8 [0x01, 0x08, 0x01, 0, 0]) = .ok (.rbAlloc 264) := by decide
theorem test_decode_rbPush : decode Config.tcfg (.op8 [0x02, 1, 2]) = .ok (.rbPush [1, 2]) := by decide
theorem test_decode_rbPop : decode Config.tcfg (.op8 [0x03, 3, 0, 0, 0]) = .ok (.rbPop 3) := by decide
theorem test_decode_rbPeek :
    decode Config.tcfg (.op8 [0x04, 1, 0, 0, 0, 3, 0, 0, 0]) = .ok (.rbPeek 1 3) := by decide
theorem test_decode_rbDiscard : decode Config.tcfg (.op8 [0x05, 2, 0, 0, 0]) = .ok (.rbDiscard 2) := by decide
theorem test_decode_rbChecksum :
    decode Config.tcfg (.op8 [0x06, 0, 0, 0, 0, 11, 0, 0, 0]) = .ok (.rbChecksum 0 11) := by decide
theorem test_decode_rbLength : decode Config.tcfg (.op8 [0x07]) = .ok .rbLength := by decide
theorem test_decode_fcEncode : decode Config.tcfg (.op8 [0x10, 0x20, 1]) = .ok (.fcEncode 0x20 [1]) := by decide
theorem test_decode_fcExtract : decode Config.tcfg (.op8 [0x11]) = .ok .fcExtract := by decide
theorem test_decode_fcDispatch :
    decode Config.tcfg (.op8 [0x12, 0x7E, 1, 2, 3, 4, 5, 6, 7, 8, 9, 10]) =
      .ok (.fcDispatch 0x7E [1, 2, 3, 4, 5, 6, 7, 8, 9, 10]) := by decide
theorem test_decode_cqEnqueue :
    decode Config.tcfg (.op8 [0x20, 0xAA, 0x10, 0x11, 0, 0, 0, 0, 0, 0, 0, 0, 0, 0xCB, 0x55]) =
      .ok (.cqEnqueue fRd) := by decide
theorem test_decode_cmdSubmit : decode Config.tcfg (.op8 [0x21, 0x10, 0x11]) = .ok (.cmdSubmit 0x10 [0x11]) := by
  decide
theorem test_decode_wkServe : decode Config.tcfg (.op8 [0x22, 14]) = .ok (.wkServe 14) := by decide
theorem test_decode_wkWake : decode Config.tcfg (.op8 [0x23]) = .ok .wkWake := by decide
theorem test_decode_ctlShutdown : decode Config.tcfg (.op8 [0x24]) = .ok .ctlShutdown := by decide
theorem test_decode_rcIssue : decode Config.tcfg (.op8 [0x30, 0, 1, 2]) = .ok (.rcIssue 0 [1, 2]) := by decide
theorem test_decode_rcResolve : decode Config.tcfg (.op8 [0x31, 0, 0x7F]) = .ok (.rcResolve 0 0x7F) := by decide
theorem test_decode_rcExpire : decode Config.tcfg (.op8 [0x32, 0]) = .ok (.rcExpire 0) := by decide
theorem test_decode_tpRx : decode Config.tcfg (.op8 [0x40, 0xAA, 0x10]) = .ok (.tpRx [0xAA, 0x10]) := by decide
theorem test_decode_tpConnect : decode Config.tcfg (.op8 [0x41]) = .ok .tpConnect := by decide
theorem test_decode_tpDisconnect : decode Config.tcfg (.op8 [0x42]) = .ok .tpDisconnect := by decide
theorem test_decode_tick : decode Config.tcfg (.op8 [0x43]) = .ok .tick := by decide

/-- 0x7E has no class and is no response code: sum 0xAA + 0x7E + 6 = 0x12E. -/
theorem test_decode_frame :
    decode Config.tcfg (.frame14 [0xAA, 0x7E, 1, 2, 3, 0, 0, 0, 0, 0, 0, 0, 0x2E, 0x55]) =
      .ok (.frame 0x7E [1, 2, 3, 0, 0, 0, 0, 0, 0, 0]) := by decide
/-- `F_RD7`: R74's identifier 0x07 and value 0x12345678, the table's word read from its first character on (R72). -/
theorem test_decode_frameVarRead :
    decodeTableWord 112 0xAA1007785634120000000000D555 = some (.frameVarRead 0x07 0x12345678 (zeros 5)) := by decide
/-- R72 has one numbering, whatever `FOOTER` is: with `FOOTER = HEADER` (R4 (g)), and for a word that is no frame but ends
in `HEADER`. -/
theorem test_frameWord_numbering :
    decode { Config.tcfg with footer := 0xAA }
        (tableTransaction { Config.tcfg with footer := 0xAA } 112 0xAA7E010203_00000000000000_2EAA) =
        .ok (.frame 0x7E [1, 2, 3, 0, 0, 0, 0, 0, 0, 0]) ∧
      decode Config.tcfg (tableTransaction Config.tcfg 112 0xAA) = .error (.notAFrame .header) := by decide
/-- R3's default of `CMD_CLASS` is the reset state's: 0x30 and 0x40 have no class. -/
theorem test_default_classes :
    classOf State.reset.cfg 0x10 = .varRead ∧ classOf State.reset.cfg 0x30 = .unclassified ∧
      classOf State.reset.cfg 0x40 = .unclassified := by decide
theorem test_decode_frameStatus :
    decode Config.tcfg (.frame14 [0xAA, 0x30, 5, 3, 0, 0, 0, 0, 0, 0, 0, 0, 0xE2, 0x55]) =
      .ok (.frameStatus 0x30 5 3 (zeros 8)) := by decide
theorem test_decode_frameMode :
    decode Config.tcfg (.frame14 [0xAA, 0x40, 2, 0, 0, 0, 0, 0, 0, 0, 0, 0, 0xEC, 0x55]) =
      .ok (.frameMode 0x40 2 (zeros 9)) := by decide
theorem test_decode_frameResponse :
    decode Config.tcfg (.frame14 [0xAA, 0x21, 0x7F, 0, 0, 0, 0, 0, 0, 0, 0, 0, 0x4A, 0x55]) =
      .ok (.frameResponse 0x21 0x7F (zeros 9)) := by decide

/-- The four ways a 14-byte window is no frame, and the order of the tests (R79, R209 (a)). -/
theorem test_decode_rejects_windows :
    decode Config.tcfg (.frame14 (zeros 13)) = .error (.notAFrame .length) ∧
      decode Config.tcfg (.frame14 (fRd.set 0 0xAB)) = .error (.notAFrame .header) ∧
      decode Config.tcfg (.frame14 ((fRd.set 13 0x54).set 12 0)) = .error (.notAFrame .footer) ∧
      decode Config.tcfg (.frame14 (fRd.set 12 0xCC)) = .error (.notAFrame .checksum) := by decide
theorem test_decode_rejects_operands :
    decode Config.tcfg (.op8 []) = .error .empty ∧
      decode Config.tcfg (.op8 [0x08]) = .error (.reservedOp 0x08) ∧
      decode Config.tcfg (.op8 [0x01, 8]) = .error (.operandFormat .rbAlloc) ∧
      decode Config.tcfg (.op8 [0x00, 0]) = .error (.operandFormat .reset) ∧
      decode { Config.tcfg with cw := 31 } (.op8 [0x03, 0, 0, 0, 0x80]) = .error (.operandTooWide .rbPop) ∧
      decode Config.tcfg (.op8 [0x32, 1]) = .error (.noSuchKind .rcExpire 1) := by decide

/-! ### One step of each operation -/

/-- Section 2.1 row 22 and its list of capacities. -/
theorem test_rbAlloc_reinitialises :
    ((after (.rbAlloc 4) ring5).map fun t => (t.rb, t.ret)) = some (⟨true, 4, 0, 0, []⟩, .ok true) := by decide
theorem test_rbAlloc_fails_intact : after (.rbAlloc 12) ring5 = some { ring5 with ret := .ok false } := by decide
/-- Section 2.1 row 11: across the physical end. -/
theorem test_rbPush_straddles :
    ((after (.rbPush [11, 12]) ring5).map fun t => (t.rb.wr, t.rb.mem.map Prod.snd, t.ret)) =
      some (10, [11, 12, 3, 4, 5, 6, 7, 8], .count 2) := by decide
/-- Section 2.2 row 1: across the wrap of an 8-bit cursor. -/
theorem test_rbPush_cursor_wraps :
    ((after (.rbPush [0x41, 0x42, 0x43, 0x44, 0x45, 0x46, 0x47, 0x48, 0x49, 0x4A]) (ringState 16 250 250 [])).map
      fun t => (t.rb.wr, t.rb.mem.head?, ringLength 8 t.rb)) = some (4, some (0, 0x47), 10) := by decide
/-- Section 2.1 row 18: clamped. -/
theorem test_rbPop_clamps :
    ((after (.rbPop 9) ring5).map fun t => (t.rb.rd, t.ret)) = some (8, .bytes [4, 5, 6, 7, 8]) := by decide
/-- Section 2.1 row 6. -/
theorem test_rbPeek : after (.rbPeek 1 3) ring5 = some { ring5 with ret := .bytes [5, 6, 7] } := by decide
/-- Section 2.1 row 10: 255 + 2 does not wrap. -/
theorem test_rbPeek_no_wrap : after (.rbPeek 0xFF 2) ring5 = some { ring5 with ret := .bytes [] } := by decide
/-- Section 2.1 row 16. -/
theorem test_rbDiscard : ((after (.rbDiscard 2) ring5).map fun t => (t.rb.rd, t.ret)) = some (5, .count 2) := by decide
/-- The rows 13 and 14 of section 2.1 on row 5's content: offset 2 holds 6; the empty range gives 0. -/
theorem test_rbChecksum_one : after (.rbChecksum 2 2) ring5 = some { ring5 with ret := .sum 6 } := by decide
theorem test_rbChecksum_empty : after (.rbChecksum 5 2) ring5 = some { ring5 with ret := .sum 0 } := by decide
/-- Section 2.2, the last line: wr 3, rd 0xFE. -/
theorem test_rbLength_wraps : ((after .rbLength (ringState 16 3 0xFE [])).map fun t => t.ret) = some (.count 5) := by
  decide
/-- Section 2.5. -/
theorem test_fcEncode_pads :
    ((after (.fcEncode 0x10 [0x11]) resetT).map fun t => (t.ret, t.diagTrace, t.diag.normalized)) =
      some (.frame fRd, [.normalized 1], 1) := by decide
theorem test_fcEncode_truncates :
    ((after (.fcEncode 0x55 (List.replicate 12 0xAA)) resetT).map fun t => t.ret) =
      some (.frame ([0xAA, 0x55] ++ List.replicate 10 0xAA ++ [0xA3, 0x55])) := by decide
/-- R122's example. -/
theorem test_fcExtract_skips_noise :
    ((after .fcExtract (ringState 16 15 0 (0 :: fRd))).map fun t => (t.ret, t.rb.rd, t.diag.resyncHeader)) =
      some (.decoded 0x10 (0x11 :: zeros 9), 15, 1) := by decide
/-- Section 2.7: the value is unsigned. -/
theorem test_fcDispatch_value :
    ((after (.fcDispatch 0x10 ([0x11, 0xFF, 0xFF, 0xFF, 0xFF] ++ zeros 5)) resetT).map fun t => t.ev) =
      some [.onVariableRead 0x11 4294967295] := by decide
theorem test_fcDispatch_unknown :
    ((after (.fcDispatch 0x7E ([1, 2, 3] ++ zeros 7)) resetT).map fun t => (t.diagTrace, t.diag.unknownCmd)) =
      some ([.unknownCommand 0x7E], 1) := by decide
/-- R140's example, and section 2.8's full queue. -/
theorem test_cqEnqueue :
    ((after (.cqEnqueue fSt) { resetT with cqItems := [fRd] }).map fun t => (t.cqItems, t.ret)) =
      some ([fRd, fSt], .ok true) := by decide
theorem test_cqEnqueue_full : after (.cqEnqueue fRd) fullQueue = some { fullQueue with ret := .ok false } := by decide
/-- R141's example. -/
theorem test_cmdSubmit :
    ((after (.cmdSubmit 0x10 [0x11]) resetT).map fun t => (t.cqItems, t.diagTrace, t.ret)) =
      some ([fRd], [.normalized 1], .accepted true) := by decide
/-- Section 1.2 step 4. -/
theorem test_cmdSubmit_duplicate :
    after (.cmdSubmit 0x20 [1, 2, 3]) (awaitingAt 150) = some { awaitingAt 150 with ret := .accepted false } := by
  decide
/-- R143's example. -/
theorem test_wkServe :
    ((after (.wkServe 14) { connected with now := 7, cqItems := [fRd, fSt] }).map
      fun t => (t.tx, t.cqItems, t.wkState, t.wkWakeAt)) = some ([⟨7, fRd⟩], [fSt], .sleep, 17) := by decide
/-- R145's example: shutdown wins, unconnected. -/
theorem test_wkServe_exits :
    ((after (.wkServe 14) { resetT with ctlStop := true, cqItems := [fRd] }).map
      fun t => (t.wkState, t.cqItems, t.tx)) = some (.exited, [fRd], []) := by decide
/-- R144's example. -/
theorem test_wkWake :
    ((after .wkWake { connected with wkState := .sleep, wkWakeAt := 17, now := 17 }).map fun t => t.wkState) =
      some .wait := by decide
theorem test_wkWake_early :
    ((after .wkWake { connected with wkState := .sleep, wkWakeAt := 17, now := 16 }).map fun t => t.wkState) =
      some .sleep := by decide
theorem test_ctlShutdown : after .ctlShutdown connected = some { connected with ctlStop := true } := by decide
/-- R161's example: `F_REQ`. -/
theorem test_rcIssue :
    ((after (.rcIssue 0 []) { connected with now := 100 }).map fun t => (t.rc, t.cqItems, t.ret)) =
      some ([.awaiting 100 2100], [[0xAA, 0x20] ++ zeros 10 ++ [0xCA, 0x55]], .accepted true) := by decide
theorem test_rcIssue_unconnected :
    after (.rcIssue 0 []) resetT = some { resetT with ret := .accepted false } := by decide
/-- R163's example. -/
theorem test_rcResolve_ok :
    ((after (.rcResolve 0 0) (awaitingAt 340)).map fun t => (t.rc, t.out)) =
      some ([.idle], [⟨0, true, .ok, some 0⟩]) := by decide
theorem test_rcResolve_specific :
    ((after (.rcResolve 0 2) (awaitingAt 340)).map fun t => t.out) =
      some [⟨0, false, .deviceSpecific, some 2⟩] := by decide
/-- R166's example. -/
theorem test_rcExpire :
    ((after (.rcExpire 0) (awaitingAt 2100)).map fun t => (t.rc, t.out, t.diagTrace)) =
      some ([.idle], [⟨0, false, .timeout, none⟩], [.timeout 0]) := by decide
/-- Vector X4 of section 2.6.1: the footer is wrong, one byte is dropped. -/
theorem test_tpRx_footer_miss :
    ((after (.tpRx (fRd.set 13 0x54)) resetT).map fun t => (t.rb.wr, t.rb.rd, t.diag.resyncFooter, t.ev)) =
      some (14, 1, 1, []) := by decide
/-- Section 2.6.4, the separate case: 12 of 28 bytes are lost. -/
theorem test_tpRx_overflow :
    ((after (.tpRx (fRd ++ fRd)) (ringState 16 0 0 [])).map fun t => (t.rb.wr, t.rb.rd, t.diagTrace, t.ev)) =
      some (16, 14, [.rxOverflow 12], [.onVariableRead 0x11 0]) := by decide
theorem test_tpConnect : after .tpConnect resetT = some connected := by decide
theorem test_tpDisconnect : after .tpDisconnect connected = some resetT := by decide
/-- R186's example, and the tick before it. -/
theorem test_tick_expires :
    ((after .tick (awaitingAt 2099)).map fun t => (t.now, t.rc, t.out)) =
      some (2100, [.idle], [⟨0, false, .timeout, none⟩]) := by decide
theorem test_tick_early : ((after .tick (awaitingAt 2098)).map fun t => (t.now, t.rc)) =
    some (2099, [.awaiting 100 2100]) := by decide
/-- R230's example. -/
theorem test_reset : after .reset { awaitingAt 340 with wkState := .exited, ctlStop := true } = some resetT := by
  decide
/-- Vector X8 of section 2.6.1, frame by frame: `F_UNK`, `F_RD7`, `F_ST`, `F_MD`; and a late `F_OK` (R168). -/
theorem test_frame :
    ((after (.frame 0x7E ([1, 2, 3] ++ zeros 7)) resetT).map fun t => (t.rb.rd, t.diagTrace)) =
      some (14, [.unknownCommand 0x7E]) := by decide
theorem test_frameVarRead :
    ((after (.frameVarRead 0x07 0x12345678 (zeros 5)) resetT).map fun t => t.ev) =
      some [.onVariableRead 0x07 0x12345678] := by decide
theorem test_frameStatus :
    ((after (.frameStatus 0x30 5 3 (zeros 8)) resetT).map fun t => t.ev) =
      some [.onStatusReport 0x30 5 3] := by decide
theorem test_frameMode :
    ((after (.frameMode 0x40 2 (zeros 9)) resetT).map fun t => t.ev) = some [.onModeReport 2] := by decide
theorem test_frameResponse :
    ((after (.frameResponse 0x21 0x7F (zeros 9)) (awaitingAt 340)).map fun t => (t.rc, t.out)) =
      some ([.idle], [⟨0, false, .unknownCode, some 0x7F⟩]) := by decide
theorem test_frameResponse_unsolicited :
    ((after (.frameResponse 0x21 0 (zeros 9)) resetT).map fun t => (t.out, t.diagTrace)) =
      some ([], [.unsolicitedResponse 0 0x21]) := by decide
/-- The refusals of operands outside their type (log 19). -/
theorem test_refusals :
    refusal (.rcIssue 1 []) connected = some .noSuchKind ∧
      refusal (.fcDispatch 0x10 (zeros 9)) connected = some .operandLength := by decide

/-! ### Witnesses: a state and operands that meet the hypotheses of each obligation together -/

/-- Section 2.1 row 3: the ring full. -/
def ringFull : State := ringState 8 8 0 [1, 2, 3, 4, 5, 6, 7, 8]

/-- A ring of 16 cells whose content is the bytes given. -/
def holding (bytes : List Byte) : State := ringState 16 bytes.length 0 bytes

/-- An empty ring of 16 cells, the kinds and classes of `TCFG`. -/
def emptyRing : State := holding []

def scheduled (t : Transaction) (s : State) : State := { s with sched := [t] }

theorem witness_DecodeOfEncodeIsIdentity :
    (Instr.rbAlloc (2 ^ 32 - 1)).wf Config.tcfg = true ∧
      (Instr.frameVarRead 0xFF 0xFFFFFFFF (zeros 5)).wf Config.tcfg = true ∧
      (Instr.frame 0x00 (zeros 10)).wf Config.tcfg = true := by decide

theorem witness_DecodedOperationsAreWellFormed :
    decode Config.tcfg (.op8 [0x03, 0xFF, 0xFF, 0xFF, 0xFF]) = .ok (.rbPop (2 ^ 32 - 1)) := by decide

theorem witness_DecodedTransactionsEncodeBack :
    decode Config.tcfg (.frame14 fSt) = .ok (.frameStatus 0x30 5 3 (zeros 8)) ∧
      ∀ w, Instr.frameStatus 0x30 5 3 (zeros 8) ≠ .wkServe w :=
  ⟨by decide, fun _ h => Instr.noConfusion h⟩

theorem witness_StepRunsTheDecodedOperation :
    configWf (scheduled (.op8 [0x43]) resetT).cfg = true ∧
      (scheduled (.op8 [0x43]) resetT).sched = .op8 [0x43] :: [] ∧
      decode Config.tcfg (.op8 [0x43]) = .ok .tick ∧
      decode Config.tcfg (tableTransaction Config.tcfg 8 0x43) = .ok .tick := by decide

theorem witness_StepsThatRunNoOperation_config :
    configWf { Config.tcfg with rbCap := 8 } = false ∧ configWf resetT.cfg = true ∧ resetT.sched = [] := by
  decide

theorem witness_StepsThatRunNoOperation_errors :
    decode Config.tcfg (.op8 [0x44]) = .error (.reservedOp 0x44) ∧
      decode Config.tcfg (.frame14 (zeros 14)) = .error (.notAFrame .header) ∧
      decode Config.tcfg (.op8 []) = .error .empty ∧
      decode Config.tcfg (.op8 [0x43, 0]) = .error (.operandFormat .tick) ∧
      decode { Config.tcfg with cw := 31 } (.op8 [0x01, 0, 0, 0, 0x80]) = .error (.operandTooWide .rbAlloc) ∧
      decode Config.tcfg (.op8 [0x30, 1]) = .error (.noSuchKind .rcIssue 1) := by decide

theorem witness_StepsThatRunNoOperation_reserved :
    (scheduled (.op8 [0x44]) resetT).sched = .op8 [0x44] :: [] ∧
      afterStep (scheduled (.op8 [0x44]) resetT) = some { resetT with ret := .failure } := by decide

theorem witness_StateInvHoldsAtReset :
    configWf Config.tcfg = true ∧ configWf { Config.tcfg with cw := 5, rbCap := 16, rbMaxCap := 16 } = true := by
  decide

theorem witness_EveryStepKeepsTheStateInvariant :
    StateInv (scheduled (.op8 (0x40 :: fRd)) resetT) ∧
      (afterStep (scheduled (.op8 (0x40 :: fRd)) resetT)).isSome = true := by decide

theorem witness_RingInvariantAtResetAndEveryStep :
    RingInv ringFull.cfg.cw (scheduled (.op8 [0x02, 9]) ringFull).rb ∧
      (afterStep (scheduled (.op8 [0x02, 9]) ringFull)).isSome = true := by decide

theorem witness_EveryStepKeepsThePacingLaw :
    PacingInv { scheduled (.op8 [0x22, 14]) connected with tx := [⟨0, fRd⟩, ⟨10, fRd⟩], now := 20, cqItems := [fSt] } ∧
      (afterStep { scheduled (.op8 [0x22, 14]) connected with
        tx := [⟨0, fRd⟩, ⟨10, fRd⟩], now := 20, cqItems := [fSt] }).map (fun t => t.tx[2]?) =
          some (some ⟨20, fSt⟩) := by decide

theorem witness_EveryWellFormedOperationCompletes :
    (Instr.rcExpire 0).wf (awaitingAt 2100).cfg = true ∧ (after (.rcExpire 0) (awaitingAt 2100)).isSome = true := by
  decide

theorem witness_OperationsWriteOnlyTheirOwnElements :
    (after (.rbPop 3) ring5).isSome = true ∧ Element.ringWriteSide ∉ mayWrite (.rbPop 3) := by decide

theorem witness_OnlyPushedCellsOfTheStorageChange :
    (∀ c, Instr.rbPush [11, 12] ≠ .rbAlloc c) ∧ Instr.rbPush [11, 12] ≠ .reset ∧
      (after (.rbPush [11, 12]) ring5).isSome = true ∧
      storedCells ring5 (pushedBytes ring5.cfg (.rbPush [11, 12])) = [0, 1] ∧
      2 ∉ storedCells ring5 (pushedBytes ring5.cfg (.rbPush [11, 12])) :=
  ⟨fun _ h => Instr.noConfusion h, by decide, by decide, by decide, by decide⟩

theorem witness_TracesOnlyGrow : Instr.tick ≠ .reset ∧ (after .tick (awaitingAt 2099)).isSome = true := by decide

theorem witness_ResetWritesTheConstructionValues : configWf (awaitingAt 340).cfg = true := by decide

/-- Clause by clause: 0; 3, no power of two; 256 above `RB_MAXCAP` 128; then 1, 2 and 128. -/
theorem witness_RbAllocMakesAFreshRingOrFails :
    isPow2 3 = false ∧ ring5.cfg.rbMaxCap < 256 ∧ 1 = 2 ^ 0 ∧ 128 = 2 ^ 7 ∧ 128 ≤ ring5.cfg.rbMaxCap ∧
      (after (.rbAlloc 3) ring5).map State.ret = some (.ok false) ∧
      (after (.rbAlloc 256) ring5).map State.ret = some (.ok false) ∧
      (after (.rbAlloc 1) ring5).map State.ret = some (.ok true) ∧
      (after (.rbAlloc 128) ring5).map State.ret = some (.ok true) := by decide

/-- Three is no power of two, as the statement says it. -/
theorem witness_RbAllocMakesAFreshRingOrFails_three : ∀ k, 3 ≠ 2 ^ k := by
  intro k
  rcases k with _ | _ | k
  · decide
  · decide
  · have : 2 ^ (k + 2) = 4 * 2 ^ k := by ring
    omega

theorem witness_RbPushAppendsWhatFits :
    (ring5.rb.allocated = true ∧ RingInv ring5.cfg.cw ring5.rb) ∧
      ringFull.rb.allocated = true ∧ RingInv ringFull.cfg.cw ringFull.rb := by decide

theorem witness_RbPopRemovesTheOldestBytes :
    ring5.rb.allocated = true ∧ RingInv ring5.cfg.cw ring5.rb ∧ content ring5.cfg.cw ring5.rb = [4, 5, 6, 7, 8] := by
  decide

theorem witness_RbPeekIsAllOrNothing :
    ring5.rb.allocated = true ∧ 3 + 3 > (content ring5.cfg.cw ring5.rb).length ∧
      0 + 5 ≤ (content ring5.cfg.cw ring5.rb).length := by decide

theorem witness_RbDiscardDropsTheOldestBytes :
    ringFull.rb.allocated = true ∧ RingInv ringFull.cfg.cw ringFull.rb := by decide

/-- Clause by clause at the length 5: an empty range, m = 5, m = 4. -/
theorem witness_RbChecksumSumsARange :
    ring5.rb.allocated = true ∧ 5 > 2 ∧ (0 ≤ 5 ∧ 5 ≥ (content ring5.cfg.cw ring5.rb).length) ∧
      (0 ≤ 4 ∧ 4 < (content ring5.cfg.cw ring5.rb).length) := by decide

theorem witness_RbLengthCountsTheContent :
    ringFull.rb.allocated = true ∧ RingInv ringFull.cfg.cw ringFull.rb := by decide

theorem witness_UnallocatedRingRefuses : unallocated.rb.allocated = false := by decide

theorem witness_RingTransfersSplit : ring5.rb.allocated = true ∧ RingInv ring5.cfg.cw ring5.rb := by decide

/-- A partial pop, and the full one. -/
theorem witness_PopThenPushRotatesTheContent :
    ring5.rb.allocated = true ∧ RingInv ring5.cfg.cw ring5.rb ∧ 2 ≤ (content ring5.cfg.cw ring5.rb).length ∧
      5 = (content ring5.cfg.cw ring5.rb).length := by decide

/-- The content 4 5 6 7 8 at offset 3 of a full turn, and at the start of the storage. -/
theorem witness_CursorPlacementIsUnobservable :
    StatesAlike ring5 (ringState 8 5 0 [4, 5, 6, 7, 8]) ∧ RingInv ring5.cfg.cw ring5.rb ∧
      RingInv 8 (ringState 8 5 0 [4, 5, 6, 7, 8]).rb ∧ 4 < (content ring5.cfg.cw ring5.rb).length ∧
      (after (.rbChecksum 0 4) ring5).isSome = true := by decide

/-- Both clauses: ten bytes, and not ten. -/
theorem witness_FcEncodeBuildsTheFrame : (zeros 10).length = 10 ∧ ([] : List Byte).length ≠ 10 := by decide

theorem witness_EncodedAndExtractedFramesAreValid :
    (holding (0 :: fRd)).rb.allocated = true ∧ RingInv 8 (holding (0 :: fRd)).rb ∧
      (after .fcExtract (holding (0 :: fRd))).map State.ret = some (.decoded 0x10 (0x11 :: zeros 9)) := by decide

theorem witness_FcExtractGoesPassByPass_rings :
    ∀ w ∈ [fRd.take 13, fRd.set 0 0xAB, fRd.set 13 0x54, fRd.set 12 0xCC, fRd],
      (holding w).rb.allocated = true ∧ RingInv 8 (holding w).rb := by decide

/-- The five clauses in turn: 13 bytes, a wrong header, a wrong footer, a wrong checksum, a frame. -/
theorem witness_FcExtractGoesPassByPass :
    (content 8 (holding (fRd.take 13)).rb).length < 14 ∧
      (content 8 (holding (fRd.set 0 0xAB)).rb)[0]? ≠ some 0xAA ∧
      (content 8 (holding (fRd.set 13 0x54)).rb)[13]? ≠ some 0x55 ∧
      (content 8 (holding (fRd.set 12 0xCC)).rb)[12]? ≠ some (csum (content 8 (holding (fRd.set 12 0xCC)).rb)) ∧
      RingInv 8 (holding fRd).rb ∧ (content 8 (holding fRd).rb)[0]? = some 0xAA ∧
      (content 8 (holding fRd).rb)[13]? = some 0x55 ∧
      (content 8 (holding fRd).rb)[12]? = some (csum (content 8 (holding fRd).rb)) := by decide

/-- A frame after one byte of noise; the clause without a valid window is met by 14 zero bytes. -/
theorem witness_FcExtractReturnsTheFirstValidWindow :
    (holding (0 :: fRd)).rb.allocated = true ∧ RingInv 8 (holding (0 :: fRd)).rb ∧
      frameAt Config.tcfg (content 8 (holding (0 :: fRd)).rb) 1 = true ∧
      ∀ i < 1, frameAt Config.tcfg (content 8 (holding (0 :: fRd)).rb) i = false := by decide

theorem witness_FcExtractReturnsTheFirstValidWindow_none :
    (holding (zeros 14)).rb.allocated = true ∧ RingInv 8 (holding (zeros 14)).rb ∧
      ∀ j, frameAt (holding (zeros 14)).cfg (content 8 (holding (zeros 14)).rb) j = false := by
  refine ⟨by decide, by decide, fun j => ?_⟩
  rcases j with _ | j
  · decide
  · have e : (content 8 (holding (zeros 14)).rb).length = 14 := by decide
    simp only [frameAt, e, frameLen]
    have : ¬ (j + 1 + 14 ≤ 14) := by omega
    simp [this]

theorem witness_SingleByteCorruptionIsRejected :
    (holding (fRd.set 13 0x54 ++ [1])).rb.allocated = true ∧ RingInv 8 (holding (fRd.set 13 0x54 ++ [1])).rb ∧
      validFrame Config.tcfg fRd = true ∧ fRd[13]? ≠ some 0x54 ∧
      content 8 (holding (fRd.set 13 0x54 ++ [1])).rb = fRd.set 13 0x54 ++ [1] := by decide

theorem witness_SmallRingNeverYieldsAFrame :
    ring5.rb.allocated = true ∧ RingInv ring5.cfg.cw ring5.rb ∧ ring5.rb.cap < 14 := by decide

/-- The whole premise for a code that is no kind's, and for an awaiting and an idle kind's. -/
theorem witness_FcDispatchDoesBothLookUps_noKind :
    false = false ∧ connected = connected ∧ ∀ kp ∈ connected.cfg.kinds, kp.respCmd ≠ 0x10 := by decide

theorem witness_FcDispatchDoesBothLookUps_awaiting :
    ∃ k kp, (awaitingAt 340).cfg.kinds[k]? = some kp ∧ kp.respCmd = 0x21 ∧ rcOf (awaitingAt 340) k ≠ .idle ∧
      (resolveByStatus kp k 0 (awaitingAt 340)).rc = [.idle] :=
  ⟨0, { reqCmd := 0x20, respCmd := 0x21, failCode := 0x02 }, by decide, by decide, by decide, by decide⟩

theorem witness_FcDispatchDoesBothLookUps_idle :
    ∃ k kp, connected.cfg.kinds[k]? = some kp ∧ kp.respCmd = 0x21 ∧ rcOf connected k = .idle :=
  ⟨0, { reqCmd := 0x20, respCmd := 0x21, failCode := 0x02 }, by decide, by decide, by decide⟩

/-- The other premises, and each class. -/
theorem witness_FcDispatchDoesBothLookUps :
    (Config.tcfg.kinds.map KindParams.respCmd).Nodup ∧ (zeros 10).length = 10 ∧
      (∀ kp ∈ Config.tcfg.kinds, kp.respCmd ≠ 0x10) ∧ Config.tcfg.kinds[0]?.map KindParams.respCmd = some 0x21 ∧
      rcOf (awaitingAt 340) 0 ≠ .idle ∧ rcOf connected 0 = .idle ∧
      classOf Config.tcfg 0x10 = .varRead ∧ classOf Config.tcfg 0x30 = .status ∧
      classOf Config.tcfg 0x40 = .mode ∧ classOf Config.tcfg 0x21 = .unclassified := by decide

theorem witness_ReadVariableValueIsLittleEndian :
    (zeros 5).length = 5 ∧ classOf resetT.cfg 0x10 = .varRead ∧
      ∀ kp ∈ resetT.cfg.kinds, kp.respCmd ≠ 0x10 := by decide

/-- Full, and one short of full. -/
theorem witness_CqEnqueueAppendsTheFrame :
    fRd.length = 14 ∧ fullQueue.cfg.qDepth = some 2 ∧ fullQueue.cqItems.length ≥ 2 ∧
      { fullQueue with cqItems := [fRd] }.cqItems.length < 2 := by decide

theorem witness_CmdSubmitQueuesOrIssues :
    (connected.cfg.kinds.map KindParams.reqCmd).Nodup ∧
      connected.cfg.kinds[0]?.map KindParams.reqCmd = some 0x20 ∧
      (∀ kp ∈ fullQueue.cfg.kinds, kp.reqCmd ≠ 0x10) ∧ fullQueue.cfg.qDepth = some 2 ∧
      fullQueue.cqItems.length ≥ 2 ∧ connected.cfg.qDepth = none := by decide

theorem witness_WkServeExitsOrSendsTheOldestFrame :
    fullQueue.wkState = .wait ∧ fullQueue.ctlStop = false ∧ fullQueue.tpConnected = true ∧
      fullQueue.cqItems = fRd :: [fSt] ∧ { fullQueue with ctlStop := true }.wkState = .wait := by decide

theorem witness_WkWakeEndsTheSleep :
    { connected with wkState := .sleep, wkWakeAt := 17, now := 17 }.wkState = .sleep ∧ 17 ≥ 17 := by decide

/-- Each clause: an empty queue; unconnected; asleep; awake; not yet time; idle; not yet due. -/
theorem witness_DisabledInternalStepsChangeNothing :
    connected.cqItems = [] ∧ connected.ctlStop = false ∧ resetT.tpConnected = false ∧ connected.wkState ≠ .sleep ∧
      { connected with wkState := .sleep }.wkState ≠ .wait ∧ 16 < 17 ∧ 0 < connected.cfg.kinds.length ∧
      rcOf connected 0 = .idle ∧ rcOf (awaitingAt 2099) 0 = .awaiting 100 2100 ∧ (awaitingAt 2099).now < 2100 := by
  decide

theorem witness_DisconnectionOnlyDelays :
    { resetT with cqItems := [fRd] }.tpConnected = false ∧ { resetT with cqItems := [fRd] }.ctlStop = false ∧
      Instr.cqEnqueue fSt ≠ .reset ∧ (after (.cqEnqueue fSt) { resetT with cqItems := [fRd] }).isSome = true ∧
      { resetT with cqItems := [fRd] }.wkState = .wait ∧ [fRd] ≠ [] := by decide

theorem witness_FramesLeaveInEnqueueOrder :
    Instr.reset ∉ [Instr.cqEnqueue fRd, .tpConnect] ∧
      ((runOps [.cqEnqueue fRd, .tpConnect] resetT).bind (after (.wkServe 14))).map sentThenQueued =
        some [fRd] := by decide

theorem witness_ExitedWorkerNeverStepsAgain :
    { connected with wkState := .exited, cqItems := [fRd] }.wkState = .exited ∧
      Instr.reset ∉ [Instr.cqEnqueue fSt, .tick] ∧
      (runOps [.cqEnqueue fSt, .tick] { connected with wkState := .exited, cqItems := [fRd] }).isSome = true := by
  decide

theorem witness_FullQueueRefuses :
    fRd.length = 14 ∧ fullQueue.cfg.qDepth = some 2 ∧ fullQueue.cqItems.length ≥ 2 ∧ 0 < fullQueue.cfg.kinds.length ∧
      connected.cfg.qDepth = none ∧ ∀ kp ∈ connected.cfg.kinds, kp.reqCmd ≠ 0x10 := by decide

theorem witness_QueuedFramesAllLeavePaced :
    resetT.wkState = .wait ∧ resetT.ctlStop = false ∧ resetT.tpConnected = false ∧
      resetT.cqItems = [] ∧ resetT.cfg.qDepth = none ∧ ∀ f ∈ [fRd, fSt], f.length = 14 := by decide

/-- The worker asleep after a send, and shutdown requested. -/
theorem witness_ShutdownCompletesWithinOnePacingInterval :
    PacingInv { connected with
        tx := [⟨7, fRd⟩], now := 9, wkState := .sleep, wkWakeAt := 17, ctlStop := true } ∧
      { connected with ctlStop := true }.ctlStop = true := by decide

/-- The kind idle, connected and with room; awaiting; unconnected; full. -/
theorem witness_RcIssueArmsAndQueuesOrIsRejected :
    connected.cfg.kinds[0]?.isSome = true ∧ connected.rc.length = connected.cfg.kinds.length ∧
      rcOf connected 0 = .idle ∧ connected.tpConnected = true ∧ connected.cfg.qDepth = none ∧
      rcOf (awaitingAt 150) 0 ≠ .idle ∧ resetT.tpConnected = false ∧ fullQueue.cfg.qDepth = some 2 ∧
      fullQueue.cqItems.length ≥ 2 := by decide

theorem witness_RcResolveReportsTheStatus :
    (awaitingAt 340).cfg.kinds[0]?.isSome = true ∧ rcOf (awaitingAt 340) 0 = .awaiting 100 2100 := by decide

theorem witness_RcExpireReportsTheTimeout :
    0 < (awaitingAt 2100).cfg.kinds.length ∧ rcOf (awaitingAt 2100) 0 = .awaiting 100 2100 ∧
      (awaitingAt 2100).now ≥ 2100 := by decide

theorem witness_TickAdvancesTimeAndExpiresRequests :
    (awaitingAt 2099).rc.length = (awaitingAt 2099).cfg.kinds.length := by decide

/-- Kind `CAL` with a timeout of two ticks. -/
def quick : State :=
  { connected with cfg := { Config.tcfg with kinds := [⟨0x20, 0x21, 0x02, 2⟩] } }

/-- Operations of three other agents and an arrival that is no response of the kind, with one of the two ticks. -/
def otherWork : List Instr := [.wkServe 14, .tick, .tpRx fRd, .tpDisconnect]

/-- The run before the last tick, and the last tick. -/
theorem witness_UnansweredRequestTimesOut :
    (quick.cfg.kinds[0]?.map KindParams.timeoutTicks = some 2 ∧ quick.rc.length = quick.cfg.kinds.length ∧
      rcOf quick 0 = .idle ∧ quick.tpConnected = true ∧ quick.cfg.qDepth = none) ∧
    (∀ i ∈ otherWork, i.wf quick.cfg = true ∧ i ≠ .reset) ∧ otherWork.count .tick + 1 = 2 ∧
    ((runOps (.rcIssue 0 [] :: otherWork) quick).map fun u => (rcOf u 0, u.out)) = some (.awaiting 0 2, []) ∧
    ((runOps (.rcIssue 0 [] :: (otherWork ++ [.tick])) quick).map fun u => (rcOf u 0, u.out)) =
      some (.idle, [⟨0, false, .timeout, none⟩]) := by decide

/-- No arrival among them reports an outcome of the kind. -/
theorem witness_UnansweredRequestTimesOut_arrivals :
    ∀ n < otherWork.length, otherWork[n]?.map agentOf = some .inboundPath →
      (runOps (.rcIssue 0 [] :: otherWork.take (n + 1)) quick).map (outcomesOf · 0) =
        (runOps (.rcIssue 0 [] :: otherWork.take n) quick).map (outcomesOf · 0) := by decide

theorem witness_AtMostOneResolutionPerRequest :
    Instr.rcResolve 0 0 ≠ .reset ∧ rcOf (awaitingAt 340) 0 ≠ .idle ∧ rcOf connected 0 = .idle ∧
      (after (.rcResolve 0 0) (awaitingAt 340)).map (outcomesOf · 0) = some 1 ∧
      (runOps [.rcResolve 0 0, .rcResolve 0 0, .tick] (awaitingAt 340)).map (outcomesOf · 0) = some 1 := by decide

/-- A delivery that fits, and a full ring. -/
theorem witness_TpRxPushesThenDrains :
    (emptyRing.rb.allocated = true ∧ RingInv emptyRing.cfg.cw emptyRing.rb) ∧
      ringFull.rb.allocated = true ∧ RingInv ringFull.cfg.cw ringFull.rb := by decide

/-- The bound is met with equality by three bytes. -/
theorem witness_TpRxLeavesAtMostThirteenBytes :
    emptyRing.rb.allocated = true ∧ RingInv emptyRing.cfg.cw emptyRing.rb ∧
      [1, 2, 3].length ≤ emptyRing.rb.cap - 13 := by decide

theorem witness_StreamSplittingIsUnobservable :
    (holding [1, 2]).rb.allocated = true ∧ RingInv 8 (holding [1, 2]).rb ∧
      (content 8 (holding [1, 2]).rb).length + (fRd.take 9).length + (fRd.drop 9).length ≤ 16 := by decide

theorem witness_FrameRowsAreDeliveries :
    (zeros 10).length = 10 ∧ (zeros 5).length = 5 ∧ (zeros 8).length = 8 ∧ (zeros 9).length = 9 := by decide

/-- A kind of class `NONE`; a code of class `VAR_READ` other than 0x10; and the three classified rows. -/
theorem witness_ArrivingFramesDeliverTheirFields :
    emptyRing.rb.allocated = true ∧ RingInv emptyRing.cfg.cw emptyRing.rb ∧ 14 ≤ emptyRing.rb.cap ∧
      content emptyRing.cfg.cw emptyRing.rb = [] ∧ (Instr.frame 0x7E (zeros 10)).wf emptyRing.cfg = true ∧
      classOf emptyRing.cfg 0x7E = .unclassified ∧
      (Instr.frame 0x11 (zeros 10)).wf { emptyRing.cfg with cmdClass := [(0x11, .varRead)] } = true ∧
      (Instr.frameVarRead 7 0x12345678 (zeros 5)).wf emptyRing.cfg = true ∧
      (Instr.frameStatus 0x30 5 3 (zeros 8)).wf emptyRing.cfg = true ∧
      (Instr.frameMode 0x40 2 (zeros 9)).wf emptyRing.cfg = true := by decide

theorem witness_ArrivingResponseResolvesItsKind :
    emptyRing.rb.allocated = true ∧ RingInv emptyRing.cfg.cw emptyRing.rb ∧ 14 ≤ emptyRing.rb.cap ∧
      content emptyRing.cfg.cw emptyRing.rb = [] ∧ (zeros 9).length = 9 ∧
      (emptyRing.cfg.kinds.map KindParams.respCmd).Nodup ∧
      emptyRing.cfg.kinds[0]?.map KindParams.respCmd = some 0x21 ∧ classOf emptyRing.cfg 0x21 = .unclassified ∧
      rcOf emptyRing 0 = .idle ∧ rcOf { emptyRing with rc := [.awaiting 0 2000] } 0 ≠ .idle := by decide

end Sys2Proof.Tests
end

section
/-! The statements of 00_scope.md: the check of a configuration is R4, and what a step does when its transaction decodes
to no operation. -/

open Sys2Proof Sys2Proof.Machine

namespace Sys2Proof.Proofs

/-! ### The check of a configuration -/

/-- R4 (d) as the spec words it: no two positions of a list have the same code. -/
theorem nodup_map_iff_getElem? {α β : Type} (f : α → β) (l : List α) :
    (l.map f).Nodup ↔ ∀ (i j : Nat) (a b : α), l[i]? = some a → l[j]? = some b → f a = f b → i = j := by
  constructor
  · intro hn i j a b hi hj he
    have hlt : i < (l.map f).length := by simpa using (List.getElem?_eq_some_iff.1 hi).1
    exact (List.getElem?_inj hlt hn).1 (by simp [hi, hj, he])
  · intro h
    refine List.nodup_iff_getElem?_ne_getElem?.2 fun i j hij hj he => hij.ne ?_
    rw [List.length_map] at hj
    have hi : i < l.length := hij.trans hj
    exact h i j l[i] l[j] (List.getElem?_eq_getElem hi) (List.getElem?_eq_getElem hj) (by simpa [hi, hj] using he)

/-- The Boolean check as the conjunction of its clauses, in R4's order. -/
theorem configWf_iff (cfg : Config) :
    configWf cfg = true ↔
      1 ≤ cfg.cw ∧
      (isPow2 cfg.rbCap = true ∧ cfg.rbCap ≤ cfg.rbMaxCap ∧ cfg.rbMaxCap ≤ 2 ^ (cfg.cw - 1)) ∧
      16 ≤ cfg.rbCap ∧
      ((cfg.kinds.map KindParams.respCmd).Nodup ∧ (cfg.kinds.map KindParams.reqCmd).Nodup) ∧
      (∀ kp ∈ cfg.kinds, kp.failCode ≠ stOk) ∧ (∀ kp ∈ cfg.kinds, 1 ≤ kp.timeoutTicks) ∧
      (cfg.cmdClass.map Prod.fst).Nodup ∧
      classOf cfg varReadCode ≠ .status ∧ classOf cfg varReadCode ≠ .mode := by
  simp only [configWf, Bool.and_eq_true, decide_eq_true_eq, List.all_eq_true, bne_iff_ne, and_assoc]

/-! ### Which errors the decoder gives -/

/-- The three ways in which an operation's operands miss R88's format. -/
def IsOperandError (o : Opcode) (e : DecodeError) : Prop :=
  e = .operandFormat o ∨ e = .operandTooWide o ∨ ∃ k, e = .noSuchKind o k

theorem IsOperandError.format (o : Opcode) : IsOperandError o (.operandFormat o) := .inl rfl

theorem IsOperandError.tooWide (o : Opcode) : IsOperandError o (.operandTooWide o) := .inr (.inl rfl)

theorem IsOperandError.ne_notAFrame {o : Opcode} {e : DecodeError} (h : IsOperandError o e) (why : FrameDefect) :
    e ≠ .notAFrame why := by
  obtain rfl | rfl | ⟨k, rfl⟩ := h <;> exact DecodeError.noConfusion

theorem decodeNone_error {o : Opcode} {i : Instr} {args : List Byte} {e : DecodeError}
    (h : decodeNone o i args = .error e) : IsOperandError o e := by
  cases args with
  | nil => cases h
  | cons b bs => cases h; exact .format o

theorem decodeByteSeq_error {o : Opcode} {mk : Byte → List Byte → Instr} {args : List Byte} {e : DecodeError}
    (h : decodeByteSeq o mk args = .error e) : IsOperandError o e := by
  cases args with
  | nil => cases h; exact .format o
  | cons b bs => cases h

theorem decodeWord_error {cfg : Config} {o : Opcode} {mk : Nat → Instr} {args : List Byte} {e : DecodeError}
    (h : decodeWord cfg o mk args = .error e) : IsOperandError o e := by
  unfold decodeWord at h
  split at h
  · split at h
    · cases h
    · cases h; exact .tooWide o
  · cases h; exact .format o

theorem decodeWords_error {cfg : Config} {o : Opcode} {mk : Nat → Nat → Instr} {args : List Byte} {e : DecodeError}
    (h : decodeWords cfg o mk args = .error e) : IsOperandError o e := by
  simp only [decodeWords] at h
  split at h
  · split at h
    · cases h
    · cases h; exact .tooWide o
  · cases h; exact .format o

theorem decodeKind_error {cfg : Config} {o : Opcode} {k : Byte} {i : Instr} {e : DecodeError}
    (h : decodeKind cfg o k i = .error e) : IsOperandError o e := by
  unfold decodeKind at h
  split at h
  · cases h
  · cases h; exact .inr (.inr ⟨k, rfl⟩)

/-- The operands of an operation fail to decode only for their own format. -/
theorem decodeArgs_error {cfg : Config} {o : Opcode} {args : List Byte} {e : DecodeError}
    (h : decodeArgs cfg o args = .error e) : IsOperandError o e := by
  cases o with
  | reset | rbLength | fcExtract | wkWake | ctlShutdown | tpConnect | tpDisconnect | tick => exact decodeNone_error h
  | rbAlloc | rbPop | rbDiscard => exact decodeWord_error h
  | rbPeek | rbChecksum => exact decodeWords_error h
  | fcEncode | cmdSubmit => exact decodeByteSeq_error h
  | rbPush | wkServe | tpRx => cases h
  | fcDispatch =>
    simp only [decodeArgs] at h
    split at h
    · split at h
      · cases h
      · cases h; exact .format _
    · cases h; exact .format _
  | cqEnqueue =>
    simp only [decodeArgs] at h
    split at h
    · cases h
    · cases h; exact .format _
  | rcIssue | rcResolve | rcExpire =>
    simp only [decodeArgs] at h
    split at h
    · exact decodeKind_error h
    · cases h; exact .format _

/-- An `OP8` transaction that is no operation is empty, has a reserved op (R85), or has operands that miss R88's
format. -/
theorem decodeOp8_error {cfg : Config} {bytes : List Byte} {e : DecodeError} (h : decodeOp8 cfg bytes = .error e) :
    e = .empty ∨ (∃ op, e = .reservedOp op) ∨ ∃ o, IsOperandError o e := by
  cases bytes with
  | nil => cases h; exact .inl rfl
  | cons op args =>
    simp only [decodeOp8] at h
    split at h
    · next o _ => exact .inr (.inr ⟨o, decodeArgs_error h⟩)
    · cases h; exact .inr (.inl ⟨op, rfl⟩)

/-- Only wire bytes can be no valid frame (R80). -/
theorem decode_notAFrame {cfg : Config} {t : Transaction} {why : FrameDefect}
    (h : decode cfg t = .error (.notAFrame why)) : ∃ bytes, t = .frame14 bytes := by
  cases t with
  | frame14 bytes => exact ⟨bytes, rfl⟩
  | op8 bytes =>
    obtain he | ⟨op, he⟩ | ⟨o, ho⟩ := decodeOp8_error h
    · cases he
    · cases he
    · exact absurd rfl (ho.ne_notAFrame why)

/-! ### What a step does with the schedule -/

/-- R4: "The model refuses a configuration that fails any clause". -/
theorem step_of_illFormed {s : State} (h : configWf s.cfg = false) : step s = .refused .illFormedConfig := by
  simp [step, stepOnce, h]

/-- With nothing scheduled no agent steps (log 3). -/
theorem step_of_idle {s : State} (hc : configWf s.cfg = true) (hs : s.sched = []) : step s = .next s := by
  simp [step, stepOnce, nextScheduled, hc, hs]

/-- A step takes the first transaction of the schedule (R51, log 3). -/
theorem step_of_scheduled {s : State} {t : Transaction} {rest : List Transaction} (hc : configWf s.cfg = true)
    (hs : s.sched = t :: rest) : step s = runTransaction t { s with sched := rest } := by
  simp [step, stepOnce, nextScheduled, hc, hs]

/-! ### What a transaction that is no operation does -/

/-- A reserved op changes nothing and reports failure (R85). -/
theorem runTransaction_reservedOp {s : State} {t : Transaction} {op : Byte}
    (h : decode s.cfg t = .error (.reservedOp op)) : runTransaction t s = .next (returning .failure s) := by
  simp [runTransaction, h]

/-- Wire bytes that are no valid frame are delivered as bytes (R80, R180). -/
theorem runTransaction_notAFrame {s : State} {bytes : List Byte} {why : FrameDefect}
    (h : decode s.cfg (.frame14 bytes) = .error (.notAFrame why)) :
    runTransaction (.frame14 bytes) s = exec (.tpRx bytes) s := by
  simp [runTransaction, h]

/-- Every other undecodable transaction is refused (log 10). -/
theorem runTransaction_malformed {s : State} {t : Transaction} {e : DecodeError} (h : decode s.cfg t = .error e)
    (hr : ∀ op, e ≠ .reservedOp op) (hf : ∀ why, e ≠ .notAFrame why) :
    runTransaction t s = .refused .malformedTransaction := by
  cases e with
  | reservedOp op => exact absurd rfl (hr op)
  | notAFrame why => exact absurd rfl (hf why)
  | empty | operandFormat | operandTooWide | noSuchKind => simp [runTransaction, h]

end Sys2Proof.Proofs

open Sys2Proof.Proofs

/-- Settles O8: the clauses of the Boolean check one by one, with powers of two by `isPow2_iff` and the three
injectivity clauses by `nodup_map_iff_getElem?`. -/
theorem configurationCheckIsRuleFour : Obligations.ConfigurationCheckIsRuleFour := by
  intro cfg
  rw [configWf_iff, isPow2_iff, nodup_map_iff_getElem?, nodup_map_iff_getElem?, nodup_map_iff_getElem?]
  simp only [forall₂_and, and_assoc]

/-- Settles O7: the schedule decides whether a transaction is run, and the decoder's error what it then does. -/
theorem stepsThatRunNoOperation : Obligations.StepsThatRunNoOperation := by
  intro s
  refine ⟨step_of_illFormed, step_of_idle, fun t rest e hc hs hd => ?_⟩
  have hstep := step_of_scheduled hc hs
  cases e with
  | reservedOp op => exact hstep.trans (runTransaction_reservedOp hd)
  | notAFrame why =>
    obtain ⟨bytes, rfl⟩ := decode_notAFrame hd
    exact ⟨bytes, rfl, hstep.trans (runTransaction_notAFrame hd)⟩
  | empty | operandFormat | operandTooWide | noSuchKind =>
    exact hstep.trans (runTransaction_malformed hd (fun _ => DecodeError.noConfusion) fun _ => DecodeError.noConfusion)

end

section
/-! The statements of 10_state.md: what each operation may write (R10), the invariants at reset (R29), the ring
invariant along a run (R14), the cells a push writes (R102), and the append-only traces (R27). -/

open Sys2Proof Sys2Proof.Machine Sys2Proof.Laws

namespace Sys2Proof.Proofs

/-! ### What a completed operation has done -/

/-- The operations that hand bytes to the inbound path: `TP_RX` and the arriving frames (R180, log 5). -/
def isDelivery : Instr → Bool
  | .tpRx _ | .frame _ _ | .frameVarRead _ _ _ | .frameStatus _ _ _ _ | .frameMode _ _ _ | .frameResponse _ _ _ => true
  | _ => false

/-- The operations that only answer; an `RB_CHECKSUM` does where its range has a sum (R104, R106, R107). -/
def isQuery : Instr → Bool
  | .rbPeek _ _ | .rbChecksum _ _ | .rbLength => true
  | _ => false

/-- The enabling condition of an operation: four have one (R143, R144, R163, R166). -/
def isEnabled (s : State) : Instr → Bool
  | .wkServe _ => wkServeEnabled s
  | .wkWake => wkWakeEnabled s
  | .rcResolve k _ => rcResolveEnabled s k
  | .rcExpire k => rcExpireEnabled s k
  | _ => true

/-- `Effect s i u`: operation `i` may take `s` to `u`, the result in `ret` apart. One constructor per shared operation
that an arm of `exec` ends in; a query and a step not enabled (log 8) have none. -/
inductive Effect (s : State) : Instr → State → Prop where
  | query {i : Instr} : isQuery i = true → Effect s i s
  | disabled {i : Instr} : isEnabled s i = false → Effect s i s
  | reset {t : State} : execReset s = .next t → Effect s .reset t
  | rbAlloc (c : Nat) : Effect s (.rbAlloc c) { s with rb := (ringAlloc s.cfg.rbMaxCap s.rb c).1 }
  | rbPush (bytes : List Byte) : Effect s (.rbPush bytes) { s with rb := (ringPush s.cfg.cw s.rb bytes).1 }
  | rbPop (n : Nat) : Effect s (.rbPop n) { s with rb := (ringPop s.cfg.cw s.rb n).1 }
  | rbDiscard (n : Nat) : Effect s (.rbDiscard n) { s with rb := (ringDiscard s.cfg.cw s.rb n).1 }
  | draw {n m : Nat} : ringChecksum s.cfg.cw s.rb n m = none →
      Effect s (.rbChecksum n m) { s with draws := s.draws + 1 }
  | fcEncode (c : Byte) (p : List Byte) : Effect s (.fcEncode c p) (encodeFrame c p s).1
  | fcExtract : Effect s .fcExtract (extractFrame s).1
  | fcDispatch (c : Byte) (p : List Byte) : Effect s (.fcDispatch c p) (dispatchFrame c p s)
  | cqEnqueue (f : List Byte) : Effect s (.cqEnqueue f) (enqueueFrame f s).1
  | cmdSubmit (c : Byte) (p : List Byte) : Effect s (.cmdSubmit c p) (submitCommand c p s).1
  | wkServe (w : Nat) : wkServeEnabled s = true → Effect s (.wkServe w) (serveWorker w s)
  | wkWake : wkWakeEnabled s = true → Effect s .wkWake { s with wkState := .wait }
  | ctlShutdown : Effect s .ctlShutdown { s with ctlStop := true }
  | rcIssue {k : Nat} {kp : KindParams} (p : List Byte) :
      s.cfg.kinds[k]? = some kp → Effect s (.rcIssue k p) (issueRequest kp k p s).1
  | rcResolve {k : Nat} {kp : KindParams} (st : Byte) : s.cfg.kinds[k]? = some kp → rcResolveEnabled s k = true →
      Effect s (.rcResolve k st) (resolveByStatus kp k st s)
  | rcExpire {k : Nat} : rcExpireEnabled s k = true → Effect s (.rcExpire k) (expireRequest k s)
  | tpConnect : Effect s .tpConnect { s with tpConnected := true }
  | tpDisconnect : Effect s .tpDisconnect { s with tpConnected := false }
  | tick : Effect s .tick (advanceTime s)
  | delivery {i : Instr} : isDelivery i = true → Effect s i (receiveBytes (pushedBytes s.cfg i) s)

/-- The inversion of `exec`: an operation that completes has had its effect and left its result. -/
theorem exec_next_effect {i : Instr} {s t : State} (h : exec i s = .next t) :
    ∃ u r, Effect s i u ∧ t = returning r u := by
  cases i with
  | reset => cases h; exact ⟨_, .none, .reset rfl, rfl⟩
  | rbAlloc c => cases h; exact ⟨_, _, .rbAlloc c, rfl⟩
  | rbPush bytes => cases h; exact ⟨_, _, .rbPush bytes, rfl⟩
  | rbPop n => cases h; exact ⟨_, _, .rbPop n, rfl⟩
  | rbPeek => cases h; exact ⟨_, _, .query rfl, rfl⟩
  | rbDiscard n => cases h; exact ⟨_, _, .rbDiscard n, rfl⟩
  | rbChecksum n m =>
    simp only [exec, execRbChecksum] at h
    split at h
    · cases h; exact ⟨_, _, .query rfl, rfl⟩
    · next hn => cases h; exact ⟨_, _, .draw hn, rfl⟩
  | rbLength => cases h; exact ⟨_, _, .query rfl, rfl⟩
  | fcEncode c p => cases h; exact ⟨_, _, .fcEncode c p, rfl⟩
  | fcExtract =>
    simp only [exec, execFcExtract] at h
    have he : ∀ {u o}, extractFrame s = (u, o) → Effect s .fcExtract u := fun hx => by
      simpa only [hx] using Effect.fcExtract (s := s)
    split at h
    · next hx => cases h; exact ⟨_, _, he hx, rfl⟩
    · next hx => cases h; exact ⟨_, _, he hx, rfl⟩
  | fcDispatch c p =>
    simp only [exec, execFcDispatch] at h
    split at h
    · cases h; exact ⟨_, _, .fcDispatch c p, rfl⟩
    · cases h
  | cqEnqueue f =>
    simp only [exec, execCqEnqueue] at h
    split at h
    · cases h; exact ⟨_, _, .cqEnqueue f, rfl⟩
    · cases h
  | cmdSubmit c p => cases h; exact ⟨_, _, .cmdSubmit c p, rfl⟩
  | wkServe w =>
    simp only [exec, execWkServe] at h
    split at h
    · next he => cases h; exact ⟨_, _, .wkServe w he, rfl⟩
    · next he => cases h; exact ⟨_, _, .disabled (eq_false_of_ne_true he), rfl⟩
  | wkWake =>
    simp only [exec, execWkWake] at h
    split at h
    · next he => cases h; exact ⟨_, _, .wkWake he, rfl⟩
    · next he => cases h; exact ⟨_, _, .disabled (eq_false_of_ne_true he), rfl⟩
  | ctlShutdown => cases h; exact ⟨_, _, .ctlShutdown, rfl⟩
  | rcIssue k p =>
    simp only [exec, execRcIssue] at h
    split at h
    · cases h
    · next hk => cases h; exact ⟨_, _, .rcIssue p hk, rfl⟩
  | rcResolve k st =>
    simp only [exec, execRcResolve] at h
    split at h
    · cases h
    · next hk =>
      split at h
      · next he => cases h; exact ⟨_, _, .rcResolve st hk he, rfl⟩
      · next he => cases h; exact ⟨_, _, .disabled (eq_false_of_ne_true he), rfl⟩
  | rcExpire k =>
    simp only [exec, execRcExpire] at h
    split at h
    · cases h
    · split at h
      · next he => cases h; exact ⟨_, _, .rcExpire he, rfl⟩
      · next he => cases h; exact ⟨_, _, .disabled (eq_false_of_ne_true he), rfl⟩
  | tpConnect => cases h; exact ⟨_, _, .tpConnect, rfl⟩
  | tpDisconnect => cases h; exact ⟨_, _, .tpDisconnect, rfl⟩
  | tick => cases h; exact ⟨_, _, .tick, rfl⟩
  | tpRx bytes => cases h; exact ⟨_, _, .delivery (i := .tpRx bytes) rfl, rfl⟩
  | frame | frameVarRead | frameStatus | frameMode | frameResponse =>
    simp only [exec, execFrame, execFrameVarRead, execFrameStatus, execFrameMode, execFrameResponse] at h
    split at h
    · cases h; exact ⟨_, _, .delivery rfl, rfl⟩
    · cases h

/-! ### The elements an operation writes -/

/-- Every element outside the list is the same in both states. -/
def WritesOnly (ws : List Element) (s t : State) : Prop := ∀ e, e ∉ ws → e.same s t

/-- `WritesOnly`, element by element. -/
theorem writesOnly_iff {ws : List Element} {s t : State} :
    WritesOnly ws s t ↔
      (.ringAllocation ∉ ws → s.rb.allocated = t.rb.allocated ∧ s.rb.cap = t.rb.cap) ∧
      (.ringWriteSide ∉ ws → s.rb.wr = t.rb.wr ∧ s.rb.mem = t.rb.mem) ∧
      (.ringReadCursor ∉ ws → s.rb.rd = t.rb.rd) ∧
      (.queue ∉ ws → s.cqItems = t.cqItems) ∧
      (.workerState ∉ ws → s.wkState = t.wkState) ∧
      (.wakeTime ∉ ws → s.wkWakeAt = t.wkWakeAt) ∧
      (.stopFlag ∉ ws → s.ctlStop = t.ctlStop) ∧
      (.connection ∉ ws → s.tpConnected = t.tpConnected) ∧
      (.correlators ∉ ws → s.rc = t.rc) ∧
      (.time ∉ ws → s.now = t.now) ∧
      (.counters ∉ ws → s.diag = t.diag) ∧
      (.traceTx ∉ ws → s.tx = t.tx) ∧
      (.traceEv ∉ ws → s.ev = t.ev) ∧
      (.traceOut ∉ ws → s.out = t.out) ∧
      (.traceDiag ∉ ws → s.diagTrace = t.diagTrace) ∧
      (.configuration ∉ ws → s.cfg = t.cfg) ∧
      (.schedule ∉ ws → s.sched = t.sched) ∧
      (.result ∉ ws → s.ret = t.ret) ∧
      (.freeDraws ∉ ws → s.draws = t.draws) := by
  constructor
  · intro h
    exact ⟨h _, h _, h _, h _, h _, h _, h _, h _, h _, h _, h _, h _, h _, h _, h _, h _, h _, h _, h _⟩
  · rintro ⟨_, _, _, _, _, _, _, _, _, _, _, _, _, _, _, _, _, _, _⟩ e
    cases e <;> assumption

theorem WritesOnly.refl (ws : List Element) (s : State) : WritesOnly ws s s := by simp [writesOnly_iff]

/-- Where the result may be written, leaving another result changes nothing else. -/
theorem WritesOnly.returning {ws : List Element} {s u : State} (h : WritesOnly ws s u) (hr : .result ∈ ws)
    (r : Result) : WritesOnly ws s (returning r u) := by
  simpa [writesOnly_iff, hr] using h

theorem ringPush_keeps (cw : Nat) (rb : Ring) (bytes : List Byte) :
    (ringPush cw rb bytes).1.allocated = rb.allocated ∧ (ringPush cw rb bytes).1.cap = rb.cap ∧
      (ringPush cw rb bytes).1.rd = rb.rd := by
  unfold ringPush
  split <;> exact ⟨rfl, rfl, rfl⟩

theorem ringDiscard_keeps (cw : Nat) (rb : Ring) (n : Nat) :
    (ringDiscard cw rb n).1.allocated = rb.allocated ∧ (ringDiscard cw rb n).1.cap = rb.cap ∧
      (ringDiscard cw rb n).1.wr = rb.wr ∧ (ringDiscard cw rb n).1.mem = rb.mem := by
  unfold ringDiscard
  split <;> exact ⟨rfl, rfl, rfl, rfl⟩

/-- A pop leaves the ring that a discard leaves (R103, R105), unallocated rings included. -/
theorem ringPop_fst (cw : Nat) (rb : Ring) (n : Nat) : (ringPop cw rb n).1 = (ringDiscard cw rb n).1 := by
  unfold ringPop ringDiscard
  split <;> rfl

theorem encodeFrame_writesOnly (c : Byte) (p : List Byte) (s : State) :
    WritesOnly (mayWrite (.fcEncode c p)) s (encodeFrame c p s).1 := by
  simp [writesOnly_iff, mayWrite, encodeFrame_keeps c p s]

theorem extractFrame_writesOnly (s : State) : WritesOnly (mayWrite .fcExtract) s (extractFrame s).1 := by
  simp [writesOnly_iff, mayWrite, extractFrame_keeps s]

theorem dispatchFrame_writesOnly (c : Byte) (p : List Byte) (s : State) :
    WritesOnly (mayWrite (.fcDispatch c p)) s (dispatchFrame c p s) := by
  simp [writesOnly_iff, mayWrite, dispatchFrame_keeps c p s]

theorem enqueueFrame_writesOnly (f : List Byte) (s : State) :
    WritesOnly (mayWrite (.cqEnqueue f)) s (enqueueFrame f s).1 := by
  obtain ⟨-, h⟩ | ⟨-, h⟩ := enqueueFrame_cases f s
  · simp [h, writesOnly_iff, mayWrite]
  · simpa only [h] using .refl _ s

theorem issueRequest_writesOnly (kp : KindParams) (k : Nat) (p : List Byte) (s : State) :
    WritesOnly (mayWrite (.rcIssue k p)) s (issueRequest kp k p s).1 := by
  obtain ⟨-, h⟩ | ⟨-, -, -, h⟩ := issueRequest_cases kp k p s
  · simpa only [h] using .refl _ s
  · simp [h, writesOnly_iff, mayWrite, encodeFrame_keeps kp.reqCmd p s]

theorem submitCommand_writesOnly (c : Byte) (p : List Byte) (s : State) :
    WritesOnly (mayWrite (.cmdSubmit c p)) s (submitCommand c p s).1 := by
  obtain ⟨k, kp, -, -, h⟩ | ⟨-, -, h⟩ | ⟨-, -, h⟩ := submitCommand_cases c p s
  · rw [h]; exact issueRequest_writesOnly kp k p s
  · simpa only [h] using .refl _ s
  · simp [h, writesOnly_iff, mayWrite, encodeFrame_keeps c p s]

theorem serveWorker_writesOnly {s : State} (w : Nat) (he : wkServeEnabled s = true) :
    WritesOnly (mayWrite (.wkServe w)) s (serveWorker w s) := by
  obtain ⟨-, ⟨-, h⟩ | ⟨-, -, f, rest, -, h⟩⟩ := serveWorker_cases w he
  · simp [h, writesOnly_iff, mayWrite]
  · rw [h]
    split <;> simp [writesOnly_iff, mayWrite]

theorem expireRequest_writesOnly (k : Nat) (s : State) : WritesOnly (mayWrite (.rcExpire k)) s (expireRequest k s) := by
  simp [writesOnly_iff, mayWrite, expireRequest, countDiag]

theorem advanceTime_writesOnly (s : State) : WritesOnly (mayWrite .tick) s (advanceTime s) := by
  simp [writesOnly_iff, mayWrite, advanceTime_keeps s]

theorem receiveBytes_writesOnly (bytes : List Byte) (s : State) :
    WritesOnly deliveryWrites s (receiveBytes bytes s) := by
  simp [writesOnly_iff, deliveryWrites, receiveBytes_keeps bytes s]

theorem mayWrite_of_isDelivery {i : Instr} (h : isDelivery i = true) : mayWrite i = deliveryWrites := by
  cases i <;> simp [isDelivery, mayWrite] at *

theorem result_mem_mayWrite (i : Instr) : Element.result ∈ mayWrite i := by
  cases i <;> simp [mayWrite, deliveryWrites]

theorem configuration_notMem_mayWrite (i : Instr) : Element.configuration ∉ mayWrite i := by
  cases i <;> simp [mayWrite, deliveryWrites]

/-- An effect reaches the elements of its operation's "State written" line only (R87, R111, R171). -/
theorem Effect.writesOnly {i : Instr} {s u : State} (h : Effect s i u) : WritesOnly (mayWrite i) s u := by
  cases h with
  | query | disabled => exact .refl _ s
  | reset h => cases h; simp [writesOnly_iff, mayWrite]
  | rbAlloc | draw | wkWake | ctlShutdown | tpConnect | tpDisconnect => simp [writesOnly_iff, mayWrite]
  | rbPush bytes => simp [writesOnly_iff, mayWrite, ringPush_keeps]
  | rbPop n => simp [writesOnly_iff, mayWrite, ringPop_fst, ringDiscard_keeps]
  | rbDiscard n => simp [writesOnly_iff, mayWrite, ringDiscard_keeps]
  | fcEncode c p => exact encodeFrame_writesOnly c p s
  | fcExtract => exact extractFrame_writesOnly s
  | fcDispatch c p => exact dispatchFrame_writesOnly c p s
  | cqEnqueue f => exact enqueueFrame_writesOnly f s
  | cmdSubmit c p => exact submitCommand_writesOnly c p s
  | wkServe w he => exact serveWorker_writesOnly w he
  | rcIssue p hk => exact issueRequest_writesOnly _ _ p s
  | rcResolve st hk he => simp [writesOnly_iff, mayWrite, resolveByStatus]
  | rcExpire he => exact expireRequest_writesOnly _ s
  | tick => exact advanceTime_writesOnly s
  | delivery hd => exact mayWrite_of_isDelivery hd ▸ receiveBytes_writesOnly _ s

/-- The configuration stays (R28). -/
theorem Effect.cfg_eq {i : Instr} {s u : State} (h : Effect s i u) : u.cfg = s.cfg :=
  (h.writesOnly .configuration (configuration_notMem_mayWrite i)).symm

theorem ring_ext {a b : Ring} (hall : a.allocated = b.allocated) (hcap : a.cap = b.cap) (hwr : a.wr = b.wr)
    (hrd : a.rd = b.rd) (hmem : a.mem = b.mem) : a = b := by
  cases a
  cases b
  simp_all

/-- An operation that writes no part of the ring leaves the ring. -/
theorem WritesOnly.rb_eq {ws : List Element} {s t : State} (h : WritesOnly ws s t) (ha : .ringAllocation ∉ ws)
    (hw : .ringWriteSide ∉ ws) (hr : .ringReadCursor ∉ ws) : t.rb = s.rb := by
  obtain ⟨hall, hcap⟩ := h _ ha
  obtain ⟨hwr, hmem⟩ := h _ hw
  exact (ring_ext hall hcap hwr (h _ hr) hmem).symm

/-! ### The cells a push writes -/

/-- A push leaves every cell alone but those of the bytes it stores (R102), unallocated rings included. -/
theorem ringPush_read_out {s : State} {bytes : List Byte} {a : Nat} (h : a ∉ storedCells s bytes) :
    (ringPush s.cfg.cw s.rb bytes).1.mem.read a = s.rb.mem.read a := by
  cases ha : s.rb.allocated with
  | false => simp [ringPush, ha]
  | true =>
    rw [ringPush_allocated bytes ha]
    refine storeBytes_read_out _ _ _ _ fun j hj he => h ?_
    simp only [storedCells, ha, if_true, List.mem_map, List.mem_range]
    exact ⟨j, by simpa using hj, by rw [he, Nat.zero_add]⟩

/-- Only the push of a delivery writes the storage: the drain takes bytes out (R180). -/
theorem receiveBytes_mem (bytes : List Byte) (s : State) :
    (receiveBytes bytes s).rb.mem = (ringPush s.cfg.cw s.rb bytes).1.mem := by
  simp only [receiveBytes, drainFrames_keeps]
  split <;> rfl

/-- Cell by cell, what an effect leaves of the storage (R13, R48). -/
theorem Effect.read_out {i : Instr} {s u : State} (h : Effect s i u) (hc : ∀ c, i ≠ .rbAlloc c) (hr : i ≠ .reset)
    {a : Nat} (ha : a ∉ storedCells s (pushedBytes s.cfg i)) : u.rb.mem.read a = s.rb.mem.read a := by
  have hw := h.writesOnly
  cases h with
  | query | disabled => rfl
  | reset => exact absurd rfl hr
  | rbAlloc c => exact absurd rfl (hc c)
  | rbPush bytes => exact ringPush_read_out ha
  | delivery => rw [receiveBytes_mem]; exact ringPush_read_out ha
  | _ => rw [(hw .ringWriteSide (by simp [mayWrite])).2]

/-! ### The traces -/

/-- Each of the four traces of `t` continues the one of `s`. -/
structure TracesGrow (s t : State) : Prop where
  tx : s.tx <+: t.tx
  ev : s.ev <+: t.ev
  out : s.out <+: t.out
  diag : s.diagTrace <+: t.diagTrace

theorem TracesGrow.of_eq {s t : State} (tx : t.tx = s.tx) (ev : t.ev = s.ev) (out : t.out = s.out)
    (diag : t.diagTrace = s.diagTrace) : TracesGrow s t :=
  ⟨tx ▸ List.prefix_rfl, ev ▸ List.prefix_rfl, out ▸ List.prefix_rfl, diag ▸ List.prefix_rfl⟩

theorem TracesGrow.refl (s : State) : TracesGrow s s := .of_eq rfl rfl rfl rfl

theorem TracesGrow.trans {s t u : State} (h : TracesGrow s t) (h' : TracesGrow t u) : TracesGrow s u :=
  ⟨h.tx.trans h'.tx, h.ev.trans h'.ev, h.out.trans h'.out, h.diag.trans h'.diag⟩

theorem raiseDiag_tracesGrow (r : DiagRecord) (s : State) : TracesGrow s (raiseDiag r s) :=
  ⟨List.prefix_rfl, List.prefix_rfl, List.prefix_rfl, List.prefix_append _ _⟩

theorem emitEvent_tracesGrow (e : Event) (s : State) : TracesGrow s (emitEvent e s) :=
  ⟨List.prefix_rfl, List.prefix_append _ _, List.prefix_rfl, List.prefix_rfl⟩

theorem resolveRequest_tracesGrow (k : Nat) (why : Reason) (code : Option Byte) (s : State) :
    TracesGrow s (resolveRequest k why code s) :=
  ⟨List.prefix_rfl, List.prefix_rfl, List.prefix_append _ _, List.prefix_rfl⟩

theorem expireRequest_tracesGrow (k : Nat) (s : State) : TracesGrow s (expireRequest k s) :=
  (resolveRequest_tracesGrow k .timeout none s).trans (raiseDiag_tracesGrow _ _)

theorem encodeFrame_tracesGrow (c : Byte) (p : List Byte) (s : State) : TracesGrow s (encodeFrame c p s).1 := by
  rw [encodeFrame_eq]
  dsimp only
  split
  · exact .refl s
  · exact raiseDiag_tracesGrow _ s

theorem extractFrame_tracesGrow (s : State) : TracesGrow s (extractFrame s).1 := .of_eq rfl rfl rfl rfl

theorem respond_tracesGrow (kp : KindParams) (k : Nat) (c st : Byte) (s : State) :
    TracesGrow s (respond kp k c st s) := by
  obtain ⟨_, _, -, h⟩ | ⟨-, h⟩ := respond_cases kp k c st s
  · exact h ▸ resolveRequest_tracesGrow _ _ _ s
  · exact h ▸ raiseDiag_tracesGrow _ s

theorem correlate_tracesGrow (c st : Byte) (kps : List KindParams) (k : Nat) (s : State) :
    TracesGrow s (correlate c st kps k s).1 := by
  induction kps generalizing k s with
  | nil => exact .refl s
  | cons kp rest ih =>
    simp only [correlate]
    split
    · exact (respond_tracesGrow kp k c st s).trans (ih _ _)
    · exact ih _ s

theorem dispatchFrame_tracesGrow (c : Byte) (p : List Byte) (s : State) : TracesGrow s (dispatchFrame c p s) := by
  have hc := correlate_tracesGrow c (payloadByte p 0) s.cfg.kinds 0 s
  simp only [dispatchFrame]
  split
  · exact hc.trans (emitEvent_tracesGrow _ _)
  · split
    · exact hc
    · exact hc.trans (raiseDiag_tracesGrow _ _)

theorem enqueueFrame_tracesGrow (f : List Byte) (s : State) : TracesGrow s (enqueueFrame f s).1 := by
  obtain ⟨-, h⟩ | ⟨-, h⟩ := enqueueFrame_cases f s
  · rw [h]; exact .of_eq rfl rfl rfl rfl
  · rw [h]; exact .refl s

theorem issueRequest_tracesGrow (kp : KindParams) (k : Nat) (p : List Byte) (s : State) :
    TracesGrow s (issueRequest kp k p s).1 := by
  obtain ⟨-, h⟩ | ⟨-, -, -, h⟩ := issueRequest_cases kp k p s
  · rw [h]; exact .refl s
  · rw [h]; exact (encodeFrame_tracesGrow _ p s).trans (.of_eq rfl rfl rfl rfl)

theorem submitCommand_tracesGrow (c : Byte) (p : List Byte) (s : State) :
    TracesGrow s (submitCommand c p s).1 := by
  obtain ⟨k, kp, -, -, h⟩ | ⟨-, -, h⟩ | ⟨-, -, h⟩ := submitCommand_cases c p s
  · rw [h]; exact issueRequest_tracesGrow kp k p s
  · rw [h]; exact .refl s
  · rw [h]; exact (encodeFrame_tracesGrow c p s).trans (.of_eq rfl rfl rfl rfl)

theorem serveWorker_tracesGrow {s : State} (w : Nat) (he : wkServeEnabled s = true) :
    TracesGrow s (serveWorker w s) := by
  obtain ⟨-, ⟨-, h⟩ | ⟨-, -, f, rest, -, h⟩⟩ := serveWorker_cases w he
  · rw [h]; exact .of_eq rfl rfl rfl rfl
  · rw [h]
    have htx := List.prefix_append s.tx [{ time := s.now, frame := f }]
    split
    · exact ⟨htx, List.prefix_rfl, List.prefix_rfl, List.prefix_rfl⟩
    · exact ⟨htx, List.prefix_rfl, List.prefix_rfl, List.prefix_append _ _⟩

theorem expireIfDue_tracesGrow (s : State) (k : Nat) : TracesGrow s (expireIfDue s k) := by
  unfold expireIfDue
  split
  · exact expireRequest_tracesGrow k s
  · exact .refl s

theorem expireAll_tracesGrow (ks : List Nat) (s : State) : TracesGrow s (ks.foldl expireIfDue s) := by
  induction ks generalizing s with
  | nil => exact .refl s
  | cons k ks ih => exact (expireIfDue_tracesGrow s k).trans (ih _)

theorem advanceTime_tracesGrow (s : State) : TracesGrow s (advanceTime s) :=
  .trans (t := { s with now := s.now + 1 }) (.of_eq rfl rfl rfl rfl) (expireAll_tracesGrow _ _)

theorem drainFrames_tracesGrow (turns : Nat) (s : State) : TracesGrow s (drainFrames turns s) := by
  induction turns generalizing s with
  | zero => exact .refl s
  | succ n ih =>
    have hx := extractFrame_tracesGrow s
    rw [drainFrames]
    split
    · next he => rwa [he] at hx
    · next c p he =>
      rw [he] at hx
      exact hx.trans ((dispatchFrame_tracesGrow c p _).trans (ih _))

theorem receiveBytes_tracesGrow (bytes : List Byte) (s : State) : TracesGrow s (receiveBytes bytes s) := by
  simp only [receiveBytes]
  refine .trans ?_ (drainFrames_tracesGrow _ _)
  have hp : TracesGrow s { s with rb := (ringPush s.cfg.cw s.rb bytes).1 } := .of_eq rfl rfl rfl rfl
  split
  · exact hp.trans (raiseDiag_tracesGrow _ _)
  · exact hp

/-- An effect other than `RESET`'s only appends to the traces (R27). -/
theorem Effect.tracesGrow {i : Instr} {s u : State} (h : Effect s i u) (hr : i ≠ .reset) : TracesGrow s u := by
  cases h with
  | query | disabled => exact .refl s
  | reset => exact absurd rfl hr
  | rbAlloc | rbPush | rbPop | rbDiscard | draw | wkWake | ctlShutdown | tpConnect | tpDisconnect =>
    exact .of_eq rfl rfl rfl rfl
  | fcEncode c p => exact encodeFrame_tracesGrow c p s
  | fcExtract => exact extractFrame_tracesGrow s
  | fcDispatch c p => exact dispatchFrame_tracesGrow c p s
  | cqEnqueue f => exact enqueueFrame_tracesGrow f s
  | cmdSubmit c p => exact submitCommand_tracesGrow c p s
  | wkServe w he => exact serveWorker_tracesGrow w he
  | rcIssue p hk => exact issueRequest_tracesGrow _ _ p s
  | rcResolve st hk he => exact resolveRequest_tracesGrow _ _ _ s
  | rcExpire he => exact expireRequest_tracesGrow _ s
  | tick => exact advanceTime_tracesGrow s
  | delivery => exact receiveBytes_tracesGrow _ s

/-! ### The ring invariant -/

/-- R14 as it is worded: the invariant of a ring that is allocated. -/
def RingOk (cw : Nat) (rb : Ring) : Prop := rb.allocated = true → RingInv cw rb

/-- R4 (b): no ring that `RB_ALLOC` makes is as large as the cursors' range. -/
theorem rbMaxCap_lt {cfg : Config} (h : configWf cfg = true) : cfg.rbMaxCap < 2 ^ cfg.cw := by
  obtain ⟨hcw, ⟨-, -, hmax⟩, -⟩ := (configWf_iff cfg).1 h
  exact hmax.trans_lt (Nat.pow_lt_pow_right (by omega) (by omega))

theorem ringAlloc_ringOk {cw maxCap : Nat} (hm : maxCap < 2 ^ cw) {rb : Ring} (h : RingOk cw rb) (c : Nat) :
    RingOk cw (ringAlloc maxCap rb c).1 := by
  obtain ⟨hp, hc, e⟩ | ⟨-, e⟩ := ringAlloc_cases maxCap rb c
  · rw [e]; exact fun _ => fresh_ringInv hp (hc.trans_lt hm)
  · rw [e]; exact h

theorem ringPush_ringOk {cw : Nat} {rb : Ring} (h : RingOk cw rb) (bytes : List Byte) :
    RingOk cw (ringPush cw rb bytes).1 := by
  intro ha
  rw [(ringPush_keeps cw rb bytes).1] at ha
  obtain ⟨-, -, -, -, -, -, -, hinv, -⟩ := ringPush_spec bytes ha (h ha)
  exact hinv

theorem ringDiscard_ringOk {cw : Nat} {rb : Ring} (h : RingOk cw rb) (n : Nat) :
    RingOk cw (ringDiscard cw rb n).1 := by
  intro ha
  rw [(ringDiscard_keeps cw rb n).1] at ha
  exact (ringDiscard_spec n ha (h ha)).2.2.2

theorem extractFrame_ringOk {s : State} (h : RingOk s.cfg.cw s.rb) : RingOk s.cfg.cw (extractFrame s).1.rb := by
  intro ha
  rw [(extractFrame_keeps s).2.1] at ha
  obtain ⟨hx, hle⟩ := extractPasses_eq_scan s.cfg (ringLength s.cfg.cw s.rb + 1) s.rb s.diag ha (h ha)
  rw [extractFrame_eq, hx]
  exact (ringDiscard_within ha (h ha) hle).2.2

theorem receiveBytes_ringOk {s : State} (h : RingOk s.cfg.cw s.rb) (bytes : List Byte) :
    RingOk s.cfg.cw (receiveBytes bytes s).rb := by
  intro ha
  rw [(receiveBytes_keeps bytes s).2.1] at ha
  obtain ⟨e, -, -, hinv⟩ := receiveBytes_eq bytes s ha (h ha)
  rw [e]
  exact hinv

/-- Every effect keeps the ring invariant (R14); R4 (b) is what a new ring needs. -/
theorem Effect.ringOk {i : Instr} {s u : State} (h : Effect s i u) (hc : configWf s.cfg = true)
    (hr : RingOk s.cfg.cw s.rb) : RingOk s.cfg.cw u.rb := by
  have hw := h.writesOnly
  cases h with
  | query | disabled => exact hr
  | reset h => cases h; exact ringAlloc_ringOk (rbMaxCap_lt hc) hr _
  | rbAlloc c => exact ringAlloc_ringOk (rbMaxCap_lt hc) hr c
  | rbPush bytes => exact ringPush_ringOk hr bytes
  | rbPop n => simpa only [ringPop_fst] using ringDiscard_ringOk hr n
  | rbDiscard n => exact ringDiscard_ringOk hr n
  | fcExtract => exact extractFrame_ringOk hr
  | delivery => exact receiveBytes_ringOk hr _
  | _ => rwa [hw.rb_eq (by simp [mayWrite]) (by simp [mayWrite]) (by simp [mayWrite])]

/-! ### What a completed step has done -/

/-- The inversion of `runTransaction`: a reserved op was turned away (R85), or an operation was run, `TP_RX` for wire
bytes that are no frame (R180). -/
theorem runTransaction_next_cases {tr : Transaction} {s t : State} (h : runTransaction tr s = .next t) :
    t = returning .failure s ∨ ∃ i, exec i s = .next t := by
  cases hd : decode s.cfg tr with
  | ok i => exact .inr ⟨i, by simpa [runTransaction, hd] using h⟩
  | error e =>
    cases e with
    | reservedOp op => rw [runTransaction_reservedOp hd] at h; cases h; exact .inl rfl
    | notAFrame why =>
      obtain ⟨bytes, rfl⟩ := decode_notAFrame hd
      exact .inr ⟨.tpRx bytes, (runTransaction_notAFrame hd).symm.trans h⟩
    | empty | operandFormat | operandTooWide | noSuchKind =>
      rw [runTransaction_malformed hd (fun _ => DecodeError.noConfusion) fun _ => DecodeError.noConfusion] at h
      cases h

/-- The inversion of `step`: the configuration is well formed (R4), and either nothing was scheduled or a transaction
was run (R51). -/
theorem step_next_cases {s t : State} (h : step s = .next t) :
    configWf s.cfg = true ∧ (t = s ∨ ∃ tr rest, runTransaction tr { s with sched := rest } = .next t) := by
  cases hc : configWf s.cfg with
  | false => rw [step_of_illFormed hc] at h; cases h
  | true =>
    refine ⟨rfl, ?_⟩
    cases hs : s.sched with
    | nil => rw [step_of_idle hc hs] at h; cases h; exact .inl rfl
    | cons tr rest => exact .inr ⟨tr, rest, (step_of_scheduled hc hs).symm.trans h⟩

/-- A step keeps the ring invariant and the configuration. -/
theorem step_ringOk {s t : State} (h : step s = .next t) (hr : RingOk s.cfg.cw s.rb) : RingOk t.cfg.cw t.rb := by
  obtain ⟨hc, rfl | ⟨tr, rest, htr⟩⟩ := step_next_cases h
  · exact hr
  obtain rfl | ⟨i, hi⟩ := runTransaction_next_cases htr
  · exact hr
  · obtain ⟨u, r, he, rfl⟩ := exec_next_effect hi
    rw [returning_cfg, he.cfg_eq]
    exact he.ringOk hc hr

/-! ### The state after reset -/

theorem resetWith_ringInv {cfg : Config} (h : configWf cfg = true) : RingInv cfg.cw (State.resetWith cfg).rb := by
  obtain ⟨-, ⟨hp, hcap, -⟩, -⟩ := (configWf_iff cfg).1 h
  exact fresh_ringInv hp (hcap.trans_lt (rbMaxCap_lt h))

theorem rcOf_resetWith (cfg : Config) (k : Nat) : rcOf (State.resetWith cfg) k = .idle := by
  simp [rcOf, State.resetWith, List.getD_eq_getElem?_getD]

theorem resetWith_correlatorInv (cfg : Config) : CorrelatorInv (State.resetWith cfg) :=
  ⟨List.length_map _, fun k _ => by simp [rcEntryOk, rcOf_resetWith]⟩

/-- Part by part, what R29's table leaves meets the block's invariant. -/
theorem resetWith_stateInv {cfg : Config} (h : configWf cfg = true) : StateInv (State.resetWith cfg) := by
  obtain ⟨-, ⟨-, hcap, -⟩, -⟩ := (configWf_iff cfg).1 h
  have hqueue : QueueInv (State.resetWith cfg) := ⟨fun _ hf => absurd hf List.not_mem_nil, Nat.zero_le _⟩
  have hpacing : PacingInv (State.resetWith cfg) := by simp [PacingInv, State.resetWith]
  have htx : TxInv (State.resetWith cfg) := fun _ hr => absurd hr List.not_mem_nil
  have hout : OutInv (State.resetWith cfg) := fun _ ho => absurd ho List.not_mem_nil
  have hcount : CounterInv (State.resetWith cfg) := ⟨rfl, rfl, rfl, rfl, rfl⟩
  exact ⟨⟨rfl, hcap, resetWith_ringInv h⟩, hqueue, resetWith_correlatorInv cfg, hpacing, htx, hout, hcount⟩

end Sys2Proof.Proofs

open Sys2Proof.Proofs

/-- Settles O9: the empty queue and traces, the idle correlators and the fresh ring, under `Config.standard` and under
every well-formed configuration. -/
theorem stateInvHoldsAtReset : Obligations.StateInvHoldsAtReset :=
  ⟨resetWith_stateInv (by decide), fun _ => resetWith_stateInv⟩

/-- Settles O11: a fresh ring meets the invariant, each operation that writes the ring keeps it (`Effect.ringOk`), and
the length of the content is the gap between the cursors. -/
theorem ringInvariantAtResetAndEveryStep : Obligations.RingInvariantAtResetAndEveryStep := by
  refine ⟨fun _ => resetWith_ringInv, fun s t hr hstep => step_ringOk hstep hr, fun s hr => ?_⟩
  obtain ⟨-, -, -, -, hgap, -⟩ := hr
  rwa [content_length]

/-- Settles O14: the effect of an operation stays inside its "State written" line, and the result belongs to every
such line. -/
theorem operationsWriteOnlyTheirOwnElements : Obligations.OperationsWriteOnlyTheirOwnElements := by
  intro i s t e h he
  obtain ⟨u, r, heff, rfl⟩ := exec_next_effect h
  exact heff.writesOnly.returning (result_mem_mayWrite i) r e he

/-- Settles O15: the storage is written by pushes alone, and a push leaves the cells it does not store into. -/
theorem onlyPushedCellsOfTheStorageChange : Obligations.OnlyPushedCellsOfTheStorageChange := by
  intro i s t hc hr h a ha
  obtain ⟨u, r, heff, rfl⟩ := exec_next_effect h
  exact heff.read_out hc hr ha

/-- Settles O16: the only writes to a trace outside `RESET` are records put at its end. -/
theorem tracesOnlyGrow : Obligations.TracesOnlyGrow := by
  intro i s t hr h
  obtain ⟨u, r, heff, rfl⟩ := exec_next_effect h
  obtain ⟨htx, hev, hout, hdiag⟩ := heff.tracesGrow hr
  exact ⟨htx, hev, hout, hdiag⟩

end

section
/-! The statements of 20_memory.md: a step runs what its transaction decodes to (R51), and where the content lies in the
ring is not observable (R43). An operation that does not look at the ring does the same whatever the ring is; one that
does goes through the ring's accessors, which answer alike on rings of the same content. -/

open Sys2Proof Sys2Proof.Machine Sys2Proof.Laws

namespace Sys2Proof.Proofs

/-! ### A step runs its operation -/

/-- A transaction that decodes to an operation runs it. -/
theorem runTransaction_ok {s : State} {t : Transaction} {i : Instr} (h : decode s.cfg t = .ok i) :
    runTransaction t s = exec i s := by
  simp [runTransaction, h]

/-- A step runs the operation that the first transaction of the schedule decodes to (R51, log 3). -/
theorem step_of_decoded {s : State} {t : Transaction} {rest : List Transaction} {i : Instr}
    (hc : configWf s.cfg = true) (hs : s.sched = t :: rest) (hd : decode s.cfg t = .ok i) :
    step s = exec i { s with sched := rest } :=
  (step_of_scheduled hc hs).trans (runTransaction_ok hd)

/-! ### Rings of the same content, each meeting its invariant -/

/-- Two rings no in-range operation can tell apart (R43), each meeting the ring invariant where it is allocated (R14). -/
structure RingsMatch (cw : Nat) (a b : Ring) : Prop where
  alike : RingsAlike cw a b
  left : RingOk cw a
  right : RingOk cw b

/-- Matching rings are both unallocated, or both allocated with the same capacity and content. -/
theorem RingsMatch.cases {cw : Nat} {a b : Ring} (h : RingsMatch cw a b) :
    (a.allocated = false ∧ b.allocated = false) ∨
      (a.allocated = true ∧ b.allocated = true ∧ a.cap = b.cap ∧ content cw a = content cw b ∧
        RingInv cw a ∧ RingInv cw b) := by
  obtain ⟨⟨hall, hcap, hcontent⟩, hleft, hright⟩ := h
  cases ha : a.allocated with
  | false => exact .inl ⟨rfl, hall.symm.trans ha⟩
  | true =>
    have hb := hall.symm.trans ha
    exact .inr ⟨rfl, hb, hcap, hcontent, hleft ha, hright hb⟩

/-- Rings alike have contents of the same length. -/
theorem cursorGap_congr {cw : Nat} {a b : Ring} (h : content cw a = content cw b) : cursorGap cw a = cursorGap cw b := by
  rw [← content_length, ← content_length, h]

/-- R101: `RB_ALLOC` looks at the capacity asked for, not at the ring. -/
theorem ringAlloc_alike {cw : Nat} {a b : Ring} (h : RingsAlike cw a b) (maxCap c : Nat) :
    RingsAlike cw (ringAlloc maxCap a c).1 (ringAlloc maxCap b c).1 ∧
      (ringAlloc maxCap a c).2 = (ringAlloc maxCap b c).2 := by
  unfold ringAlloc
  split
  · exact ⟨h, rfl⟩
  · exact ⟨⟨rfl, rfl, rfl⟩, rfl⟩

/-- R100: an unallocated ring takes in nothing. -/
theorem ringPush_unallocated {cw : Nat} {rb : Ring} (bytes : List Byte) (h : rb.allocated = false) :
    ringPush cw rb bytes = (rb, 0) := by
  simp [ringPush, h]

/-- R100: an unallocated ring has nothing to drop. -/
theorem ringDiscard_unallocated {cw : Nat} {rb : Ring} (n : Nat) (h : rb.allocated = false) :
    ringDiscard cw rb n = (rb, 0) := by
  simp [ringDiscard, h]

/-- R102: how much fits depends on the capacity and the length, and is put after the content. -/
theorem ringPush_alike {cw : Nat} {a b : Ring} (h : RingsMatch cw a b) (bytes : List Byte) :
    RingsAlike cw (ringPush cw a bytes).1 (ringPush cw b bytes).1 ∧
      (ringPush cw a bytes).2 = (ringPush cw b bytes).2 := by
  obtain ⟨ha, hb⟩ | ⟨ha, hb, hcap, hcontent, ia, ib⟩ := h.cases
  · rw [ringPush_unallocated bytes ha, ringPush_unallocated bytes hb]
    exact ⟨h.alike, rfl⟩
  · obtain ⟨an, aall, acap, -, -, -, acontent, -⟩ := ringPush_spec bytes ha ia
    obtain ⟨bn, ball, bcap, -, -, -, bcontent, -⟩ := ringPush_spec bytes hb ib
    have hgap := cursorGap_congr hcontent
    refine ⟨⟨aall.trans ball.symm, acap.trans (hcap.trans bcap.symm), ?_⟩, ?_⟩
    · rw [acontent, bcontent, hcontent, hcap, hgap]
    · rw [an, bn, hcap, hgap]

/-- R105: how much is dropped depends on the length, and it is dropped from the front of the content. -/
theorem ringDiscard_alike {cw : Nat} {a b : Ring} (h : RingsMatch cw a b) (n : Nat) :
    RingsAlike cw (ringDiscard cw a n).1 (ringDiscard cw b n).1 ∧
      (ringDiscard cw a n).2 = (ringDiscard cw b n).2 := by
  obtain ⟨aall, acap, -⟩ := ringDiscard_keeps cw a n
  obtain ⟨ball, bcap, -⟩ := ringDiscard_keeps cw b n
  obtain ⟨hall, hcap, -⟩ := h.alike
  obtain ⟨ha, hb⟩ | ⟨ha, hb, -, hcontent, ia, ib⟩ := h.cases
  · rw [ringDiscard_unallocated n ha, ringDiscard_unallocated n hb]
    exact ⟨h.alike, rfl⟩
  · obtain ⟨ae, -, acontent, -⟩ := ringDiscard_spec n ha ia
    obtain ⟨be, -, bcontent, -⟩ := ringDiscard_spec n hb ib
    have hgap := cursorGap_congr hcontent
    refine ⟨⟨aall.trans (hall.trans ball.symm), acap.trans (hcap.trans bcap.symm), ?_⟩, ?_⟩
    · rw [acontent, bcontent, hcontent, hgap]
    · rw [ae, be, hgap]

/-- R103: a pop is a discard that answers the bytes dropped. -/
theorem ringPop_alike {cw : Nat} {a b : Ring} (h : RingsMatch cw a b) (n : Nat) :
    RingsAlike cw (ringPop cw a n).1 (ringPop cw b n).1 ∧ (ringPop cw a n).2 = (ringPop cw b n).2 := by
  rw [ringPop_fst, ringPop_fst]
  refine ⟨(ringDiscard_alike h n).1, ?_⟩
  obtain ⟨ha, hb⟩ | ⟨ha, hb, -, hcontent, -⟩ := h.cases
  · simp [ringPop, ha, hb]
  · rw [ringPop_eq n ha, ringPop_eq n hb, hcontent]

/-- R104: a peek answers a part of the content, or nothing. -/
theorem ringPeek_alike {cw : Nat} {a b : Ring} (h : RingsMatch cw a b) (start len : Nat) :
    ringPeek cw a start len = ringPeek cw b start len := by
  obtain ⟨ha, hb⟩ | ⟨ha, hb, -, hcontent, -⟩ := h.cases
  · simp [ringPeek, ha, hb]
  · rw [ringPeek_eq start len ha, ringPeek_eq start len hb, hcontent]

/-- R106; a range that leaves the content has no sum in either ring. -/
theorem ringChecksum_alike {cw : Nat} {a b : Ring} (h : RingsMatch cw a b) (n m : Nat) :
    ringChecksum cw a n m = ringChecksum cw b n m := by
  obtain ⟨ha, hb⟩ | ⟨ha, hb, -, hcontent, -⟩ := h.cases
  · simp [ringChecksum, ha, hb]
  · rw [ringChecksum_eq n m ha, ringChecksum_eq n m hb, hcontent]

/-- `RB_CHECKSUM` whose range lies in the content has a sum; on an unallocated ring it answers 0. -/
theorem ringChecksum_isSome {cw : Nat} {rb : Ring} {n m : Nat} (h : n > m ∨ m < (content cw rb).length) :
    ∃ v, ringChecksum cw rb n m = some v := by
  cases ha : rb.allocated with
  | false => exact ⟨0#16, by simp [ringChecksum, ha]⟩
  | true =>
    rw [ringChecksum_eq n m ha]
    split
    · exact ⟨_, rfl⟩
    · exact ⟨_, if_neg (by omega)⟩

/-- R107: the length is the content's. -/
theorem ringLength_alike {cw : Nat} {a b : Ring} (h : RingsMatch cw a b) : ringLength cw a = ringLength cw b := by
  obtain ⟨ha, hb⟩ | ⟨ha, hb, -, hcontent, -⟩ := h.cases
  · simp [ringLength, ha, hb]
  · rw [ringLength_allocated ha, ringLength_allocated hb, hcontent]

theorem RingsMatch.push {cw : Nat} {a b : Ring} (h : RingsMatch cw a b) (bytes : List Byte) :
    RingsMatch cw (ringPush cw a bytes).1 (ringPush cw b bytes).1 :=
  ⟨(ringPush_alike h bytes).1, ringPush_ringOk h.left bytes, ringPush_ringOk h.right bytes⟩

theorem RingsMatch.discard {cw : Nat} {a b : Ring} (h : RingsMatch cw a b) (n : Nat) :
    RingsMatch cw (ringDiscard cw a n).1 (ringDiscard cw b n).1 :=
  ⟨(ringDiscard_alike h n).1, ringDiscard_ringOk h.left n, ringDiscard_ringOk h.right n⟩

/-- R133: the extractor reaches the ring through its accessors only, and these answer alike pass by pass. -/
theorem extractPasses_alike {cfg : Config} {a b : Ring} (h : RingsMatch cfg.cw a b) (passes : Nat) (k : Counters) :
    RingsMatch cfg.cw (extractPasses cfg passes a k).1 (extractPasses cfg passes b k).1 ∧
      (extractPasses cfg passes a k).2 = (extractPasses cfg passes b k).2 := by
  induction passes generalizing a b k with
  | zero => exact ⟨h, rfl⟩
  | succ passes ih =>
    simp only [extractPasses, ringLength_alike h, ringPeek_alike h, ringChecksum_alike h]
    split
    · exact ⟨h, rfl⟩
    · split
      · exact ih (h.discard 1) _
      · split
        · exact ih (h.discard 1) _
        · split
          · exact ih (h.discard 1) _
          · exact ⟨h.discard frameLen, rfl⟩

/-! ### Operations that do not look at the ring -/

/-- `FC_ENCODE` reads the header and footer of the configuration and the payload, not the ring (R120). -/
theorem encodeFrame_ring (c : Byte) (p : List Byte) (s : State) (x : Ring) :
    encodeFrame c p { s with rb := x } = ({ (encodeFrame c p s).1 with rb := x }, (encodeFrame c p s).2) := by
  simp only [encodeFrame_eq]
  split
  · rfl
  · rfl

theorem enqueueFrame_ring (f : List Byte) (s : State) (x : Ring) :
    enqueueFrame f { s with rb := x } = ({ (enqueueFrame f s).1 with rb := x }, (enqueueFrame f s).2) := by
  have hfull : queueFull { s with rb := x } = queueFull s := rfl
  simp only [enqueueFrame, hfull]
  split
  · rfl
  · rfl

theorem issueRequest_ring (kp : KindParams) (k : Nat) (p : List Byte) (s : State) (x : Ring) :
    issueRequest kp k p { s with rb := x } =
      ({ (issueRequest kp k p s).1 with rb := x }, (issueRequest kp k p s).2) := by
  have hrc : rcOf { s with rb := x } k = rcOf s k := rfl
  have hfull : queueFull { s with rb := x } = queueFull s := rfl
  have harmed := encodeFrame_ring kp.reqCmd p { s with rc := s.rc.set k (.awaiting s.now (s.now + kp.timeoutTicks)) } x
  simp only [issueRequest, hrc, hfull]
  split
  · rfl
  · split
    · rfl
    · split
      · rfl
      · rw [harmed, enqueueFrame_ring]

theorem submitCommand_ring (c : Byte) (p : List Byte) (s : State) (x : Ring) :
    submitCommand c p { s with rb := x } = ({ (submitCommand c p s).1 with rb := x }, (submitCommand c p s).2) := by
  have hfull : queueFull { s with rb := x } = queueFull s := rfl
  simp only [submitCommand, hfull]
  split
  · rw [issueRequest_ring]
  · split
    · rfl
    · rw [encodeFrame_ring, enqueueFrame_ring]

theorem serveWorker_ring (w : Nat) (s : State) (x : Ring) :
    serveWorker w { s with rb := x } = { serveWorker w s with rb := x } := by
  unfold serveWorker
  dsimp only
  split
  · rfl
  · split
    · rfl
    · split
      · rfl
      · rfl

theorem expireIfDue_ring (s : State) (k : Nat) (x : Ring) :
    expireIfDue { s with rb := x } k = { expireIfDue s k with rb := x } := by
  have hdue : rcExpireEnabled { s with rb := x } k = rcExpireEnabled s k := rfl
  unfold expireIfDue
  rw [hdue]
  split
  · rfl
  · rfl

theorem expireAll_ring (ks : List Nat) (s : State) (x : Ring) :
    ks.foldl expireIfDue { s with rb := x } = { ks.foldl expireIfDue s with rb := x } := by
  induction ks generalizing s with
  | nil => rfl
  | cons k ks ih => rw [List.foldl_cons, expireIfDue_ring, ih, List.foldl_cons]

theorem advanceTime_ring (s : State) (x : Ring) : advanceTime { s with rb := x } = { advanceTime s with rb := x } :=
  expireAll_ring _ { s with now := s.now + 1 } x

/-- The operations that look at the ring: the `RB_` family, the extractor, the deliveries, and `RESET`, whose
allocation leaves the ring where it fails (R101). -/
def looksAtRing : Instr → Bool
  | .reset | .fcExtract => true
  | i => isRingOp i || isDelivery i

/-- An outcome with the ring `x` in the state it leaves. -/
def withRing (x : Ring) : Host.Outcome State Fault Refusal → Host.Outcome State Fault Refusal
  | .next t => .next { t with rb := x }
  | .fault r => .fault r
  | .refused r => .refused r

/-- An operation that does not look at the ring does the same whatever the ring is. -/
theorem exec_ring {i : Instr} (hi : looksAtRing i = false) (s : State) (x : Ring) :
    exec i { s with rb := x } = withRing x (exec i s) := by
  cases i with
  | fcEncode c p => simp only [exec, execFcEncode, encodeFrame_ring]; rfl
  | cmdSubmit c p => simp only [exec, execCmdSubmit, submitCommand_ring]; rfl
  | tick => simp only [exec, execTick, advanceTime_ring]; rfl
  | ctlShutdown | tpConnect | tpDisconnect => rfl
  | fcDispatch | cqEnqueue | rcIssue =>
    simp only [exec, execFcDispatch, execCqEnqueue, execRcIssue, dispatchFrame_ring, enqueueFrame_ring,
      issueRequest_ring]
    split
    · rfl
    · rfl
  | wkServe w =>
    have he : wkServeEnabled { s with rb := x } = wkServeEnabled s := rfl
    simp only [exec, execWkServe, he, serveWorker_ring]
    split
    · rfl
    · rfl
  | wkWake =>
    have he : wkWakeEnabled { s with rb := x } = wkWakeEnabled s := rfl
    simp only [exec, execWkWake, he]
    split
    · rfl
    · rfl
  | rcResolve k st =>
    have he : rcResolveEnabled { s with rb := x } k = rcResolveEnabled s k := rfl
    simp only [exec, execRcResolve, he]
    split
    · rfl
    · split
      · rfl
      · rfl
  | rcExpire k =>
    have he : rcExpireEnabled { s with rb := x } k = rcExpireEnabled s k := rfl
    simp only [exec, execRcExpire, he]
    split
    · rfl
    · split
      · rfl
      · rfl
  | _ => cases hi

/-! ### Matching states -/

/-- Two states that differ at most in where the same content lies in the ring, each ring meeting its invariant. -/
def StatesMatch (s t : State) : Prop := ∃ x, t = { s with rb := x } ∧ RingsMatch s.cfg.cw s.rb x

theorem StatesMatch.alike {s t : State} (h : StatesMatch s t) : StatesAlike s t := by
  obtain ⟨x, rfl, hx⟩ := h
  exact ⟨rfl, hx.alike⟩

/-- The hypotheses of R43's statement make a matching pair. -/
theorem statesMatch_of_alike {s t : State} (h : StatesAlike s t)
    (hinv : s.rb.allocated = true → RingInv s.cfg.cw s.rb ∧ RingInv t.cfg.cw t.rb) : StatesMatch s t := by
  obtain ⟨hst, halike⟩ := h
  have hcfg := congrArg State.cfg hst
  rw [← hcfg] at hinv
  exact ⟨t.rb, hst.symm, halike, fun ha => (hinv ha).1, fun ha => (hinv (halike.1.trans ha)).2⟩

theorem StatesMatch.raiseDiag {s t : State} (h : StatesMatch s t) (r : DiagRecord) :
    StatesMatch (raiseDiag r s) (raiseDiag r t) := by
  obtain ⟨x, rfl, hx⟩ := h
  exact ⟨x, rfl, hx⟩

/-- Dispatch neither looks at the ring nor writes it (R132). -/
theorem StatesMatch.dispatchFrame {s t : State} (h : StatesMatch s t) (c : Byte) (p : List Byte) :
    StatesMatch (dispatchFrame c p s) (dispatchFrame c p t) := by
  obtain ⟨x, rfl, hx⟩ := h
  obtain ⟨hcfg, hrb, -⟩ := dispatchFrame_keeps c p s
  refine ⟨x, dispatchFrame_ring c p s x, ?_⟩
  rw [hcfg, hrb]
  exact hx

/-- `FC_EXTRACT` answers alike and leaves matching states (R133). -/
theorem StatesMatch.extractFrame {s t : State} (h : StatesMatch s t) :
    ∃ u v answer, extractFrame s = (u, answer) ∧ extractFrame t = (v, answer) ∧ StatesMatch u v := by
  obtain ⟨x, rfl, hx⟩ := h
  obtain ⟨hring, hrest⟩ := extractPasses_alike hx (ringLength s.cfg.cw s.rb + 1) s.diag
  simp only [extractFrame_eq, ← ringLength_alike hx, ← hrest]
  exact ⟨_, _, _, rfl, rfl, _, rfl, hring⟩

/-- The drain of `TP_RX` leaves matching states: each turn is an extraction and a dispatch (R180). -/
theorem StatesMatch.drainFrames {s t : State} (h : StatesMatch s t) (turns : Nat) :
    StatesMatch (drainFrames turns s) (drainFrames turns t) := by
  induction turns generalizing s t with
  | zero => exact h
  | succ turns ih =>
    obtain ⟨u, v, answer, hs, ht, huv⟩ := h.extractFrame
    simp only [Machine.drainFrames, hs, ht]
    cases answer with
    | none => exact huv
    | some f => exact ih (huv.dispatchFrame f.1 f.2)

/-- A delivery leaves matching states: the push, the record of what did not fit, the drain (R180). -/
theorem StatesMatch.receiveBytes {s t : State} (h : StatesMatch s t) (bytes : List Byte) :
    StatesMatch (receiveBytes bytes s) (receiveBytes bytes t) := by
  obtain ⟨x, rfl, hx⟩ := h
  have hpushed : StatesMatch { s with rb := (ringPush s.cfg.cw s.rb bytes).1 }
      { s with rb := (ringPush s.cfg.cw x bytes).1 } := ⟨_, rfl, hx.push bytes⟩
  simp only [Machine.receiveBytes, ← (ringPush_alike hx bytes).2, ← ringLength_alike (hx.push bytes)]
  split
  · exact (hpushed.raiseDiag _).drainFrames _
  · exact hpushed.drainFrames _

/-! ### Every operation answers alike on matching states -/

/-- The same result over states alike leaves states alike. -/
theorem statesAlike_returning {s t : State} (h : StatesAlike s t) (r : Result) :
    StatesAlike (returning r s) (returning r t) :=
  ⟨congrArg (returning r) h.1, h.2⟩

/-- A delivery hands its bytes to the inbound path, or its row refuses it for its operands alone (log 19). -/
theorem exec_delivery {i : Instr} (hi : isDelivery i = true) :
    (∀ s, exec i s = .next (returning .none (receiveBytes (pushedBytes s.cfg i) s))) ∨
      ∀ s, exec i s = .refused .operandLength := by
  cases i with
  | tpRx bytes => exact .inl fun _ => rfl
  | frame | frameVarRead | frameStatus | frameMode | frameResponse =>
    simp only [exec, execFrame, execFrameVarRead, execFrameStatus, execFrameMode, execFrameResponse]
    split
    · exact .inl fun _ => rfl
    · exact .inr fun _ => rfl
  | _ => cases hi

/-- Where operation `i` completes on `s` it completes on `s'`, with the same result, and leaves the states alike. -/
def AnswersAlike (i : Instr) (s s' : State) : Prop :=
  ∀ t, exec i s = .next t → ∃ t', exec i s' = .next t' ∧ StatesAlike t t'

theorem answersAlike_of_next {i : Instr} {s s' u u' : State} (h : exec i s = .next u) (h' : exec i s' = .next u')
    (hu : StatesAlike u u') : AnswersAlike i s s' := by
  intro t ht
  cases h.symm.trans ht
  exact ⟨u', h', hu⟩

/-- An operation that is one access to the ring answers alike where the access leaves rings alike and answers the same. -/
theorem answersAlike_ringAccess {i : Instr} {s : State} {a a' x : Ring} {r r' : Result}
    (h : exec i s = .next (returning r { s with rb := a }))
    (h' : exec i { s with rb := x } = .next (returning r' { s with rb := a' }))
    (hring : RingsAlike s.cfg.cw a a') (hr : r = r') : AnswersAlike i s { s with rb := x } := by
  subst hr
  exact answersAlike_of_next h h' ⟨rfl, hring⟩

theorem answersAlike_rbChecksum {s s' : State} {n m : Nat} (h : StatesMatch s s')
    (hrange : n > m ∨ m < (content s.cfg.cw s.rb).length) : AnswersAlike (.rbChecksum n m) s s' := by
  obtain ⟨x, rfl, hx⟩ := h
  obtain ⟨v, hv⟩ := ringChecksum_isSome hrange
  have hv' := (ringChecksum_alike hx n m).symm.trans hv
  have hexec : exec (.rbChecksum n m) s = .next (returning (.sum v) s) := by simp only [exec, execRbChecksum, hv]
  have hexec' : exec (.rbChecksum n m) { s with rb := x } = .next (returning (.sum v) { s with rb := x }) := by
    simp only [exec, execRbChecksum, hv']
  exact answersAlike_ringAccess hexec hexec' hx.alike rfl

theorem answersAlike_fcExtract {s s' : State} (h : StatesMatch s s') : AnswersAlike .fcExtract s s' := by
  obtain ⟨u, v, answer, hs, hs', huv⟩ := h.extractFrame
  intro t ht
  simp only [exec, execFcExtract, hs, hs'] at ht ⊢
  cases answer with
  | none => cases ht; exact ⟨_, rfl, statesAlike_returning huv.alike _⟩
  | some f => cases ht; exact ⟨_, rfl, statesAlike_returning huv.alike _⟩

theorem answersAlike_delivery {i : Instr} (hi : isDelivery i = true) {s s' : State} (h : StatesMatch s s') :
    AnswersAlike i s s' := by
  obtain hnext | hrefused := exec_delivery hi
  · have hcfg : s'.cfg = s.cfg := by obtain ⟨x, rfl, -⟩ := h; rfl
    have hs' := hnext s'
    rw [hcfg] at hs'
    exact answersAlike_of_next (hnext s) hs' (statesAlike_returning (h.receiveBytes _).alike _)
  · intro t ht
    rw [hrefused] at ht
    cases ht

/-- An operation that does not look at the ring leaves it (`exec_ring` at the state's own ring). -/
theorem answersAlike_of_not_looksAtRing {i : Instr} (hi : looksAtRing i = false) {s s' : State}
    (h : StatesMatch s s') : AnswersAlike i s s' := by
  obtain ⟨x, rfl, hx⟩ := h
  intro t ht
  have hx' := exec_ring hi s x
  have hown := exec_ring hi s s.rb
  rw [ht] at hx' hown
  have hrb : t.rb = s.rb := (congrArg State.rb (Host.Outcome.next.inj hown) :)
  have hcfg : t.cfg = s.cfg := by
    obtain ⟨u, r, he, rfl⟩ := exec_next_effect ht
    exact he.cfg_eq
  refine ⟨{ t with rb := x }, hx', rfl, ?_⟩
  rw [hcfg, hrb]
  exact hx.alike

/-- Every operation answers alike on matching states, an `RB_CHECKSUM` whose range leaves the content apart (R43). -/
theorem StatesMatch.answersAlike {s s' : State} (h : StatesMatch s s') (i : Instr)
    (hsum : ∀ n m, i = .rbChecksum n m → n > m ∨ m < (content s.cfg.cw s.rb).length) : AnswersAlike i s s' := by
  obtain ⟨x, rfl, hx⟩ := h
  have hmatch : StatesMatch s { s with rb := x } := ⟨x, rfl, hx⟩
  cases i with
  | reset => exact answersAlike_of_next rfl rfl ⟨rfl, (ringAlloc_alike hx.alike _ _).1⟩
  | rbAlloc c =>
    obtain ⟨hring, hok⟩ := ringAlloc_alike hx.alike s.cfg.rbMaxCap c
    exact answersAlike_ringAccess rfl rfl hring (congrArg Result.ok hok)
  | rbPush bytes =>
    obtain ⟨hring, hn⟩ := ringPush_alike hx bytes
    exact answersAlike_ringAccess rfl rfl hring (congrArg Result.count hn)
  | rbPop n =>
    obtain ⟨hring, hbytes⟩ := ringPop_alike hx n
    exact answersAlike_ringAccess rfl rfl hring (congrArg Result.bytes hbytes)
  | rbDiscard n =>
    obtain ⟨hring, hn⟩ := ringDiscard_alike hx n
    exact answersAlike_ringAccess rfl rfl hring (congrArg Result.count hn)
  | rbPeek start len =>
    exact answersAlike_ringAccess rfl rfl hx.alike (congrArg Result.bytes (ringPeek_alike hx start len))
  | rbLength => exact answersAlike_ringAccess rfl rfl hx.alike (congrArg Result.count (ringLength_alike hx))
  | rbChecksum n m => exact answersAlike_rbChecksum hmatch (hsum n m rfl)
  | fcExtract => exact answersAlike_fcExtract hmatch
  | tpRx | frame | frameVarRead | frameStatus | frameMode | frameResponse =>
    exact answersAlike_delivery rfl hmatch
  | _ => exact answersAlike_of_not_looksAtRing rfl hmatch

end Sys2Proof.Proofs

open Sys2Proof.Proofs

/-- Settles O6: the schedule's first transaction is the one taken, and `withFetchWord` puts the table word there. -/
theorem stepRunsTheDecodedOperation : Obligations.StepRunsTheDecodedOperation :=
  ⟨fun _ _ _ _ => step_of_decoded, fun _ _ _ _ hc hd => step_of_decoded hc rfl hd⟩

/-- Settles O28: the accessors of the ring answer alike on matching rings, the extractor and the inbound path go
through them, and what does not look at the ring is blind to it. -/
theorem cursorPlacementIsUnobservable : Obligations.CursorPlacementIsUnobservable := by
  intro i s s' t halike hinv hsum
  exact (statesMatch_of_alike halike hinv).answersAlike i hsum t

end

section
/-! The statements of 30_encoding.md, the code tables: which op bytes are reserved (R85), the operand formats read as
what they encode (R88, log 4), the rows of an arriving frame (R70 to R78, log 6), and the round trip between operations and
their bytes. -/

open Sys2Proof Sys2Proof.Machine Sys2Proof.Laws

namespace Sys2Proof.Proofs

/-! ### Reserved op bytes -/

/-- An op byte selects no operation exactly when the table does not list it (R84). -/
theorem opcodeOf_eq_none_iff (op : Byte) : opcodeOf op = none ↔ op ∉ opcodes.map opcodeByte := by
  simp [opcodeOf, List.find?_eq_none]

/-- The decoder refuses an op byte as reserved exactly when it selects no operation: operands that miss their format are
refused for that (R85, R88). -/
theorem decodeOp8_reservedOp_iff (cfg : Config) (op : Byte) (args : List Byte) :
    decodeOp8 cfg (op :: args) = .error (.reservedOp op) ↔ opcodeOf op = none := by
  cases hop : opcodeOf op with
  | none => simp [decodeOp8, hop]
  | some o =>
    have hne : decodeArgs cfg o args ≠ .error (.reservedOp op) := fun h => by
      obtain he | he | ⟨k, he⟩ := decodeArgs_error h <;> cases he
    simp [decodeOp8, hop, hne]

/-! ### Operand formats: a format accepts exactly what it encodes -/

/-- A byte sequence is the operand bytes of the natural it denotes. -/
theorem leBytes_leNat (bs : List Byte) : leBytes bs.length (leNat bs) = bs := by
  induction bs with
  | nil => rfl
  | cons b bs ih =>
    have hb := b.isLt
    have hlow : BitVec.ofNat 8 (b.toNat + 256 * leNat bs) = b := by
      apply BitVec.eq_of_toNat_eq
      rw [BitVec.toNat_ofNat]
      omega
    have hhigh : (b.toNat + 256 * leNat bs) / 256 = leNat bs := by omega
    simp only [List.length_cons, leNat, leBytes, hlow, hhigh, ih]

theorem fitsCw_iff (cfg : Config) (v : Nat) : fitsCw cfg v = true ↔ v < 2 ^ cfg.cw := decide_eq_true_iff

theorem decodeNone_ok_iff {o : Opcode} {i j : Instr} {args : List Byte} :
    decodeNone o i args = .ok j ↔ args = [] ∧ i = j := by
  cases args <;> simp [decodeNone]

theorem decodeByteSeq_ok_iff {o : Opcode} {mk : Byte → List Byte → Instr} {args : List Byte} {j : Instr} :
    decodeByteSeq o mk args = .ok j ↔ ∃ c q, args = c :: q ∧ mk c q = j := by
  cases args <;> simp [decodeByteSeq]

/-- One `CW`-bit operand. -/
theorem decodeWord_ok_iff {cfg : Config} {o : Opcode} {mk : Nat → Instr} {args : List Byte} {j : Instr} :
    decodeWord cfg o mk args = .ok j ↔
      ∃ v, fitsCw cfg v = true ∧ args = leBytes (operandBytes cfg.cw) v ∧ mk v = j := by
  constructor
  · intro h
    unfold decodeWord at h
    split at h
    · next hlen =>
      split at h
      · next hfit => cases h; exact ⟨leNat args, hfit, by rw [← hlen, leBytes_leNat], rfl⟩
      · cases h
    · cases h
  · rintro ⟨v, hv, rfl, rfl⟩
    have hread := leNat_operand ((fitsCw_iff cfg v).1 hv)
    simp only [decodeWord, leBytes_length, hread, hv, if_true]

/-- Two `CW`-bit operands, the first one first. -/
theorem decodeWords_ok_iff {cfg : Config} {o : Opcode} {mk : Nat → Nat → Instr} {args : List Byte} {j : Instr} :
    decodeWords cfg o mk args = .ok j ↔
      ∃ a b, (fitsCw cfg a && fitsCw cfg b) = true ∧
        args = leBytes (operandBytes cfg.cw) a ++ leBytes (operandBytes cfg.cw) b ∧ mk a b = j := by
  constructor
  · intro h
    simp only [decodeWords] at h
    split at h
    · next hlen =>
      split at h
      · next hfit =>
        cases h
        have hfirst : (args.take (operandBytes cfg.cw)).length = operandBytes cfg.cw := by simp; omega
        have hsecond : (args.drop (operandBytes cfg.cw)).length = operandBytes cfg.cw := by simp; omega
        have htake := leBytes_leNat (args.take (operandBytes cfg.cw))
        have hdrop := leBytes_leNat (args.drop (operandBytes cfg.cw))
        rw [hfirst] at htake
        rw [hsecond] at hdrop
        exact ⟨_, _, hfit, by rw [htake, hdrop, List.take_append_drop], rfl⟩
      · cases h
    · cases h
  · rintro ⟨a, b, hab, rfl, rfl⟩
    have ⟨ha, hb⟩ := Bool.and_eq_true_iff.1 hab
    have hreada := leNat_operand ((fitsCw_iff cfg a).1 ha)
    have hreadb := leNat_operand ((fitsCw_iff cfg b).1 hb)
    simp [decodeWords, hreada, hreadb, ha, hb, Nat.two_mul]

/-- A kind in one byte. -/
theorem decodeKind_ok_iff {cfg : Config} {o : Opcode} {k : Byte} {i j : Instr} :
    decodeKind cfg o k i = .ok j ↔ isKind cfg k.toNat = true ∧ i = j := by
  have hk : isKind cfg k.toNat = true ↔ k.toNat < cfg.kinds.length := by
    have := k.isLt
    simp [isKind]
    omega
  unfold decodeKind
  split
  · next h => simp [hk, h]
  · next h => simp [hk, h]

/-- The byte of a kind carries it (log 17). -/
theorem toNat_ofNat_of_isKind {cfg : Config} {k : Nat} (h : isKind cfg k = true) : (BitVec.ofNat 8 k).toNat = k := by
  simp only [isKind, Bool.and_eq_true, decide_eq_true_eq] at h
  exact Nat.mod_eq_of_lt h.2

/-- A kind's own byte names it. -/
theorem decodeKind_of_isKind {cfg : Config} {k : Nat} (h : isKind cfg k = true) (o : Opcode) (mk : Nat → Instr) :
    decodeKind cfg o (BitVec.ofNat 8 k) (mk (BitVec.ofNat 8 k).toNat) = .ok (mk k) := by
  have hk := toNat_ofNat_of_isKind h
  exact decodeKind_ok_iff.2 ⟨by rwa [hk], by rw [hk]⟩

/-- The op byte of an operation leads to its own operand format (R84). -/
theorem decode_encodeOp (cfg : Config) (o : Opcode) (args : List Byte) :
    decode cfg (encodeOp o args) = decodeArgs cfg o args := by
  simp [decode, encodeOp, decodeOp8, opcodeOf_opcodeByte]

/-- The op byte that selects an operation is its own. -/
theorem opcodeByte_of_opcodeOf {op : Byte} {o : Opcode} (h : opcodeOf op = some o) : opcodeByte o = op := by
  simpa using List.find?_some h

/-- What operand bytes are decoded to is well formed, and they are its operand bytes, `WK_SERVE`'s natural apart
(log 4). -/
theorem decodeArgs_ok {cfg : Config} {o : Opcode} {args : List Byte} {i : Instr}
    (h : decodeArgs cfg o args = .ok i) :
    i.wf cfg = true ∧ ((∀ w, i ≠ .wkServe w) → encode cfg i = encodeOp o args) := by
  cases o with
  | reset | rbLength | fcExtract | wkWake | ctlShutdown | tpConnect | tpDisconnect | tick =>
    obtain ⟨rfl, rfl⟩ := decodeNone_ok_iff.1 h
    exact ⟨rfl, fun _ => rfl⟩
  | rbAlloc | rbPop | rbDiscard =>
    obtain ⟨v, hv, rfl, rfl⟩ := decodeWord_ok_iff.1 h
    exact ⟨hv, fun _ => rfl⟩
  | rbPeek | rbChecksum =>
    obtain ⟨a, b, hab, rfl, rfl⟩ := decodeWords_ok_iff.1 h
    exact ⟨hab, fun _ => rfl⟩
  | fcEncode | cmdSubmit =>
    obtain ⟨c, q, rfl, rfl⟩ := decodeByteSeq_ok_iff.1 h
    exact ⟨rfl, fun _ => rfl⟩
  | rbPush | tpRx =>
    cases h
    exact ⟨rfl, fun _ => rfl⟩
  | wkServe =>
    cases h
    exact ⟨rfl, fun hserve => absurd rfl (hserve _)⟩
  | fcDispatch =>
    simp only [decodeArgs] at h
    split at h
    · split at h
      · next hlen => cases h; exact ⟨beq_iff_eq.2 hlen, fun _ => rfl⟩
      · cases h
    · cases h
  | cqEnqueue =>
    simp only [decodeArgs] at h
    split at h
    · next hlen => cases h; exact ⟨beq_iff_eq.2 hlen, fun _ => rfl⟩
    · cases h
  | rcIssue | rcResolve | rcExpire =>
    simp only [decodeArgs] at h
    split at h
    · obtain ⟨hk, rfl⟩ := decodeKind_ok_iff.1 h
      exact ⟨hk, fun _ => by simp [encode]⟩
    · cases h

/-! ### The 32-bit value of a read-variable payload -/

/-- Bits set above position `i` are added to a number below `2^i`. -/
theorem or_two_pow_mul {a i : Nat} (ha : a < 2 ^ i) (b : Nat) : a ||| 2 ^ i * b = a + 2 ^ i * b := by
  rw [Nat.or_comm, ← Nat.two_pow_add_eq_or_of_lt ha, Nat.add_comm]

/-- The value as a natural: bytes 1 to 4, least significant first (R74). -/
theorem readValue_toNat (p : List Byte) :
    (readValue p).toNat = (payloadByte p 1).toNat + 2 ^ 8 * (payloadByte p 2).toNat +
      2 ^ 16 * (payloadByte p 3).toNat + 2 ^ 24 * (payloadByte p 4).toNat := by
  have h1 := (payloadByte p 1).isLt
  have h2 := (payloadByte p 2).isLt
  have h3 := (payloadByte p 3).isLt
  have h4 := (payloadByte p 4).isLt
  have hbits : (readValue p).toNat = (payloadByte p 1).toNat ||| 2 ^ 8 * (payloadByte p 2).toNat |||
      2 ^ 16 * (payloadByte p 3).toNat ||| 2 ^ 24 * (payloadByte p 4).toNat := by
    simp only [readValue, BitVec.toNat_or, BitVec.toNat_shiftLeft, BitVec.toNat_setWidth, Nat.shiftLeft_eq]
    congr <;> omega
  rw [hbits, or_two_pow_mul (i := 8) (by omega), or_two_pow_mul (i := 16) (by omega),
    or_two_pow_mul (i := 24) (by omega)]

/-- The value whose four bytes stand in a payload is read back (R74). -/
theorem readValue_valueBytes (identifier : Byte) (value : BitVec 32) (rest : List Byte) :
    readValue (identifier :: (valueBytes value ++ rest)) = value := by
  apply BitVec.eq_of_toNat_eq
  have hv := value.isLt
  rw [readValue_toNat]
  simp only [payloadByte, valueBytes, List.cons_append, List.getD_cons_succ, List.getD_cons_zero,
    BitVec.extractLsb'_toNat, Nat.shiftRight_eq_div_pow]
  omega

/-- The bytes of the value read are bytes 1 to 4 of the payload (R74). -/
theorem valueBytes_readValue (p : List Byte) :
    valueBytes (readValue p) = [payloadByte p 1, payloadByte p 2, payloadByte p 3, payloadByte p 4] := by
  have h1 := (payloadByte p 1).isLt
  have h2 := (payloadByte p 2).isLt
  have h3 := (payloadByte p 3).isLt
  have h4 := (payloadByte p 4).isLt
  simp only [valueBytes, List.cons.injEq, and_true]
  refine ⟨?_, ?_, ?_, ?_⟩ <;> apply BitVec.eq_of_toNat_eq <;>
    rw [BitVec.extractLsb'_toNat, readValue_toNat, Nat.shiftRight_eq_div_pow] <;> omega

/-! ### The rows of an arriving frame -/

theorem wf_frame_iff {cfg : Config} {c : Byte} {p : List Byte} :
    (Instr.frame c p).wf cfg = true ↔ p.length = 10 ∧ respKind cfg c = none ∧
      (classOf cfg c = .unclassified ∨ classOf cfg c = .varRead ∧ c ≠ varReadCode) := by
  simp [Instr.wf, and_assoc]

theorem wf_frameVarRead_iff {cfg : Config} {a : Byte} {v : BitVec 32} {rest : List Byte} :
    (Instr.frameVarRead a v rest).wf cfg = true ↔
      rest.length = 5 ∧ respKind cfg varReadCode = none ∧ classOf cfg varReadCode = .varRead := by
  simp [Instr.wf, and_assoc]

theorem wf_frameStatus_iff {cfg : Config} {c a b : Byte} {rest : List Byte} :
    (Instr.frameStatus c a b rest).wf cfg = true ↔
      rest.length = 8 ∧ respKind cfg c = none ∧ classOf cfg c = .status := by
  simp [Instr.wf, and_assoc]

theorem wf_frameMode_iff {cfg : Config} {c a : Byte} {rest : List Byte} :
    (Instr.frameMode c a rest).wf cfg = true ↔
      rest.length = 9 ∧ respKind cfg c = none ∧ classOf cfg c = .mode := by
  simp [Instr.wf, and_assoc]

theorem wf_frameResponse_iff {cfg : Config} {c a : Byte} {rest : List Byte} :
    (Instr.frameResponse c a rest).wf cfg = true ↔ rest.length = 9 ∧ (respKind cfg c).isSome = true := by
  simp [Instr.wf]

/-- The decoder accepts exactly the frames of a command and ten payload bytes (R79), and answers their row. -/
theorem decodeFrame14_ok_iff {cfg : Config} {w : List Byte} {i : Instr} :
    decodeFrame14 cfg w = .ok i ↔
      ∃ c p, p.length = payloadLen ∧ w = frameOf cfg c p ∧ classifyFrame cfg c p = i := by
  constructor
  · intro h
    unfold decodeFrame14 at h
    split at h
    · cases h
    split at h
    · cases h
    split at h
    · cases h
    split at h
    · cases h
    next hlen hheader hfooter hsum =>
    rw [not_not] at hlen hheader hfooter hsum
    have hvalid : validFrame cfg w = true := by
      simp only [validFrame, hlen, hheader, hfooter, hsum, beq_self_eq_true, Bool.and_self]
    cases h
    exact ⟨_, _, by rw [List.length_take, List.length_drop, hlen]; rfl, validFrame_eq_frameOf hvalid, rfl⟩
  · rintro ⟨c, p, hp, rfl, rfl⟩
    obtain ⟨hheader, hcommand, hpayload, hsum, hfooter⟩ := frameOf_getElem? cfg c p
    simp only [decodeFrame14, frameOf_length, hheader, hpayload, hsum, hfooter, normalizePayload_id hp,
      List.getD_eq_getElem?_getD, hcommand, Option.getD_some, ne_eq, not_true_eq_false, if_false]

theorem decode_frameOf {cfg : Config} (c : Byte) {p : List Byte} (hp : p.length = payloadLen) :
    decode cfg (.frame14 (frameOf cfg c p)) = .ok (classifyFrame cfg c p) :=
  decodeFrame14_ok_iff.2 ⟨c, p, hp, rfl, rfl⟩

/-- The row a frame falls under is well formed, and its fields are the frame's payload, split at the row's places. -/
theorem classifyFrame_spec (cfg : Config) (c : Byte) {p : List Byte} (hp : p.length = payloadLen) :
    (classifyFrame cfg c p).wf cfg = true ∧ encode cfg (classifyFrame cfg c p) = .frame14 (frameOf cfg c p) := by
  have hone : payloadByte p 0 :: p.drop 1 = p := by
    match p, hp with
    | _ :: _, _ => rfl
  have htwo : payloadByte p 0 :: payloadByte p 1 :: p.drop 2 = p := by
    match p, hp with
    | _ :: _ :: _, _ => rfl
  have hfive : payloadByte p 0 :: (valueBytes (readValue p) ++ p.drop 5) = p := by
    rw [valueBytes_readValue]
    match p, hp with
    | _ :: _ :: _ :: _ :: _ :: _, _ => rfl
  have hdrop : ∀ n, (p.drop n).length = 10 - n := fun n => by rw [List.length_drop, hp]
  unfold classifyFrame
  split
  · next hkind => exact ⟨wf_frameResponse_iff.2 ⟨hdrop 1, hkind⟩, by rw [encode, hone]⟩
  next hkind =>
  rw [Option.not_isSome_iff_eq_none] at hkind
  split
  · next hclass =>
    split
    · next hcode =>
      subst hcode
      exact ⟨wf_frameVarRead_iff.2 ⟨hdrop 5, hkind, hclass⟩, by rw [encode, hfive]⟩
    · next hcode => exact ⟨wf_frame_iff.2 ⟨hp, hkind, .inr ⟨hclass, hcode⟩⟩, rfl⟩
  · next hclass => exact ⟨wf_frameStatus_iff.2 ⟨hdrop 2, hkind, hclass⟩, by rw [encode, htwo]⟩
  · next hclass => exact ⟨wf_frameMode_iff.2 ⟨hdrop 1, hkind, hclass⟩, by rw [encode, hone]⟩
  · next hclass => exact ⟨wf_frame_iff.2 ⟨hp, hkind, .inl hclass⟩, rfl⟩

/-- Whatever decodes is well formed, and its encoding is what was decoded, `WK_SERVE`'s natural apart (log 4). -/
theorem decode_ok {cfg : Config} {t : Transaction} {i : Instr} (h : decode cfg t = .ok i) :
    i.wf cfg = true ∧ ((∀ w, i ≠ .wkServe w) → encode cfg i = t) := by
  cases t with
  | op8 bytes =>
    cases bytes with
    | nil => cases h
    | cons op args =>
      simp only [decode, decodeOp8] at h
      split at h
      · next o ho =>
        have hargs := decodeArgs_ok h
        rwa [encodeOp, opcodeByte_of_opcodeOf ho] at hargs
      · cases h
  | frame14 w =>
    obtain ⟨c, p, hp, rfl, rfl⟩ := decodeFrame14_ok_iff.1 h
    obtain ⟨hwf, hencode⟩ := classifyFrame_spec cfg c hp
    exact ⟨hwf, fun _ => hencode⟩

/-- The bytes of a well-formed operation or frame decode to it. -/
theorem decode_encode {cfg : Config} {i : Instr} (h : i.wf cfg = true) :
    decode cfg (encode cfg i) = .ok i := by
  cases i with
  | reset | rbLength | fcExtract | wkWake | ctlShutdown | tpConnect | tpDisconnect | tick => exact decode_encodeOp ..
  | rbAlloc v | rbPop v | rbDiscard v =>
    exact (decode_encodeOp ..).trans (decodeWord_ok_iff.2 ⟨v, h, rfl, rfl⟩)
  | rbPeek a b | rbChecksum a b =>
    exact (decode_encodeOp ..).trans (decodeWords_ok_iff.2 ⟨a, b, h, rfl, rfl⟩)
  | fcEncode | cmdSubmit | rbPush | tpRx => exact decode_encodeOp ..
  | wkServe n => exact (decode_encodeOp ..).trans (by rw [decodeArgs, leNat_natBytes])
  | fcDispatch | cqEnqueue => exact (decode_encodeOp ..).trans (if_pos (beq_iff_eq.1 h))
  | rcIssue k q => exact (decode_encodeOp ..).trans (decodeKind_of_isKind h _ (.rcIssue · q))
  | rcResolve k st => exact (decode_encodeOp ..).trans (decodeKind_of_isKind h _ (.rcResolve · st))
  | rcExpire k => exact (decode_encodeOp ..).trans (decodeKind_of_isKind h _ .rcExpire)
  | frame c p =>
    obtain ⟨hlen, hkind, hclass⟩ := wf_frame_iff.1 h
    rw [encode, decode_frameOf c hlen]
    obtain hclass | ⟨hclass, hcode⟩ := hclass
    · simp [classifyFrame, hkind, hclass]
    · simp [classifyFrame, hkind, hclass, hcode]
  | frameVarRead a v rest =>
    obtain ⟨hlen, hkind, hclass⟩ := wf_frameVarRead_iff.1 h
    rw [encode, decode_frameOf _ (by simp [valueBytes, hlen])]
    simp only [classifyFrame, hkind, hclass, readValue_valueBytes]
    rfl
  | frameStatus c a b rest =>
    obtain ⟨hlen, hkind, hclass⟩ := wf_frameStatus_iff.1 h
    rw [encode, decode_frameOf c (by simp [hlen])]
    simp [classifyFrame, hkind, hclass, payloadByte]
  | frameMode c a rest =>
    obtain ⟨hlen, hkind, hclass⟩ := wf_frameMode_iff.1 h
    rw [encode, decode_frameOf c (by simp [hlen])]
    simp [classifyFrame, hkind, hclass, payloadByte]
  | frameResponse c a rest =>
    obtain ⟨hlen, hkind⟩ := wf_frameResponse_iff.1 h
    rw [encode, decode_frameOf c (by simp [hlen])]
    simp [classifyFrame, hkind, payloadByte]

/-- A table word that is the encoding of a well-formed operation decodes to it. -/
theorem decodeTableWord_of_encode {nbits w : Nat} {i : Instr} (hwf : i.wf Config.standard = true)
    (h : tableTransaction Config.standard nbits w = encode Config.standard i) : decodeTableWord nbits w = some i := by
  rw [decodeTableWord, h, decode_encode hwf]

end Sys2Proof.Proofs

open Sys2Proof.Proofs

/-- Settles O1: case by case, the operand format of the operation, or the row of the frame, reads back what was
encoded. -/
theorem decodeOfEncodeIsIdentity : Obligations.DecodeOfEncodeIsIdentity :=
  fun _ _ => decode_encode

/-- Settles O2: each operand format checks R88's type, and each row of a frame its own class. -/
theorem decodedOperationsAreWellFormed : Obligations.DecodedOperationsAreWellFormed :=
  fun _ _ _ h => (decode_ok h).1

/-- Settles O3: each operand format accepts only what it encodes, and a valid frame is the frame of its own fields. -/
theorem decodedTransactionsEncodeBack : Obligations.DecodedTransactionsEncodeBack :=
  fun _ _ _ h => (decode_ok h).2

/-- Settles O4: an op byte is reserved exactly when it selects nothing, and the table's codes are the 23 written out. -/
theorem reservedOpSelectCodes : Obligations.ReservedOpSelectCodes :=
  fun cfg op args => (decodeOp8_reservedOp_iff cfg op args).trans (opcodeOf_eq_none_iff op)

/-- Settles O5: each word is the encoding of its operation, which decodes back (`decode_encode`). -/
theorem specWordsDecodeToTheirOperations : Obligations.SpecWordsDecodeToTheirOperations :=
  ⟨decodeTableWord_of_encode rfl rfl, decodeTableWord_of_encode rfl rfl, decodeTableWord_of_encode rfl rfl,
    decodeTableWord_of_encode rfl rfl, decode_encode (i := .rbPush _) rfl, decode_encode (i := .rcResolve 0 _) rfl,
    decodeTableWord_of_encode (by decide) (by decide),
    (congrArg _ (by decide)).trans (decode_encode (by decide)),
    (congrArg _ (by decide)).trans (decode_encode (by decide)), decodeTableWord_of_encode (by decide) (by decide)⟩

end

section
/-! The statements of 30_encoding.md, the frames: what is encoded and what is extracted is valid (R79), the fields of a
read-variable response (R74), and what a frame does that arrives at an empty ring (R132, R163, R168, log 5). -/

open Sys2Proof Sys2Proof.Machine Sys2Proof.Laws

namespace Sys2Proof.Proofs

/-! ### What is extracted -/

/-- A valid window of the content and what lies on either side of it. -/
theorem eq_frameOf_append_of_frameAt {cfg : Config} {str : List Byte} {j : Nat} (h : frameAt cfg str j = true) :
    str = str.take j ++ frameOf cfg (str.getD (j + 1) 0x00#8) ((str.drop (j + 2)).take payloadLen) ++
      str.drop (j + 14) := by
  have hvalid : validFrame cfg ((str.drop j).take frameLen) = true := by
    simp only [frameAt, Bool.and_eq_true] at h
    exact h.2
  have hwindow := validFrame_eq_frameOf hvalid
  have hcommand : ((str.drop j).take frameLen).getD 1 0x00#8 = str.getD (j + 1) 0x00#8 := by
    simp [List.getD_eq_getElem?_getD]
  have hpayload : (((str.drop j).take frameLen).drop 2).take payloadLen = (str.drop (j + 2)).take payloadLen := by
    rw [List.drop_take, List.take_take, List.drop_drop]
    rfl
  rw [hcommand, hpayload] at hwindow
  rw [← hwindow, List.append_assoc, ← List.drop_drop, List.take_append_drop, List.take_append_drop]

/-- What the extractor returns is a frame of the content: noise before it is dropped with it, the bytes after it are
left (R122, R128). -/
theorem extractFrame_some {s t : State} {command : Byte} {payload : List Byte} (ha : s.rb.allocated = true)
    (hr : RingInv s.cfg.cw s.rb) (h : extractFrame s = (t, some (command, payload))) :
    payload.length = payloadLen ∧
      ∃ noise, content s.cfg.cw s.rb = noise ++ frameOf s.cfg command payload ++ content t.cfg.cw t.rb := by
  have hscan := extractFrame_eq_scan s ha hr
  obtain hnone | ⟨j, hj, hfirst⟩ := frameAt_least s.cfg (content s.cfg.cw s.rb)
  · rw [scan_none _ _ _ _ (by omega) hnone] at hscan
    cases h.symm.trans hscan
  · have hlen := frameAt_length hj
    rw [scan_some _ _ _ _ j (by omega) hj hfirst] at hscan
    cases h.symm.trans hscan
    obtain ⟨-, hleft, -⟩ := ringDiscard_within ha hr hlen
    have hpayload : (((content s.cfg.cw s.rb).drop (j + 2)).take payloadLen).length = payloadLen := by
      simp only [List.length_take, List.length_drop, payloadLen]
      omega
    refine ⟨hpayload, (content s.cfg.cw s.rb).take j, ?_⟩
    dsimp only
    rw [hleft]
    exact eq_frameOf_append_of_frameAt hj

/-- An `FC_EXTRACT` that answers a frame has extracted it. -/
theorem exec_fcExtract_decoded {s t : State} {command : Byte} {payload : List Byte}
    (h : exec .fcExtract s = .next t) (hret : t.ret = .decoded command payload) :
    ∃ u, extractFrame s = (u, some (command, payload)) ∧ t = returning (.decoded command payload) u := by
  simp only [exec, execFcExtract] at h
  split at h
  · cases h; cases hret
  · next u c p hx => cases h; cases hret; exact ⟨u, hx, rfl⟩

/-! ### What a dispatch does, class by class -/

/-- The correlator has no kind for the command (R165). -/
theorem respKind_eq_none_iff {cfg : Config} {c : Byte} :
    respKind cfg c = none ↔ ∀ kp ∈ cfg.kinds, kp.respCmd ≠ c := by
  simp [respKind, List.findIdx?_eq_none_iff]

/-- A command with a class that is no kind's response is its class's event, and nothing else (R132). -/
theorem dispatchFrame_event {s : State} {c : Byte} {p : List Byte} {e : Event} (hk : respKind s.cfg c = none)
    (he : classEvent (classOf s.cfg c) c p = some e) : dispatchFrame c p s = emitEvent e s := by
  simp only [dispatchFrame, correlate_miss (respKind_eq_none_iff.1 hk), he]

/-- A command known to neither look-up is reported (R81, R132). -/
theorem dispatchFrame_unknown {s : State} {c : Byte} (p : List Byte) (hk : respKind s.cfg c = none)
    (hc : classOf s.cfg c = .unclassified) : dispatchFrame c p s = raiseDiag (.unknownCommand c) s := by
  simp [dispatchFrame, correlate_miss (respKind_eq_none_iff.1 hk), hc, classEvent]

/-- A kind's response without a class goes to its kind alone (R132, R4 (d)). -/
theorem dispatchFrame_respond {s : State} {k : Nat} {kp : KindParams} (p : List Byte)
    (hn : (s.cfg.kinds.map KindParams.respCmd).Nodup) (hk : s.cfg.kinds[k]? = some kp)
    (hc : classOf s.cfg kp.respCmd = .unclassified) :
    dispatchFrame kp.respCmd p s = respond kp k kp.respCmd (payloadByte p 0) s := by
  simp [dispatchFrame, correlate_hit hn hk, hc, classEvent]

theorem exec_fcDispatch {c : Byte} {p : List Byte} (hp : p.length = payloadLen) (s : State) :
    exec (.fcDispatch c p) s = .next (returning .none (dispatchFrame c p s)) := if_pos hp

/-! ### How a request ends -/

/-- A resolution ends the request of its kind (R167). -/
theorem rcOf_resolved (r : Result) (k : Nat) (why : Reason) (code : Option Byte) (s : State) :
    rcOf (returning r (resolveRequest k why code s)) k = .idle :=
  (rcOf_resolveRequest k k why code s).trans (if_pos rfl)

/-- A resolution reports one outcome of its kind (R170). -/
theorem outcomesOf_resolved (r : Result) (k : Nat) (why : Reason) (code : Option Byte) (s : State) :
    outcomesOf (returning r (resolveRequest k why code s)) k = outcomesOf s k + 1 := by
  simp [outcomesOf]

/-! ### The frame rows are deliveries -/

/-- A row whose fields have their length is the arrival of the frame they make (R45 (b), R70, log 5). -/
theorem exec_frame {c : Byte} {p : List Byte} (hp : p.length = 10) (s : State) :
    exec (.frame c p) s = exec (.tpRx (frameOf s.cfg c p)) s := if_pos hp

theorem exec_frameVarRead {a : Byte} {v : BitVec 32} {rest : List Byte} (hp : rest.length = 5) (s : State) :
    exec (.frameVarRead a v rest) s = exec (.tpRx (frameOf s.cfg varReadCode (a :: (valueBytes v ++ rest)))) s :=
  if_pos hp

theorem exec_frameStatus {c a b : Byte} {rest : List Byte} (hp : rest.length = 8) (s : State) :
    exec (.frameStatus c a b rest) s = exec (.tpRx (frameOf s.cfg c (a :: b :: rest))) s := if_pos hp

theorem exec_frameMode {c a : Byte} {rest : List Byte} (hp : rest.length = 9) (s : State) :
    exec (.frameMode c a rest) s = exec (.tpRx (frameOf s.cfg c (a :: rest))) s := if_pos hp

theorem exec_frameResponse {c a : Byte} {rest : List Byte} (hp : rest.length = 9) (s : State) :
    exec (.frameResponse c a rest) s = exec (.tpRx (frameOf s.cfg c (a :: rest))) s := if_pos hp

/-! ### A frame that arrives at an empty ring -/

/-- A ring that is allocated, empty, and large enough for a frame, and meets its invariant (R14). -/
structure ReadyRing (cw : Nat) (rb : Ring) : Prop where
  allocated : rb.allocated = true
  inv : RingInv cw rb
  cap : frameLen ≤ rb.cap
  empty : content cw rb = []

/-- The drain of exactly one frame: it is dispatched, its bytes are dropped, no counter moves (R122, R180). -/
theorem drain_frameOf (turns : Nat) (s : State) (c : Byte) {p : List Byte} (hp : p.length = payloadLen) :
    drain (turns + 1) (frameOf s.cfg c p) s = (frameLen, dispatchFrame c p s) := by
  obtain ⟨-, hcommand, hpayload, -, -⟩ := frameOf_getElem? s.cfg c p
  have hframe : frameAt s.cfg (frameOf s.cfg c p) 0 = true := by
    simp [frameAt, List.take_of_length_le, frameOf_valid]
  have hscan := scan_some s.cfg ((frameOf s.cfg c p).length + 1) (frameOf s.cfg c p) s.diag 0 (by omega) hframe
    (by omega)
  have hrest : ∀ u, drain turns [] u = (0, u) := by
    intro u
    cases turns with
    | zero => rfl
    | succ n => rfl
  simp only [Nat.zero_add, List.getD_eq_getElem?_getD, hcommand, hpayload, normalizePayload_id hp,
    Option.getD_some] at hscan
  simp only [drain, hscan]
  rw [List.drop_of_length_le (by rw [frameOf_length]), hrest]
  rfl

/-- A frame that arrives at an empty ring passes through it and is dispatched (R102, R122, R180). -/
theorem exec_tpRx_frameOf {s u : State} (h : ReadyRing s.cfg.cw s.rb) {c : Byte} {p : List Byte}
    (hp : p.length = payloadLen) (hu : dispatchFrame c p (passedThrough s (frameOf s.cfg c p)) = u) :
    exec (.tpRx (frameOf s.cfg c p)) s = .next (returning .none u) := by
  have hgap : cursorGap s.cfg.cw s.rb = 0 := by rw [← content_length, h.empty, List.length_nil]
  have hfits : min (frameOf s.cfg c p).length (ringFree s.cfg.cw s.rb) = (frameOf s.cfg c p).length := by
    have := h.cap
    rw [ringFree, hgap, frameOf_length]
    omega
  have hpush := ringPush_allocated (cw := s.cfg.cw) (frameOf s.cfg c p) h.allocated
  rw [hfits, List.take_length] at hpush
  have hall : ¬(ringPush s.cfg.cw s.rb (frameOf s.cfg c p)).2 < (frameOf s.cfg c p).length := by
    rw [hpush]
    exact lt_irrefl _
  obtain ⟨-, -, -, -, -, -, hcontent, -⟩ := ringPush_spec (frameOf s.cfg c p) h.allocated h.inv
  change _ = _ ++ (frameOf s.cfg c p).take (min _ (ringFree s.cfg.cw s.rb)) at hcontent
  rw [h.empty, hfits, List.take_length, List.nil_append] at hcontent
  have hreceive := (receiveBytes_eq (frameOf s.cfg c p) s h.allocated h.inv).1
  simp only [if_neg hall, hcontent, drain_frameOf _ _ _ hp] at hreceive
  simp only [exec, execTpRx, ← hu, hreceive, hpush, passedThrough, dispatchFrame_ring, frameOf_length]

/-- A frame of a classified command that is no kind's response, arriving at an empty ring, delivers its class's
event. -/
theorem exec_tpRx_event {s : State} (h : ReadyRing s.cfg.cw s.rb) {c : Byte} {p : List Byte} {e : Event}
    (hp : p.length = payloadLen) (hk : respKind s.cfg c = none) (he : classEvent (classOf s.cfg c) c p = some e) :
    exec (.tpRx (frameOf s.cfg c p)) s =
      .next { passedThrough s (frameOf s.cfg c p) with ev := s.ev ++ [e], ret := .none } :=
  exec_tpRx_frameOf h hp (dispatchFrame_event hk he)

end Sys2Proof.Proofs

open Sys2Proof.Proofs

/-- Settles O30: the frame's bytes by index, and the first valid window of the content, which is what the extractor
returns. -/
theorem encodedAndExtractedFramesAreValid : Obligations.EncodedAndExtractedFramesAreValid := by
  refine ⟨fun cfg c p => ?_, fun s t c p ha hr h hret => ?_⟩
  · obtain ⟨hheader, -, -, hsum, hfooter⟩ := frameOf_getElem? cfg c p
    exact ⟨frameOf_length cfg c p, hheader, hfooter, hsum⟩
  · obtain ⟨u, hx, rfl⟩ := exec_fcExtract_decoded h hret
    exact extractFrame_some (t := u) ha hr hx

/-- Settles O36: the class's event is the only effect of the dispatch, and its value is the four bytes at their
weights (`readValue_toNat`). -/
theorem readVariableValueIsLittleEndian : Obligations.ReadVariableValueIsLittleEndian := by
  intro s c b0 b1 b2 b3 b4 ignored hlen hclass hkinds
  refine ⟨readValue (b0 :: b1 :: b2 :: b3 :: b4 :: ignored), ?_, rfl, readValue_toNat _⟩
  rw [exec_fcDispatch (by simp [hlen]), dispatchFrame_event (respKind_eq_none_iff.2 hkinds) (by rw [hclass]; rfl)]
  rfl

/-- Settles O58: each row checks its fields' length and delivers its frame. -/
theorem frameRowsAreDeliveries : Obligations.FrameRowsAreDeliveries :=
  fun s _ _ _ _ _ => ⟨(exec_frame · s), (exec_frameVarRead · s), (exec_frameStatus · s), (exec_frameMode · s),
    (exec_frameResponse · s)⟩

/-- Settles O59: the frame passes through the empty ring to the dispatch, which finds no kind for a well-formed row's
command and delivers by its class. -/
theorem arrivingFramesDeliverTheirFields : Obligations.ArrivingFramesDeliverTheirFields := by
  intro s i ha hr hcap hempty hwf arrived
  have hring : ReadyRing s.cfg.cw s.rb := ⟨ha, hr, hcap, hempty⟩
  refine ⟨?_, ?_, ?_, ?_, ?_⟩
  · rintro c p rfl hclass
    obtain ⟨hlen, hkind, -⟩ := wf_frame_iff.1 hwf
    exact (exec_frame hlen s).trans (exec_tpRx_frameOf hring hlen (dispatchFrame_unknown p hkind hclass))
  · rintro c p rfl hclass
    obtain ⟨hlen, hkind, -⟩ := wf_frame_iff.1 hwf
    exact (exec_frame hlen s).trans (exec_tpRx_event hring hlen hkind (by rw [hclass]; rfl))
  · rintro a v rest rfl
    obtain ⟨hlen, hkind, hclass⟩ := wf_frameVarRead_iff.1 hwf
    refine (exec_frameVarRead hlen s).trans (exec_tpRx_event hring (by simp [valueBytes, hlen]) hkind ?_)
    rw [hclass, classEvent, readValue_valueBytes]
    rfl
  · rintro c a b rest rfl
    obtain ⟨hlen, hkind, hclass⟩ := wf_frameStatus_iff.1 hwf
    exact (exec_frameStatus hlen s).trans (exec_tpRx_event hring (by simp [hlen]) hkind (by rw [hclass]; rfl))
  · rintro c a rest rfl
    obtain ⟨hlen, hkind, hclass⟩ := wf_frameMode_iff.1 hwf
    exact (exec_frameMode hlen s).trans (exec_tpRx_event hring (by simp [hlen]) hkind (by rw [hclass]; rfl))

/-- Settles O60: the frame passes through the empty ring to the dispatch, which hands it to its one kind; the two
clauses are what a response can do (`respond`). -/
theorem arrivingResponseResolvesItsKind : Obligations.ArrivingResponseResolvesItsKind := by
  rintro s _ status rest k kp ha hr hcap hempty hlen hnodup hk rfl hclass arrived
  have harrives : exec (.frameResponse kp.respCmd status rest) s =
      .next (returning .none (respond kp k kp.respCmd status arrived)) :=
    (exec_frameResponse hlen s).trans
      (exec_tpRx_frameOf ⟨ha, hr, hcap, hempty⟩ (by simp [hlen]) (dispatchFrame_respond _ hnodup hk hclass))
  obtain ⟨issued, deadline, hrc, hrespond⟩ | ⟨hrc, hrespond⟩ := respond_cases kp k kp.respCmd status arrived
  · have hawaiting : rcOf s k = .awaiting issued deadline := hrc
    refine ⟨fun _ => ⟨_, harrives, ?_, ?_, ?_⟩, fun hidle => by rw [hidle] at hawaiting; cases hawaiting⟩
    · have hkind : arrived.cfg.kinds[k]? = some kp := hk
      simp only [exec, execRcResolve, hkind, rcResolveEnabled, hrc, if_true, hrespond, resolveByStatus]
    · rw [hrespond, rcOf_resolved]
    · rw [hrespond, outcomesOf_resolved]
      rfl
  · refine ⟨fun hne => absurd hrc hne, fun _ => ?_⟩
    rw [harrives, hrespond]
    rfl

end

section
/-! The statements of 40_ring_buffer.md. Each operation on the ring is one access to it, and an access to an allocated
ring is a matter of the content: a push appends to it, a pop and a discard drop from its front, the others read it. -/

open Sys2Proof Sys2Proof.Machine Sys2Proof.Laws

namespace Sys2Proof.Proofs

/-! ### Each operation is one access to the ring -/

theorem exec_rbAlloc {s : State} {capacity : Nat} {rb : Ring} {ok : Bool}
    (h : ringAlloc s.cfg.rbMaxCap s.rb capacity = (rb, ok)) :
    exec (.rbAlloc capacity) s = .next { s with rb := rb, ret := .ok ok } := by
  simp only [exec, execRbAlloc, returning, h]

theorem exec_rbPush {s : State} {bytes : List Byte} {rb : Ring} {n : Nat}
    (h : ringPush s.cfg.cw s.rb bytes = (rb, n)) :
    exec (.rbPush bytes) s = .next { s with rb := rb, ret := .count n } := by
  simp only [exec, execRbPush, returning, h]

theorem exec_rbPop {s : State} {maxLen : Nat} {rb : Ring} {bytes : List Byte}
    (h : ringPop s.cfg.cw s.rb maxLen = (rb, bytes)) :
    exec (.rbPop maxLen) s = .next { s with rb := rb, ret := .bytes bytes } := by
  simp only [exec, execRbPop, returning, h]

theorem exec_rbPeek {s : State} {start len : Nat} {bytes : List Byte}
    (h : ringPeek s.cfg.cw s.rb start len = bytes) :
    exec (.rbPeek start len) s = .next { s with ret := .bytes bytes } := by
  simp only [exec, execRbPeek, returning, h]

theorem exec_rbDiscard {s : State} {len : Nat} {rb : Ring} {n : Nat}
    (h : ringDiscard s.cfg.cw s.rb len = (rb, n)) :
    exec (.rbDiscard len) s = .next { s with rb := rb, ret := .count n } := by
  simp only [exec, execRbDiscard, returning, h]

theorem exec_rbChecksum_some {s : State} {n m : Nat} {v : BitVec 16}
    (h : ringChecksum s.cfg.cw s.rb n m = some v) :
    exec (.rbChecksum n m) s = .next { s with ret := .sum v } := by
  simp only [exec, execRbChecksum, returning, h]

/-- A range without a sum draws one (U3, log 11). -/
theorem exec_rbChecksum_none {s : State} {n m : Nat} (h : ringChecksum s.cfg.cw s.rb n m = none) :
    exec (.rbChecksum n m) s =
      .next { s with ret := .sum (Config.freeSum s.draws), draws := s.draws + 1 } := by
  simp only [exec, execRbChecksum, returning, h]

theorem exec_rbLength {s : State} {n : Nat} (h : ringLength s.cfg.cw s.rb = n) :
    exec .rbLength s = .next { s with ret := .count n } := by
  simp only [exec, execRbLength, returning, h]

/-! ### The accessors of an unallocated ring (R100) -/

theorem ringPop_unallocated {cw : Nat} {rb : Ring} (n : Nat) (h : rb.allocated = false) :
    ringPop cw rb n = (rb, []) := by
  simp [ringPop, h]

theorem ringPeek_unallocated {cw : Nat} {rb : Ring} (start len : Nat) (h : rb.allocated = false) :
    ringPeek cw rb start len = [] := by
  simp [ringPeek, h]

theorem ringChecksum_unallocated {cw : Nat} {rb : Ring} (n m : Nat) (h : rb.allocated = false) :
    ringChecksum cw rb n m = some 0#16 := by
  simp [ringChecksum, h]

theorem ringLength_unallocated {cw : Nat} {rb : Ring} (h : rb.allocated = false) : ringLength cw rb = 0 := by
  simp [ringLength, h]

/-! ### Dropping from the front, in one part and in two -/

/-- R105: a discard moves the read cursor and says by how much. -/
theorem ringDiscard_min {cw : Nat} {rb : Ring} (len : Nat) (ha : rb.allocated = true) (h : RingInv cw rb) :
    let n := min len (content cw rb).length
    ringDiscard cw rb len = ({ rb with rd := addW cw rb.rd n }, n) ∧
      content cw { rb with rd := addW cw rb.rd n } = (content cw rb).drop n := by
  obtain ⟨hdiscard, -, hcontent, -⟩ := ringDiscard_spec len ha h
  rw [← content_length] at hdiscard hcontent
  rw [hdiscard] at hcontent
  exact ⟨hdiscard, hcontent⟩

/-- R105: what is dropped is the front of the content; a count beyond the length drops everything. -/
theorem ringDiscard_content {cw : Nat} {rb : Ring} (len : Nat) (ha : rb.allocated = true) (h : RingInv cw rb) :
    content cw (ringDiscard cw rb len).1 = (content cw rb).drop len := by
  obtain ⟨-, -, hcontent, -⟩ := ringDiscard_spec len ha h
  rw [hcontent, ← content_length, List.drop_eq_drop_iff]
  omega

/-- R109: the read cursor moves over two parts of the content as over both together. -/
theorem ringDiscard_add {cw : Nat} {rb : Ring} (p q : Nat) (ha : rb.allocated = true) (h : RingInv cw rb) :
    ringDiscard cw rb (p + q) =
      ((ringDiscard cw (ringDiscard cw rb p).1 q).1,
        (ringDiscard cw rb p).2 + (ringDiscard cw (ringDiscard cw rb p).1 q).2) := by
  obtain ⟨hwhole, -⟩ := ringDiscard_spec (p + q) ha h
  obtain ⟨hfirst, hgap, -, hinv⟩ := ringDiscard_spec p ha h
  have hall : (ringDiscard cw rb p).1.allocated = true := (ringDiscard_keeps cw rb p).1.trans ha
  obtain ⟨hsecond, -⟩ := ringDiscard_spec q hall hinv
  have hcount : min (p + q) (cursorGap cw rb) =
      min p (cursorGap cw rb) + min q (cursorGap cw rb - min p (cursorGap cw rb)) := by omega
  rw [hsecond, hgap, hwhole, hcount, hfirst, addW_addW]

/-- R109: two pops drop what one drops, and their answers in a row are its answer. -/
theorem ringPop_add {cw : Nat} {rb : Ring} (p q : Nat) (ha : rb.allocated = true) (h : RingInv cw rb) :
    ringPop cw rb (p + q) =
      ((ringPop cw (ringPop cw rb p).1 q).1, (ringPop cw rb p).2 ++ (ringPop cw (ringPop cw rb p).1 q).2) := by
  have hall : (ringDiscard cw rb p).1.allocated = true := (ringDiscard_keeps cw rb p).1.trans ha
  rw [ringPop_eq (p + q) ha, ringPop_eq p ha, ringPop_eq q hall, ringDiscard_add p q ha h, ringDiscard_content p ha h,
    List.take_add]

/-! ### Pushing, in one part and in two -/

/-- The part of `a ++ b` that `f` free cells take is the part of `a` they take, then the part of `b` that the cells left
over take. -/
theorem take_append_free {α : Type} (a b : List α) (f : Nat) :
    (a ++ b).take (min (a ++ b).length f) =
      a.take (min a.length f) ++ b.take (min b.length (f - min a.length f)) := by
  rw [List.take_append, List.length_append]
  congr 1 <;> rw [List.take_eq_take_iff] <;> omega

/-- R109: the second push stores on where the first one stopped. -/
theorem ringPush_append {cw : Nat} {rb : Ring} (a b : List Byte) (ha : rb.allocated = true) (h : RingInv cw rb) :
    ringPush cw rb (a ++ b) =
      ((ringPush cw (ringPush cw rb a).1 b).1,
        (ringPush cw rb a).2 + (ringPush cw (ringPush cw rb a).1 b).2) := by
  obtain ⟨-, hall, hcap, -, -, hgap, -⟩ := ringPush_spec a ha h
  have hfree : ringFree cw (ringPush cw rb a).1 = ringFree cw rb - min a.length (ringFree cw rb) := by
    rw [ringFree, hcap, hgap, Nat.sub_add_eq]
    rfl
  have hcount : min (a ++ b).length (ringFree cw rb) =
      min a.length (ringFree cw rb) + min b.length (ringFree cw rb - min a.length (ringFree cw rb)) := by
    rw [List.length_append]
    omega
  have hstored : (a.take (min a.length (ringFree cw rb))).length = min a.length (ringFree cw rb) :=
    List.length_take_of_le (Nat.min_le_left _ _)
  rw [ringPush_allocated b hall, hfree, ringPush_allocated (a ++ b) ha, take_append_free, hcount,
    ringPush_allocated a ha]
  simp only [storeBytes_append, storeBytes_shift, addW_addW, hstored, Nat.zero_add, Nat.add_zero]

/-- A push that fits stores every byte (R102). -/
theorem ringPush_fits {cw : Nat} {rb : Ring} {bytes : List Byte} (ha : rb.allocated = true) (h : RingInv cw rb)
    (hfits : (content cw rb).length + bytes.length ≤ rb.cap) :
    (ringPush cw rb bytes).2 = bytes.length ∧ (ringPush cw rb bytes).1.wr = addW cw rb.wr bytes.length ∧
      content cw (ringPush cw rb bytes).1 = content cw rb ++ bytes := by
  obtain ⟨hcount, -, -, -, hwr, -, hcontent, -⟩ := ringPush_spec bytes ha h
  rw [content_length] at hfits
  have hn : min bytes.length (rb.cap - cursorGap cw rb) = bytes.length := by omega
  rw [hn] at hcount hwr hcontent
  exact ⟨hcount, hwr, by rw [hcontent, List.take_length]⟩

/-- R110: a pop of `p` bytes makes room for `p` bytes, which are then put after what the pop left. -/
theorem ringPush_popped {cw p : Nat} {rb : Ring} {bytes : List Byte} (ha : rb.allocated = true) (h : RingInv cw rb)
    (hp : p ≤ (content cw rb).length) (hlen : bytes.length = p) :
    let r := ringPush cw { rb with rd := addW cw rb.rd p } bytes
    r.2 = p ∧ content cw r.1 = (content cw rb).drop p ++ bytes ∧ r.1.cap = rb.cap ∧ r.1.wr = addW cw rb.wr p ∧
      r.1.rd = addW cw rb.rd p := by
  subst hlen
  obtain ⟨-, hleft, hinv⟩ := ringDiscard_within ha h hp
  have hbound : (content cw rb).length ≤ rb.cap := by
    obtain ⟨-, -, -, -, hgap, -⟩ := h
    exact (content_length cw rb).trans_le hgap
  have hroom : (content cw { rb with rd := addW cw rb.rd bytes.length }).length + bytes.length ≤ rb.cap := by
    rw [hleft, List.length_drop, Nat.sub_add_cancel hp]
    exact hbound
  obtain ⟨hcount, hwr, hcontent⟩ :=
    ringPush_fits (rb := { rb with rd := addW cw rb.rd bytes.length }) ha hinv hroom
  obtain ⟨-, hcap, hrd⟩ := ringPush_keeps cw { rb with rd := addW cw rb.rd bytes.length } bytes
  rw [hleft] at hcontent
  exact ⟨hcount, hcontent, hcap, hwr, hrd⟩

end Sys2Proof.Proofs

open Sys2Proof.Proofs

/-- Settles O18: the three reasons to fail are those for which `ringAlloc_cases` leaves the ring alone. -/
theorem rbAllocMakesAFreshRingOrFails : Obligations.RbAllocMakesAFreshRingOrFails := by
  intro s capacity
  obtain ⟨hpow, hle, halloc⟩ | ⟨hbad, halloc⟩ := ringAlloc_cases s.cfg.rbMaxCap s.rb capacity
  · refine ⟨rfl, fun hfails => ?_, fun _ _ => exec_rbAlloc halloc⟩
    obtain ⟨k, hk⟩ := (isPow2_iff capacity).1 hpow
    have hpos := isPow2_pos hpow
    obtain hzero | hne | hlt := hfails
    · omega
    · exact absurd hk (hne k)
    · omega
  · refine ⟨rfl, fun _ => exec_rbAlloc halloc, fun hpow hle => ?_⟩
    have hp := (isPow2_iff capacity).2 hpow
    obtain hnot | hlt := hbad
    · exact absurd hp (by simp [hnot])
    · omega

/-- Settles O19: a push on an allocated ring writes the storage and the write cursor, cell by cell as `ringPush_spec`
says. -/
theorem rbPushAppendsWhatFits : Obligations.RbPushAppendsWhatFits := by
  intro s bytes ha hinv n
  obtain ⟨-, -, -, -, -, -, hcontent, -, hin, hout⟩ := ringPush_spec bytes ha hinv
  have hn : min bytes.length (s.rb.cap - cursorGap s.cfg.cw s.rb) = n := by rw [← content_length]
  have hpush := ringPush_allocated (cw := s.cfg.cw) bytes ha
  rw [ringFree, hn] at hpush
  rw [hn, hpush] at hin hout hcontent
  exact ⟨rfl, _, exec_rbPush hpush, rfl, hin, hout, hcontent⟩

/-- Settles O20: a pop is a discard that answers the bytes dropped (`ringPop_eq`). -/
theorem rbPopRemovesTheOldestBytes : Obligations.RbPopRemovesTheOldestBytes := by
  intro s maxLen ha hinv n rb
  obtain ⟨hdiscard, hcontent⟩ := ringDiscard_min maxLen ha hinv
  have htake : (content s.cfg.cw s.rb).take maxLen = (content s.cfg.cw s.rb).take n := by
    rw [List.take_eq_take_iff]
    omega
  refine ⟨rfl, exec_rbPop ?_, hcontent⟩
  rw [ringPop_eq maxLen ha, hdiscard, htake]

/-- Settles O21: the two clauses are the branches of `ringPeek_eq`. -/
theorem rbPeekIsAllOrNothing : Obligations.RbPeekIsAllOrNothing := by
  intro s start len ha c
  refine ⟨rfl, fun hbeyond => exec_rbPeek ?_, fun hinside => exec_rbPeek ?_⟩
  · rw [ringPeek_eq start len ha, if_neg (Nat.not_le_of_gt hbeyond)]
  · rw [ringPeek_eq start len ha, if_pos hinside]

/-- Settles O22: the ring, the count and the content are `ringDiscard_min`. -/
theorem rbDiscardDropsTheOldestBytes : Obligations.RbDiscardDropsTheOldestBytes := by
  intro s len ha hinv n rb
  obtain ⟨hdiscard, hcontent⟩ := ringDiscard_min len ha hinv
  exact ⟨rfl, exec_rbDiscard hdiscard, hcontent⟩

/-- Settles O23: the three clauses are the branches of `ringChecksum_eq`. -/
theorem rbChecksumSumsARange : Obligations.RbChecksumSumsARange := by
  intro s n m ha c
  have hsum := ringChecksum_eq (cw := s.cfg.cw) n m ha
  refine ⟨rfl, fun hempty => exec_rbChecksum_some ?_, fun hle hbeyond => ⟨_, exec_rbChecksum_none ?_⟩,
    fun hle hinside => exec_rbChecksum_some ?_⟩
  · rw [hsum, if_pos hempty]
  · rw [hsum, if_neg (Nat.not_lt_of_le hle), if_pos hbeyond]
  · rw [hsum, if_neg (Nat.not_lt_of_le hle), if_neg (Nat.not_le_of_lt hinside)]
    rfl

/-- Settles O24: the length is the difference of the cursors, which the ring invariant bounds (R14). -/
theorem rbLengthCountsTheContent : Obligations.RbLengthCountsTheContent := by
  intro s ha
  have hlength : (content s.cfg.cw s.rb).length = subW s.cfg.cw s.rb.wr s.rb.rd := content_length s.cfg.cw s.rb
  refine ⟨rfl, exec_rbLength ((ringLength_allocated ha).trans hlength), hlength.symm, ?_⟩
  rintro ⟨-, -, -, -, hbound, -⟩
  exact hbound

/-- Settles O25: every access to an unallocated ring leaves it alone and answers its empty result. -/
theorem unallocatedRingRefuses : Obligations.UnallocatedRingRefuses :=
  fun _ bytes a b h =>
    ⟨exec_rbPush (ringPush_unallocated bytes h), exec_rbPop (ringPop_unallocated a h),
      exec_rbPeek (ringPeek_unallocated a b h), exec_rbDiscard (ringDiscard_unallocated a h),
      exec_rbChecksum_some (ringChecksum_unallocated a b h), exec_rbLength (ringLength_unallocated h)⟩

/-- Settles O26: the accesses in two parts are the one in a single part (`ringPush_append`, `ringPop_add`,
`ringDiscard_add`). -/
theorem ringTransfersSplit : Obligations.RingTransfersSplit := by
  intro s ha hinv
  refine ⟨fun a b => ?_, fun p q => ?_, fun p q => ?_⟩
  · exact ⟨_, _, _, _, exec_rbPush Prod.mk.eta.symm, rfl, exec_rbPush Prod.mk.eta.symm, rfl,
      exec_rbPush (ringPush_append a b ha hinv)⟩
  · exact ⟨_, _, _, _, exec_rbPop Prod.mk.eta.symm, rfl, exec_rbPop Prod.mk.eta.symm, rfl,
      exec_rbPop (ringPop_add p q ha hinv)⟩
  · exact ⟨_, _, _, _, exec_rbDiscard Prod.mk.eta.symm, rfl, exec_rbDiscard Prod.mk.eta.symm, rfl,
      exec_rbDiscard (ringDiscard_add p q ha hinv)⟩

/-- Settles O27: the pop frees as many cells as the push back takes, so the push appends all the bytes popped. -/
theorem popThenPushRotatesTheContent : Obligations.PopThenPushRotatesTheContent := by
  intro s p ha hinv c hp
  obtain ⟨hring, hleft, -⟩ := ringDiscard_within ha hinv hp
  have hpop := ringPop_eq (cw := s.cfg.cw) p ha
  rw [hring] at hpop
  obtain ⟨hcount, hrotated, hcap, hwr, hrd⟩ := ringPush_popped ha hinv hp (List.length_take_of_le hp)
  have hwhole : p = c.length → c.drop p ++ c.take p = c := by
    rintro rfl
    rw [List.drop_length, List.take_length, List.nil_append]
  exact ⟨_, _, exec_rbPop hpop, rfl, hleft, exec_rbPush Prod.mk.eta.symm, congrArg Result.count hcount, hrotated,
    fun hall => hrotated.trans (hwhole hall), hcap, hwr, hrd⟩

end

section
/-! The statements of 41_frame_codec.md: what the encoder builds (R120), the extractor pass by pass and in closed form
(R122, R129), what it does with a corrupted frame and in a ring too small for one (R130, R131), and the two look-ups of
the dispatch (R132). The extractor is the scan of the content, so each of its statements is about a byte sequence. -/

open Sys2Proof Sys2Proof.Machine Sys2Proof.Laws

namespace Sys2Proof.Proofs

/-! ### `FC_ENCODE` -/

theorem exec_fcEncode (command : Byte) (payload : List Byte) (s : State) :
    exec (.fcEncode command payload) s =
      .next (returning (.frame (frameOf s.cfg command payload)) (encodeFrame command payload s).1) := rfl

/-! ### `FC_EXTRACT` is the scan of the content -/

/-- What `FC_EXTRACT` returns for what it found (R122). -/
def extractResult : Option (Byte × List Byte) → Result
  | none => .noFrame
  | some (command, payload) => .decoded command payload

theorem exec_fcExtract_eq (s : State) :
    exec .fcExtract s = .next (returning (extractResult (extractFrame s).2) (extractFrame s).1) := by
  simp only [exec, execFcExtract]
  split
  · next u hx => rw [hx]; rfl
  · next u command payload hx => rw [hx]; rfl

/-- `FC_EXTRACT` drops what the scan of the content drops, counts what it counts, and returns what it found. -/
theorem exec_fcExtract_of_scan {s : State} (ha : s.rb.allocated = true) (hr : RingInv s.cfg.cw s.rb) {n : Nat}
    {k : Counters} {found : Option (Byte × List Byte)}
    (hscan : scan s.cfg ((content s.cfg.cw s.rb).length + 1) (content s.cfg.cw s.rb) s.diag = (n, k, found)) :
    exec .fcExtract s =
      .next { s with
        rb := { s.rb with rd := addW s.cfg.cw s.rb.rd n }
        diag := k
        ret := extractResult found } := by
  have hextract := extractFrame_eq_scan s ha hr
  rw [hscan] at hextract
  rw [exec_fcExtract_eq, hextract]
  rfl

/-! ### One pass -/

/-- Fewer than 14 bytes hold no frame yet (R123). -/
theorem scan_short {cfg : Config} (passes : Nat) {str : List Byte} (k : Counters) (h : str.length < frameLen) :
    scan cfg passes str k = (0, k, none) := by
  cases passes with
  | zero => rfl
  | succ n => rw [scan, if_pos h]

/-- A window at the front that is no frame costs one byte and one count, and the scan goes on after that byte (R124,
R126, R127). -/
theorem scan_pass {cfg : Config} {str : List Byte} (k : Counters) (hl : frameLen ≤ str.length)
    (h : frameAt cfg str 0 = false) :
    scan cfg (str.length + 1) str k =
      let r := scan cfg ((str.drop 1).length + 1) (str.drop 1) (passOver cfg str k 0)
      (r.1 + 1, r.2) := by
  have hpasses : (str.drop 1).length + 1 = str.length := by
    rw [List.length_drop]
    exact Nat.sub_add_cancel (le_trans (by decide) hl)
  rw [scan, if_neg (Nat.not_lt_of_le hl), h, if_neg Bool.false_ne_true, hpasses]

/-- The read cursor that moves over no byte stays, having `CW` bits (R11). -/
theorem readCursor_addW_zero {cw : Nat} {rb : Ring} (h : RingInv cw rb) : addW cw rb.rd 0 = rb.rd := by
  obtain ⟨-, -, -, hrd, -⟩ := h
  exact addW_zero hrd

/-- With fewer than 14 bytes the answer is `NoFrame`, and nothing is dropped or counted (R123). -/
theorem exec_fcExtract_short {s : State} (ha : s.rb.allocated = true) (hr : RingInv s.cfg.cw s.rb)
    (h : (content s.cfg.cw s.rb).length < frameLen) :
    exec .fcExtract s = .next { s with ret := .noFrame } := by
  rw [exec_fcExtract_of_scan ha hr (scan_short _ _ h), readCursor_addW_zero hr]
  rfl

/-- The extractor that meets no frame at the front goes on as if the front byte had been discarded and counted before
(R122). -/
theorem exec_fcExtract_pass {s : State} (ha : s.rb.allocated = true) (hr : RingInv s.cfg.cw s.rb)
    (hl : frameLen ≤ (content s.cfg.cw s.rb).length) (h : frameAt s.cfg (content s.cfg.cw s.rb) 0 = false) :
    exec .fcExtract s = exec .fcExtract
      { s with
        rb := { s.rb with rd := addW s.cfg.cw s.rb.rd 1 }
        diag := passOver s.cfg (content s.cfg.cw s.rb) s.diag 0 } := by
  obtain ⟨-, hleft, hinv⟩ := ringDiscard_within ha hr (n := 1) (le_trans (by decide) hl)
  have hpass := scan_pass s.diag hl h
  rcases hrest : scan s.cfg (((content s.cfg.cw s.rb).drop 1).length + 1) ((content s.cfg.cw s.rb).drop 1)
    (passOver s.cfg (content s.cfg.cw s.rb) s.diag 0) with ⟨n, k, found⟩
  rw [hrest] at hpass
  rw [exec_fcExtract_of_scan ha hr hpass, Nat.add_comm, ← addW_addW]
  symm
  apply exec_fcExtract_of_scan
  · exact ha
  · exact hinv
  · rw [hleft]
    exact hrest

/-- The first frame of the content is returned; it is discarded with the bytes before it, each of them counted (R128,
R129). -/
theorem exec_fcExtract_first {s : State} (ha : s.rb.allocated = true) (hr : RingInv s.cfg.cw s.rb) {j : Nat}
    (hj : frameAt s.cfg (content s.cfg.cw s.rb) j = true)
    (hfirst : ∀ i < j, frameAt s.cfg (content s.cfg.cw s.rb) i = false) :
    exec .fcExtract s =
      .next { s with
        rb := { s.rb with rd := addW s.cfg.cw s.rb.rd (j + 14) }
        diag := passOvers s.cfg (content s.cfg.cw s.rb) j s.diag
        ret := .decoded ((content s.cfg.cw s.rb).getD (j + 1) 0x00#8)
          (((content s.cfg.cw s.rb).drop (j + 2)).take 10) } :=
  exec_fcExtract_of_scan ha hr (scan_some _ _ _ _ j (by omega) hj hfirst)

/-- The window at the front fails one of its three tests (R124, R126, R127). -/
theorem frameAt_zero_eq_false {cfg : Config} {str : List Byte} (hl : frameLen ≤ str.length)
    (h : ¬(str[0]? = some cfg.header ∧ str[13]? = some cfg.footer ∧ str[12]? = some (csum str))) :
    frameAt cfg str 0 = false :=
  Bool.eq_false_iff.2 fun hf => h ((frameAt_zero hl).1 hf)

/-! ### A frame with one byte changed -/

theorem validFrame_iff {cfg : Config} {w : List Byte} :
    validFrame cfg w = true ↔
      w.length = frameLen ∧ w[0]? = some cfg.header ∧ w[13]? = some cfg.footer ∧ w[12]? = some (csum w) := by
  simp only [validFrame, Bool.and_eq_true, beq_iff_eq, and_assoc]

/-- The 8-bit checksum is the sum in the ring of bytes (R71). -/
theorem sum8_eq_sum (bs : List Byte) : sum8 bs = bs.sum := by
  induction bs with
  | nil => rfl
  | cons b bs ih =>
    rw [List.sum_cons, ← ih, sum8, byteSum, List.map_cons, List.sum_cons, BitVec.ofNat_add, BitVec.ofNat_toNat,
      BitVec.setWidth_eq]
    rfl

/-- A sum of bytes tells any change of a single one of them. -/
theorem sum8_set_ne {bs : List Byte} {j : Nat} {b : Byte} (hj : j < bs.length) (h : bs[j]? ≠ some b) :
    sum8 (bs.set j b) ≠ sum8 bs := by
  rw [List.getElem?_eq_getElem hj, ne_eq, Option.some.injEq] at h
  rw [sum8_eq_sum, sum8_eq_sum, List.sum_set', dif_pos hj]
  intro he
  exact h (neg_add_eq_zero.1 (add_eq_left.1 he))

/-- R130 (d): the changed byte is the header, the footer, the checksum, or one of the bytes that the checksum covers. -/
theorem validFrame_set {cfg : Config} {f : List Byte} {j : Nat} {b : Byte} (hf : validFrame cfg f = true)
    (hj : j < frameLen) (hb : f[j]? ≠ some b) : validFrame cfg (f.set j b) = false := by
  obtain ⟨hlen, hheader, hfooter, hsum⟩ := validFrame_iff.1 hf
  have hnew : (f.set j b)[j]? = some b := List.getElem?_set_self (hlen ▸ hj)
  refine Bool.eq_false_iff.2 fun hset => ?_
  obtain ⟨-, hheader', hfooter', hsum'⟩ := validFrame_iff.1 hset
  obtain rfl | rfl | rfl | ⟨hne, hcovered⟩ : j = 0 ∨ j = 13 ∨ j = 12 ∨ j ≠ 12 ∧ j < 12 := by
    simp only [frameLen] at hj
    omega
  · exact hb (hheader.trans (hheader'.symm.trans hnew))
  · exact hb (hfooter.trans (hfooter'.symm.trans hnew))
  · have hsame : csum (f.set 12 b) = csum f := by rw [csum, List.take_set_of_le le_rfl, csum]
    exact hb (hsum.trans (hsame ▸ hsum'.symm.trans hnew))
  · have hchanged : csum (f.set j b) ≠ csum f := by
      rw [csum, List.take_set]
      refine sum8_set_ne ?_ ?_
      · rw [List.length_take, hlen]
        exact lt_min hcovered hj
      · rwa [List.getElem?_take_of_lt hcovered]
    rw [List.getElem?_set_ne hne, hsum] at hsum'
    exact hchanged (Option.some.inj hsum').symm

/-- Whether a sequence opens with a frame is a matter of its first 14 bytes (R79). -/
theorem frameAt_zero_append (cfg : Config) {w : List Byte} (rest : List Byte) (hw : w.length = frameLen) :
    frameAt cfg (w ++ rest) 0 = validFrame cfg w := by
  rw [frameAt_append rest (by rw [hw]), frameAt, List.drop_zero, List.take_of_length_le hw.le, hw]
  rfl

/-! ### A ring too small for a frame -/

theorem content_length_le_cap {cw : Nat} {rb : Ring} (h : RingInv cw rb) : (content cw rb).length ≤ rb.cap := by
  obtain ⟨-, -, -, -, hgap, -⟩ := h
  exact (content_length cw rb).trans_le hgap

/-- With fewer than 14 bytes there is nothing to drain (R123, R180). -/
theorem drain_short (turns : Nat) {str : List Byte} (s : State) (h : str.length < frameLen) :
    drain turns str s = (0, s) := by
  cases turns with
  | zero => rfl
  | succ n => rw [drain, scan_short _ _ h]

/-- A delivery to a ring too small for a frame is the push and the record of what did not fit (R131, R180). -/
theorem receiveBytes_small {s : State} (bytes : List Byte) (ha : s.rb.allocated = true) (hr : RingInv s.cfg.cw s.rb)
    (hcap : s.rb.cap < frameLen) :
    let p := ringPush s.cfg.cw s.rb bytes
    receiveBytes bytes s =
      { (if p.2 < bytes.length then raiseDiag (.rxOverflow (bytes.length - p.2)) s else s) with rb := p.1 } := by
  intro p
  obtain ⟨-, -, hpcap, hprd, -, -, -, hpinv, -⟩ := ringPush_spec bytes ha hr
  have hshort : (content s.cfg.cw p.1).length < frameLen :=
    (content_length_le_cap hpinv).trans_lt (hpcap.trans_lt hcap)
  obtain ⟨hreceive, -⟩ := receiveBytes_eq bytes s ha hr
  rw [hreceive, drain_short _ _ hshort, readCursor_addW_zero hr, ← hprd]

/-! ### The two look-ups of `FC_DISPATCH` -/

/-- An awaiting kind is resolved by the status (R163). -/
theorem respond_awaiting {kp : KindParams} {k : Nat} {s : State} (h : rcOf s k ≠ .idle) (c status : Byte) :
    respond kp k c status s = resolveByStatus kp k status s := by
  obtain ⟨_, _, -, hrespond⟩ | ⟨hidle, -⟩ := respond_cases kp k c status s
  · exact hrespond
  · exact absurd hidle h

/-- An idle kind's response is unsolicited (R168). -/
theorem respond_idle {kp : KindParams} {k : Nat} {s : State} (h : rcOf s k = .idle) (c status : Byte) :
    respond kp k c status s = raiseDiag (.unsolicitedResponse k c) s := by
  rw [respond, h]

/-- The class look-up delivers its event, whatever the correlator look-up did (R132). -/
theorem exec_fcDispatch_event {s r : State} {c : Byte} {p : List Byte} {known : Bool} {e : Event}
    (hp : p.length = payloadLen) (hr : correlate c (payloadByte p 0) s.cfg.kinds 0 s = (r, known))
    (he : classEvent (classOf s.cfg c) c p = some e) :
    exec (.fcDispatch c p) s = .next (returning .none (emitEvent e r)) := by
  rw [exec_fcDispatch hp, dispatchFrame, hr, he]

/-- Without a class, only a command that is no kind's either is reported (R81, R132). -/
theorem exec_fcDispatch_unclassified {s r : State} {c : Byte} {p : List Byte} {known : Bool}
    (hp : p.length = payloadLen) (hr : correlate c (payloadByte p 0) s.cfg.kinds 0 s = (r, known))
    (hc : classOf s.cfg c = .unclassified) :
    exec (.fcDispatch c p) s =
      .next (returning .none (if known then r else raiseDiag (.unknownCommand c) r)) := by
  rw [exec_fcDispatch hp, dispatchFrame, hr, hc]
  rfl

end Sys2Proof.Proofs

open Sys2Proof.Proofs

/-- Settles O31: the scan's first pass, case by case (`exec_fcExtract_short`, `exec_fcExtract_pass`,
`exec_fcExtract_first`); the first test that fails names the counter. -/
theorem fcExtractGoesPassByPass : Obligations.FcExtractGoesPassByPass := by
  intro s ha hr str past
  refine ⟨rfl, exec_fcExtract_short ha hr, fun hl h0 => ?_, fun hl h0 h13 => ?_, fun hl h0 h13 h12 => ?_,
    fun hl h0 h13 h12 => exec_fcExtract_first ha hr ((frameAt_zero hl).2 ⟨h0, h13, h12⟩) (by omega)⟩
  · have hnone := frameAt_zero_eq_false (cfg := s.cfg) hl fun ⟨hheader, _, _⟩ => h0 hheader
    rw [exec_fcExtract_pass ha hr hl hnone, passOver, if_pos h0]
  · have hnone := frameAt_zero_eq_false (cfg := s.cfg) hl fun ⟨_, hfooter, _⟩ => h13 hfooter
    rw [exec_fcExtract_pass ha hr hl hnone, passOver, if_neg (not_not.2 h0), if_pos h13]
  · have hnone := frameAt_zero_eq_false (cfg := s.cfg) hl fun ⟨_, _, hsum⟩ => h12 hsum
    rw [exec_fcExtract_pass ha hr hl hnone, passOver, if_neg (not_not.2 h0), if_neg (not_not.2 h13)]

/-- Settles O32: the scan of a sequence without a valid window (`scan_none`) and of one with a first
(`scan_some`). -/
theorem fcExtractReturnsTheFirstValidWindow : Obligations.FcExtractReturnsTheFirstValidWindow := by
  intro s ha hr c
  refine ⟨fun hnone => ?_, fun j hj hfirst => ?_⟩
  · obtain ⟨-, hleft, -⟩ := ringDiscard_within ha hr (n := c.length - 13) (Nat.sub_le _ _)
    exact ⟨_, exec_fcExtract_of_scan ha hr (scan_none _ _ _ _ (by omega) hnone), rfl, hleft⟩
  · obtain ⟨-, hleft, -⟩ := ringDiscard_within ha hr (frameAt_length hj)
    exact ⟨_, exec_fcExtract_first ha hr hj hfirst, rfl, hleft⟩

/-- Settles O33: the changed frame is no valid one (`validFrame_set`), so the window at the front is none, and the
extractor passes over its first byte. -/
theorem singleByteCorruptionIsRejected : Obligations.SingleByteCorruptionIsRejected := by
  intro s f rest j b ha hr hf hj hb hcontent
  have hlen : (f.set j b).length = frameLen := List.length_set.trans (validFrame_iff.1 hf).1
  have hinvalid := validFrame_set hf hj hb
  refine ⟨hinvalid, exec_fcExtract_pass ha hr ?_ ?_⟩
  · rw [hcontent, List.length_append, hlen]
    exact Nat.le_add_right _ _
  · rw [hcontent, frameAt_zero_append _ _ hlen, hinvalid]

/-- Settles O34: the content never has the 14 bytes of a frame, so an extraction is one short pass and a delivery is
its push. -/
theorem smallRingNeverYieldsAFrame : Obligations.SmallRingNeverYieldsAFrame := by
  intro s bytes ha hr hcap
  obtain ⟨-, -, -, -, -, -, hcontent, -⟩ := ringPush_spec bytes ha hr
  have hfits : bytes.take (min bytes.length (s.rb.cap - cursorGap s.cfg.cw s.rb)) =
      bytes.take (s.rb.cap - (content s.cfg.cw s.rb).length) := by
    rw [content_length, List.take_eq_take_iff]
    omega
  refine ⟨exec_fcExtract_short ha hr ((content_length_le_cap hr).trans_lt hcap),
    returning .none (receiveBytes bytes s), rfl, ?_⟩
  rw [receiveBytes_small bytes ha hr hcap]
  split <;> exact ⟨rfl, rfl, rfl, hcontent.trans (congrArg _ hfits)⟩

/-- Settles O35: the premise on `r` and `known` is what the correlator look-up answers (`correlate_miss`,
`correlate_hit`); the class look-up then goes by the class alone. -/
theorem fcDispatchDoesBothLookUps : Obligations.FcDispatchDoesBothLookUps := by
  intro s r c p known hp hnodup hlookup
  have hr : correlate c (payloadByte p 0) s.cfg.kinds 0 s = (r, known) := by
    obtain ⟨rfl, rfl, hmiss⟩ | ⟨rfl, k, kp, hk, rfl, hrc⟩ := hlookup
    · exact correlate_miss hmiss _ _ _
    · rw [correlate_hit hnodup hk, Nat.zero_add]
      obtain ⟨hawaiting, rfl⟩ | ⟨hidle, rfl⟩ := hrc
      · rw [respond_awaiting hawaiting]
        rfl
      · rw [respond_idle hidle]
        rfl
  refine ⟨rfl, fun hc => exec_fcDispatch_event hp hr (by rw [hc]; rfl),
    fun hc => exec_fcDispatch_event hp hr (by rw [hc]; rfl), fun hc => exec_fcDispatch_event hp hr (by rw [hc]; rfl),
    fun hc hknown => ?_, fun hc hknown => ?_⟩
  · rw [exec_fcDispatch_unclassified hp hr hc, if_pos hknown]
    rfl
  · rw [exec_fcDispatch_unclassified hp hr hc, hknown]
    rfl

/-- Settles O29: the bytes are those of `frameOf`, and the encoder's record depends on the payload's length alone
(`encodeFrame_eq`). -/
theorem fcEncodeBuildsTheFrame : Obligations.FcEncodeBuildsTheFrame := by
  intro s c q p body f
  refine ⟨rfl, frameOf_length s.cfg c q, fun hq => ⟨normalizePayload_id hq, ?_⟩, fun hq => ?_⟩
  · rw [exec_fcEncode, encodeFrame_eq, if_pos hq]
    rfl
  · rw [exec_fcEncode, encodeFrame_eq, if_neg hq]
    rfl

end

section
/-! The statements of 42_command_queue_worker.md: the queue (R140, R141, R152), the worker's two steps (R143, R144), and
what every run keeps: the pacing law (R148), the order of the frames (R150), what a disconnection or an exit leaves
(R147, R151). The invariants of a run come from one inversion: what an operation may do to the worker, the queue and
`TX` (`FrameFlow`). -/

open Sys2Proof Sys2Proof.Machine Sys2Proof.Laws

namespace Sys2Proof.Proofs

/-! ### The queue's bound -/

theorem queueFull_iff {s : State} : queueFull s = true ↔ ∃ d, s.cfg.qDepth = some d ∧ s.cqItems.length ≥ d := by
  unfold queueFull
  split
  · next h => simp [h]
  · next d h => simp [h]

theorem queueFull_eq_false_iff {s : State} :
    queueFull s = false ↔ ∀ d, s.cfg.qDepth = some d → s.cqItems.length < d := by
  rw [Bool.eq_false_iff, ne_eq, queueFull_iff]
  push Not
  rfl

theorem queueFull_of_unbounded {s : State} (h : s.cfg.qDepth = none) : queueFull s = false :=
  queueFull_eq_false_iff.2 fun d hd => by simp [h] at hd

/-! ### The queue's operations -/

theorem exec_cqEnqueue_room {s : State} {f : List Byte} (hf : f.length = frameLen) (h : queueFull s = false) :
    exec (.cqEnqueue f) s = .next { s with cqItems := s.cqItems ++ [f], ret := .ok true } := by
  simp only [exec, execCqEnqueue, if_pos hf, enqueueFrame_room h rfl rfl, returning]

theorem exec_cqEnqueue_full {s : State} {f : List Byte} (hf : f.length = frameLen) (h : queueFull s = true) :
    exec (.cqEnqueue f) s = .next { s with ret := .ok false } := by
  simp only [exec, execCqEnqueue, if_pos hf, enqueueFrame, h, if_true, returning]

theorem exec_rcIssue {s : State} {k : Nat} {kp : KindParams} (hk : s.cfg.kinds[k]? = some kp) (payload : List Byte) :
    exec (.rcIssue k payload) s =
      .next (returning (.accepted (issueRequest kp k payload s).2) (issueRequest kp k payload s).1) := by
  simp only [exec, execRcIssue, hk]

theorem exec_cmdSubmit (command : Byte) (payload : List Byte) (s : State) :
    exec (.cmdSubmit command payload) s =
      .next (returning (.accepted (submitCommand command payload s).2) (submitCommand command payload s).1) := rfl

/-- A full queue rejects a request, whatever else would reject it (R162). -/
theorem issueRequest_full {s : State} (h : queueFull s = true) (kp : KindParams) (k : Nat) (payload : List Byte) :
    issueRequest kp k payload s = (s, false) := by
  obtain ⟨-, hrejected⟩ | ⟨-, -, hroom, -⟩ := issueRequest_cases kp k payload s
  · exact hrejected
  · simp [h] at hroom

/-- A full queue refuses every submission, a request code's included (R141, R142). -/
theorem submitCommand_full {s : State} (h : queueFull s = true) (command : Byte) (payload : List Byte) :
    submitCommand command payload s = (s, false) := by
  obtain ⟨k, kp, -, -, hissue⟩ | ⟨-, -, hrefused⟩ | ⟨-, hroom, -⟩ := submitCommand_cases command payload s
  · rw [hissue, issueRequest_full h]
  · exact hrefused
  · simp [h] at hroom

/-- A kind's request code names the kind: R4 (d) lets no other kind have it. -/
theorem reqKind_of_nodup {cfg : Config} {k : Nat} {kp : KindParams} (hn : (cfg.kinds.map KindParams.reqCmd).Nodup)
    (hk : cfg.kinds[k]? = some kp) : reqKind cfg kp.reqCmd = some k := by
  cases hfound : reqKind cfg kp.reqCmd with
  | none =>
    have hmiss := List.findIdx?_eq_none_iff.1 hfound kp (List.mem_of_getElem? hk)
    simp at hmiss
  | some j =>
    obtain ⟨hj, hcode, -⟩ := List.findIdx?_eq_some_iff_getElem.1 hfound
    rw [(nodup_map_iff_getElem? _ _).1 hn j k _ kp (List.getElem?_eq_getElem hj) hk (beq_iff_eq.1 hcode)]

theorem reqKind_eq_none_iff {cfg : Config} {command : Byte} :
    reqKind cfg command = none ↔ ∀ kp ∈ cfg.kinds, kp.reqCmd ≠ command := by
  simp [reqKind]

/-- A kind's request code is an `RC_ISSUE` of that kind (R142). -/
theorem exec_cmdSubmit_request {s : State} {k : Nat} {kp : KindParams}
    (hn : (s.cfg.kinds.map KindParams.reqCmd).Nodup) (hk : s.cfg.kinds[k]? = some kp) (payload : List Byte) :
    exec (.cmdSubmit kp.reqCmd payload) s = exec (.rcIssue k payload) s := by
  have hreq := reqKind_of_nodup hn hk
  obtain ⟨j, kq, hj, hkq, hissue⟩ | ⟨hnone, -⟩ | ⟨hnone, -⟩ := submitCommand_cases kp.reqCmd payload s
  · obtain rfl : k = j := Option.some.inj (hreq.symm.trans hj)
    obtain rfl : kp = kq := Option.some.inj (hk.symm.trans hkq)
    rw [exec_cmdSubmit, exec_rcIssue hk, hissue]
  · simp [hreq] at hnone
  · simp [hreq] at hnone

/-- Any other code is encoded and queued where there is room (R141). -/
theorem exec_cmdSubmit_room {s : State} {command : Byte} (hk : ∀ kp ∈ s.cfg.kinds, kp.reqCmd ≠ command)
    (h : queueFull s = false) (payload : List Byte) :
    exec (.cmdSubmit command payload) s =
      .next (returning (.accepted true)
        { (encodeFrame command payload s).1 with cqItems := s.cqItems ++ [frameOf s.cfg command payload] }) := by
  have hnone := reqKind_eq_none_iff.2 hk
  obtain ⟨_, _, hsome, -⟩ | ⟨-, hfull, -⟩ | ⟨-, -, hqueued⟩ := submitCommand_cases command payload s
  · simp [hnone] at hsome
  · simp [h] at hfull
  · rw [exec_cmdSubmit, hqueued]

/-! ### The worker's two steps -/

theorem wkServeEnabled_iff {s : State} :
    wkServeEnabled s = true ↔
      s.wkState = .wait ∧ (s.ctlStop = true ∨ s.cqItems ≠ [] ∧ s.tpConnected = true) := by
  simp [wkServeEnabled]

theorem wkWakeEnabled_iff {s : State} : wkWakeEnabled s = true ↔ s.wkState = .sleep ∧ s.wkWakeAt ≤ s.now := by
  simp [wkWakeEnabled]

theorem wkServeEnabled_eq_false_iff {s : State} :
    wkServeEnabled s = false ↔
      s.wkState ≠ .wait ∨ s.ctlStop = false ∧ (s.cqItems = [] ∨ s.tpConnected = false) := by
  rw [Bool.eq_false_iff, ne_eq, wkServeEnabled_iff, not_and_or, not_or, not_and_or, not_not, Bool.not_eq_true,
    Bool.not_eq_true]

theorem wkWakeEnabled_eq_false_iff {s : State} :
    wkWakeEnabled s = false ↔ s.wkState ≠ .sleep ∨ s.now < s.wkWakeAt := by
  rw [Bool.eq_false_iff, ne_eq, wkWakeEnabled_iff, not_and_or, not_le]

theorem exec_wkServe_enabled {s : State} (h : wkServeEnabled s = true) (w : Nat) :
    exec (.wkServe w) s = .next (returning .none (serveWorker w s)) := by
  simp only [exec, execWkServe, if_pos h]

theorem exec_wkServe_disabled {s : State} (h : wkServeEnabled s = false) (w : Nat) :
    exec (.wkServe w) s = .next { s with ret := .notEnabled } := by
  simp only [exec, execWkServe, h, Bool.false_eq_true, if_false, returning]

theorem exec_wkWake_enabled {s : State} (h : wkWakeEnabled s = true) :
    exec .wkWake s = .next { s with wkState := .wait, ret := .none } := by
  simp only [exec, execWkWake, if_pos h, returning]

theorem exec_wkWake_disabled {s : State} (h : wkWakeEnabled s = false) :
    exec .wkWake s = .next { s with ret := .notEnabled } := by
  simp only [exec, execWkWake, h, Bool.false_eq_true, if_false, returning]

/-- A kind with no request outstanding has nothing to resolve (R163). -/
theorem exec_rcResolve_idle {s : State} {k : Nat} (hk : k < s.cfg.kinds.length) (h : rcOf s k = .idle) (status : Byte) :
    exec (.rcResolve k status) s = .next { s with ret := .notEnabled } := by
  have hd : rcResolveEnabled s k = false := by rw [rcResolveEnabled, h]
  simp only [exec, execRcResolve, List.getElem?_eq_getElem hk, hd, Bool.false_eq_true, if_false, returning]

theorem exec_rcExpire_disabled {s : State} {k : Nat} (hk : k < s.cfg.kinds.length) (h : rcExpireEnabled s k = false) :
    exec (.rcExpire k) s = .next { s with ret := .notEnabled } := by
  simp only [exec, execRcExpire, List.getElem?_eq_getElem hk, h, Bool.false_eq_true, if_false, returning]

/-- Shutdown wins over the queue (R143, R146). -/
theorem exec_wkServe_exit {s : State} (hw : s.wkState = .wait) (hstop : s.ctlStop = true) (w : Nat) :
    exec (.wkServe w) s = .next { s with wkState := .exited, ret := .none } := by
  rw [exec_wkServe_enabled (wkServeEnabled_iff.2 ⟨hw, .inl hstop⟩), serveWorker, if_pos hstop]
  rfl

/-- The oldest frame leaves, a short write is reported, and the pacing sleep begins (R143). -/
theorem exec_wkServe_send {s : State} {f : List Byte} {rest : List (List Byte)} (hw : s.wkState = .wait)
    (hstop : s.ctlStop = false) (hc : s.tpConnected = true) (hq : s.cqItems = f :: rest) (w : Nat) :
    exec (.wkServe w) s = .next
      { (if w = frameLen then s else raiseDiag (.shortWrite w) s) with
        cqItems := rest
        tx := s.tx ++ [{ time := s.now, frame := f }]
        wkWakeAt := s.now + s.cfg.paceTicks
        wkState := .sleep
        ret := .none } := by
  have he : wkServeEnabled s = true := wkServeEnabled_iff.2 ⟨hw, .inr ⟨by simp [hq], hc⟩⟩
  obtain ⟨-, ⟨hexit, -⟩ | ⟨-, -, g, rest', hq', hsent⟩⟩ := serveWorker_cases w he
  · simp [hstop] at hexit
  · obtain ⟨rfl, rfl⟩ := List.cons.inj (hq.symm.trans hq')
    rw [exec_wkServe_enabled he, hsent]
    rfl

/-! ### What an operation does to the worker, the queue and `TX` -/

/-- What one operation other than `RESET` may do: leave the worker and `TX` alone, time going on and the queue growing
at its end; or one of the worker's own steps, the exit, the write of the oldest frame, the wake (R143, R144). -/
inductive FrameFlow (s u : State) : Prop where
  | apart (state : u.wkState = s.wkState) (wakeAt : u.wkWakeAt = s.wkWakeAt) (tx : u.tx = s.tx)
      (queue : s.cqItems <+: u.cqItems) (time : s.now ≤ u.now)
  | exit (stop : s.ctlStop = true) (before : s.wkState = .wait) (after : u.wkState = .exited) (tx : u.tx = s.tx)
      (queue : u.cqItems = s.cqItems) (time : u.now = s.now)
  | sent {f : List Byte} (connected : s.tpConnected = true) (before : s.wkState = .wait) (after : u.wkState = .sleep)
      (tx : u.tx = s.tx ++ [{ time := s.now, frame := f }]) (queue : s.cqItems = f :: u.cqItems)
      (time : u.now = s.now) (wakeAt : u.wkWakeAt = s.now + s.cfg.paceTicks)
  | woke (before : s.wkState = .sleep) (due : s.wkWakeAt ≤ s.now) (after : u.wkState = .wait) (tx : u.tx = s.tx)
      (queue : u.cqItems = s.cqItems) (time : u.now = s.now)

theorem FrameFlow.refl (s : State) : FrameFlow s s := .apart rfl rfl rfl List.prefix_rfl le_rfl

theorem FrameFlow.returning {s u : State} (h : FrameFlow s u) (r : Result) : FrameFlow s (returning r u) := by
  cases h with
  | apart state wakeAt tx queue time => exact .apart state wakeAt tx queue time
  | exit stop before after tx queue time => exact .exit stop before after tx queue time
  | sent connected before after tx queue time wakeAt => exact .sent connected before after tx queue time wakeAt
  | woke before due after tx queue time => exact .woke before due after tx queue time

/-- An operation that writes neither the worker nor `TX` nor the time, and no more of the queue than its end. -/
theorem FrameFlow.of_writesOnly {ws : List Element} {s u : State} (h : WritesOnly ws s u)
    (queue : s.cqItems <+: u.cqItems) (hws : .workerState ∉ ws ∧ .wakeTime ∉ ws ∧ .traceTx ∉ ws ∧ .time ∉ ws) :
    FrameFlow s u := by
  obtain ⟨hstate, hwake, htx, htime⟩ := hws
  have hnow : s.now = u.now := h _ htime
  exact .apart (h _ hstate).symm (h _ hwake).symm (h _ htx).symm queue hnow.le

theorem enqueueFrame_queue (f : List Byte) (s : State) : s.cqItems <+: (enqueueFrame f s).1.cqItems := by
  obtain ⟨-, h⟩ | ⟨-, h⟩ := enqueueFrame_cases f s
  · rw [h]; exact List.prefix_append _ _
  · rw [h]

theorem issueRequest_queue (kp : KindParams) (k : Nat) (payload : List Byte) (s : State) :
    s.cqItems <+: (issueRequest kp k payload s).1.cqItems := by
  obtain ⟨-, h⟩ | ⟨-, -, -, h⟩ := issueRequest_cases kp k payload s
  · rw [h]
  · rw [h]; exact List.prefix_append _ _

theorem submitCommand_queue (command : Byte) (payload : List Byte) (s : State) :
    s.cqItems <+: (submitCommand command payload s).1.cqItems := by
  obtain ⟨k, kp, -, -, h⟩ | ⟨-, -, h⟩ | ⟨-, -, h⟩ := submitCommand_cases command payload s
  · rw [h]; exact issueRequest_queue kp k payload s
  · rw [h]
  · rw [h]; exact List.prefix_append _ _

theorem serveWorker_flow {s : State} (w : Nat) (he : wkServeEnabled s = true) : FrameFlow s (serveWorker w s) := by
  obtain ⟨hwait, ⟨hstop, h⟩ | ⟨-, hc, f, rest, hq, h⟩⟩ := serveWorker_cases w he
  · rw [h]
    exact .exit hstop hwait rfl rfl rfl rfl
  · rw [h]
    refine .sent hc hwait rfl rfl hq ?_ rfl
    dsimp only
    split <;> rfl

/-- The inversion of an effect, as the worker and its queue see it. -/
theorem Effect.frameFlow {i : Instr} {s u : State} (h : Effect s i u) (hr : i ≠ .reset) : FrameFlow s u := by
  have hw := h.writesOnly
  cases h with
  | query | disabled => exact .refl s
  | reset => exact absurd rfl hr
  | wkServe w he => exact serveWorker_flow w he
  | wkWake he =>
    obtain ⟨hsleep, hdue⟩ := wkWakeEnabled_iff.1 he
    exact .woke hsleep hdue rfl rfl rfl rfl
  | cqEnqueue f => exact .of_writesOnly hw (enqueueFrame_queue f s) (by simp [mayWrite])
  | cmdSubmit c p => exact .of_writesOnly hw (submitCommand_queue c p s) (by simp [mayWrite])
  | rcIssue p hk => exact .of_writesOnly hw (issueRequest_queue _ _ p s) (by simp [mayWrite])
  | tick =>
    obtain ⟨hnow, -, -, hq, hstate, hwake, -, -, -, -, htx, -⟩ := advanceTime_keeps s
    exact .apart hstate hwake htx (hq ▸ List.prefix_rfl) (hnow ▸ Nat.le_succ _)
  | delivery hd =>
    rw [mayWrite_of_isDelivery hd] at hw
    exact .of_writesOnly hw (hw .queue (by simp [deliveryWrites]) ▸ List.prefix_rfl) (by simp [deliveryWrites])
  | _ => exact .of_writesOnly hw (hw .queue (by simp [mayWrite]) ▸ List.prefix_rfl) (by simp [mayWrite])

theorem exec_frameFlow {i : Instr} {s t : State} (hr : i ≠ .reset) (h : exec i s = .next t) : FrameFlow s t := by
  obtain ⟨u, r, heff, rfl⟩ := exec_next_effect h
  exact (heff.frameFlow hr).returning r

/-! ### The pacing law -/

theorem resetWith_pacingInv (cfg : Config) : PacingInv (State.resetWith cfg) := by
  simp [PacingInv, State.resetWith]

/-- `RESET` clears `TX` and wakes the worker (R230). -/
theorem execReset_pacingInv {s t : State} (h : execReset s = .next t) : PacingInv t := by
  cases h
  simp [PacingInv]

/-- The pacing law with its strengthening along one operation: a write comes a pacing interval after every other since
the worker waits, and a waiting worker has slept until `wake_at` (R143, R144, R18). -/
theorem FrameFlow.pacingInv {s u : State} (h : FrameFlow s u) (hc : u.cfg = s.cfg) (hp : PacingInv s) :
    PacingInv u := by
  obtain ⟨hpairs, hpast, hwait, hsleep⟩ := hp
  cases h with
  | apart state wakeAt tx queue time =>
    rw [PacingInv, hc, state, wakeAt, tx]
    refine ⟨hpairs, fun r hr => (hpast r hr).trans time, fun hw r hr => (hwait hw r hr).trans time, fun hs => ?_⟩
    obtain ⟨hbefore, hbound⟩ := hsleep hs
    exact ⟨hbefore, hbound.trans (Nat.add_le_add_right time _)⟩
  | exit stop before after tx queue time =>
    rw [PacingInv, hc, after, tx, time]
    exact ⟨hpairs, hpast, nofun, nofun⟩
  | sent connected before after tx queue time wakeAt =>
    have hapart := hwait before
    rw [PacingInv, hc, after, tx, time, wakeAt]
    refine ⟨List.pairwise_append.2 ⟨hpairs, List.pairwise_singleton _ _, ?_⟩, ?_, nofun, fun _ => ⟨?_, le_rfl⟩⟩
    · simpa using hapart
    · simpa [or_imp, forall_and] using hpast
    · simpa [or_imp, forall_and] using hpast
  | woke before due after tx queue time =>
    obtain ⟨hbefore, -⟩ := hsleep before
    rw [PacingInv, hc, after, tx, time]
    exact ⟨hpairs, hpast, fun _ r hr => (hbefore r hr).trans due, nofun⟩

theorem exec_pacingInv {i : Instr} {s t : State} (h : exec i s = .next t) (hp : PacingInv s) : PacingInv t := by
  obtain ⟨u, r, heff, rfl⟩ := exec_next_effect h
  have hu : PacingInv u := by
    by_cases hr : i = .reset
    · subst hr
      cases heff with
      | query hq => cases hq
      | disabled hd => cases hd
      | reset hreset => exact execReset_pacingInv hreset
      | delivery hd => cases hd
    · exact (heff.frameFlow hr).pacingInv heff.cfg_eq hp
  exact hu

theorem step_pacingInv {s t : State} (h : step s = .next t) (hp : PacingInv s) : PacingInv t := by
  obtain ⟨-, rfl | ⟨tr, rest, htr⟩⟩ := step_next_cases h
  · exact hp
  obtain rfl | ⟨i, hi⟩ := runTransaction_next_cases htr
  · exact hp
  · exact exec_pacingInv hi hp

/-! ### Runs -/

theorem runOps_cons {i : Instr} {s u : State} (h : exec i s = .next u) (ops : List Instr) :
    runOps (i :: ops) s = runOps ops u := by
  rw [runOps, h]

theorem runOps_cons_some {i : Instr} {ops : List Instr} {s t : State} (h : runOps (i :: ops) s = some t) :
    ∃ u, exec i s = .next u ∧ runOps ops u = some t := by
  rw [runOps] at h
  split at h
  · next u hu => exact ⟨u, hu, h⟩
  · cases h
  · cases h

theorem runOps_append {a : List Instr} {s u : State} (h : runOps a s = some u) (b : List Instr) :
    runOps (a ++ b) s = runOps b u := by
  induction a generalizing s with
  | nil => cases h; rfl
  | cons i a ih =>
    obtain ⟨v, hi, ha⟩ := runOps_cons_some h
    rw [List.cons_append, runOps_cons hi, ih ha]

/-- What holds across no operation, and across one operation other than `RESET` put before a run, holds across every run
without a `RESET`. -/
theorem runOps_induction {R : State → State → Prop} (refl : ∀ s, R s s)
    (step : ∀ {i : Instr} {s u t : State}, i ≠ .reset → exec i s = .next u → R u t → R s t)
    {ops : List Instr} {s t : State} (hr : .reset ∉ ops) (h : runOps ops s = some t) : R s t := by
  induction ops generalizing s with
  | nil => cases h; exact refl _
  | cons i ops ih =>
    obtain ⟨hi, hops⟩ := List.ne_and_not_mem_of_not_mem_cons hr
    obtain ⟨u, hu, hrest⟩ := runOps_cons_some h
    exact step hi.symm hu (ih hops hrest)

/-! ### The order of the frames -/

theorem FrameFlow.sentThenQueued_prefix {s u : State} (h : FrameFlow s u) :
    sentThenQueued s <+: sentThenQueued u := by
  cases h with
  | apart state wakeAt tx queue time =>
    rw [sentThenQueued, sentThenQueued, tx]
    exact (List.prefix_append_right_inj _).2 queue
  | exit _ _ _ tx queue | woke _ _ _ tx queue => rw [sentThenQueued, sentThenQueued, tx, queue]
  | sent connected before after tx queue => simp [sentThenQueued, tx, queue]

/-- A worker step moves the oldest frame from the queue to `TX`, or nothing. -/
theorem exec_wkServe_sentThenQueued {s t : State} {w : Nat} (h : exec (.wkServe w) s = .next t) :
    sentThenQueued t = sentThenQueued s := by
  cases he : wkServeEnabled s with
  | false => rw [exec_wkServe_disabled he] at h; cases h; rfl
  | true =>
    rw [exec_wkServe_enabled he] at h
    cases h
    obtain ⟨-, ⟨-, hexit⟩ | ⟨-, -, f, rest, hq, hsent⟩⟩ := serveWorker_cases w he
    · rw [hexit]; rfl
    · rw [hsent]; simp [sentThenQueued, hq]

/-! ### After the worker's exit -/

/-- R151 across a run: the exit lasts, nothing is written, the queue only grows. -/
def StaysExited (s t : State) : Prop :=
  s.wkState = .exited → t.wkState = .exited ∧ t.tx = s.tx ∧ s.cqItems <+: t.cqItems

theorem FrameFlow.staysExited {s u : State} (h : FrameFlow s u) : StaysExited s u := by
  intro hexited
  cases h with
  | apart state wakeAt tx queue time => exact ⟨state.trans hexited, tx, queue⟩
  | exit _ before | sent _ before | woke before => simp [hexited] at before

theorem runOps_staysExited {ops : List Instr} {s t : State} (hr : .reset ∉ ops) (h : runOps ops s = some t) :
    StaysExited s t := by
  refine runOps_induction (fun s hs => ⟨hs, rfl, List.prefix_rfl⟩) (fun {i s u t} hi hu ih hs => ?_) hr h
  obtain ⟨hu', htx, hq⟩ := (exec_frameFlow hi hu).staysExited hs
  obtain ⟨ht, htx', hq'⟩ := ih hu'
  exact ⟨ht, htx'.trans htx, hq.trans hq'⟩

/-! ### The eager schedule (R52, log 16) -/

theorem WritesOnly.trans {ws : List Element} {s t u : State} (h : WritesOnly ws s t) (h' : WritesOnly ws t u) :
    WritesOnly ws s u := by
  intro e he
  have h1 := h e he
  have h2 := h' e he
  cases e with
  | ringAllocation | ringWriteSide => exact ⟨h1.1.trans h2.1, h1.2.trans h2.2⟩
  | _ => exact Eq.trans h1 h2

/-- Where there is room, enqueues put the frames at the queue's end in their order (R140). -/
theorem runOps_enqueues {frames : List (List Byte)} (hf : ∀ f ∈ frames, f.length = frameLen) {s : State}
    (hd : s.cfg.qDepth = none) :
    ∃ r, runOps (frames.map .cqEnqueue) s = some { s with cqItems := s.cqItems ++ frames, ret := r } := by
  induction frames generalizing s with
  | nil => exact ⟨s.ret, by simp [runOps]⟩
  | cons f frames ih =>
    obtain ⟨hlen, hrest⟩ := List.forall_mem_cons.1 hf
    obtain ⟨r, hrun⟩ := ih hrest (s := { s with cqItems := s.cqItems ++ [f], ret := .ok true }) hd
    refine ⟨r, ?_⟩
    rw [List.map_cons, runOps_cons (exec_cqEnqueue_room hlen (queueFull_of_unbounded hd)), hrun]
    simp

/-- `n` ticks: time goes on by `n`, and only what a tick may write changes (R186). -/
theorem runOps_ticks (n : Nat) (s : State) :
    ∃ t, runOps (List.replicate n .tick) s = some t ∧ t.now = s.now + n ∧ WritesOnly (mayWrite .tick) s t := by
  induction n generalizing s with
  | zero => exact ⟨s, rfl, rfl, .refl _ s⟩
  | succ n ih =>
    obtain ⟨t, hrun, hnow, hw⟩ := ih (returning .none (advanceTime s))
    have htick := (advanceTime_writesOnly s).returning (result_mem_mayWrite .tick) .none
    refine ⟨t, hrun, ?_, htick.trans hw⟩
    rw [hnow, returning_now, (advanceTime_keeps s).1]
    exact Nat.add_right_comm _ _ _

/-- A worker that will serve as soon as there is a frame. -/
structure ReadyWorker (s : State) : Prop where
  waiting : s.wkState = .wait
  running : s.ctlStop = false
  connected : s.tpConnected = true

/-- One turn of a ready worker writes the oldest frame and takes a pacing interval, after which it is ready again. -/
theorem runOps_workerTurn {s : State} {f : List Byte} {rest : List (List Byte)} (hs : ReadyWorker s)
    (hq : s.cqItems = f :: rest) :
    ∃ t, runOps (workerTurn s.cfg.paceTicks) s = some t ∧ ReadyWorker t ∧ t.cfg = s.cfg ∧ t.cqItems = rest ∧
      t.now = s.now + s.cfg.paceTicks ∧ t.tx = s.tx ++ [{ time := s.now, frame := f }] := by
  have hsend := exec_wkServe_send hs.waiting hs.running hs.connected hq frameLen
  rw [if_pos rfl] at hsend
  obtain ⟨u, hticks, hnow, hw⟩ := runOps_ticks s.cfg.paceTicks
    { s with
      cqItems := rest
      tx := s.tx ++ [{ time := s.now, frame := f }]
      wkWakeAt := s.now + s.cfg.paceTicks
      wkState := .sleep
      ret := .none }
  have hsleep := hw .workerState (by simp [mayWrite])
  have hdue := hw .wakeTime (by simp [mayWrite])
  have hstop := hw .stopFlag (by simp [mayWrite])
  have hconn := hw .connection (by simp [mayWrite])
  have hcfg := hw .configuration (by simp [mayWrite])
  have hqueue := hw .queue (by simp [mayWrite])
  have htx := hw .traceTx (by simp [mayWrite])
  have hwake := exec_wkWake_enabled (wkWakeEnabled_iff.2 ⟨hsleep.symm, (hdue.symm.trans hnow.symm).le⟩)
  refine ⟨{ u with wkState := .wait, ret := .none }, ?_, ?_, hcfg.symm, hqueue.symm, hnow, htx.symm⟩
  · rw [workerTurn, runOps_cons hsend, runOps_append hticks, runOps_cons hwake, runOps]
  · exact ⟨rfl, hstop.symm.trans hs.running, hconn.symm.trans hs.connected⟩

/-- The `TX` records of frames written a pacing interval apart, from `now` on. -/
def pacedRecords (now paceTicks : Nat) (frames : List (List Byte)) : List TxRecord :=
  frames.zipIdx.map fun fi => { time := now + fi.2 * paceTicks, frame := fi.1 }

theorem pacedRecords_cons (now paceTicks : Nat) (f : List Byte) (frames : List (List Byte)) :
    pacedRecords now paceTicks (f :: frames) =
      { time := now, frame := f } :: pacedRecords (now + paceTicks) paceTicks frames := by
  simp only [pacedRecords, List.zipIdx_cons, List.map_cons, Nat.zero_mul, Nat.add_zero, List.cons.injEq, true_and]
  rw [List.zipIdx_succ, List.map_map]
  refine List.map_congr_left fun fi _ => ?_
  simp only [Function.comp_apply, TxRecord.mk.injEq, and_true]
  ring

/-- As many turns as there are frames queued write them all. -/
theorem runOps_workerTurns {frames : List (List Byte)} {s : State} (hs : ReadyWorker s) (hq : s.cqItems = frames) :
    ∃ t, runOps (List.replicate frames.length (workerTurn s.cfg.paceTicks)).flatten s = some t ∧ ReadyWorker t ∧
      t.cqItems = [] ∧ t.tx = s.tx ++ pacedRecords s.now s.cfg.paceTicks frames := by
  induction frames generalizing s with
  | nil => exact ⟨s, rfl, hs, hq, by simp [pacedRecords]⟩
  | cons f frames ih =>
    obtain ⟨u, hturn, hu, hcfg, hrest, hnow, htx⟩ := runOps_workerTurn hs hq
    obtain ⟨t, hturns, ht, hempty, htx'⟩ := ih hu hrest
    rw [hcfg] at hturns
    refine ⟨t, ?_, ht, hempty, ?_⟩
    · rw [List.length_cons, List.replicate_succ, List.flatten_cons, runOps_append hturn, hturns]
    · rw [htx', htx, hcfg, hnow, pacedRecords_cons, List.append_assoc, List.singleton_append]

/-! ### Shutdown -/

/-- A worker whose sleep is over, if it sleeps, is not asleep after a `WK_WAKE`, whether or not that was enabled. -/
theorem exec_wkWake_awake {s : State} (h : s.wkState = .sleep → s.wkWakeAt ≤ s.now) :
    ∃ x r, x ≠ .sleep ∧ exec .wkWake s = .next { s with wkState := x, ret := r } := by
  by_cases hs : s.wkState = .sleep
  · exact ⟨.wait, .none, nofun, exec_wkWake_enabled (wkWakeEnabled_iff.2 ⟨hs, h hs⟩)⟩
  · exact ⟨s.wkState, .notEnabled, hs, exec_wkWake_disabled (wkWakeEnabled_eq_false_iff.2 (.inl hs))⟩

/-- With a shutdown requested, a worker not asleep has exited after a `WK_SERVE`, whether or not that was enabled. -/
theorem exec_wkServe_exited {s : State} (hstop : s.ctlStop = true) (h : s.wkState ≠ .sleep) (w : Nat) :
    ∃ r, exec (.wkServe w) s = .next { s with wkState := .exited, ret := r } := by
  cases hs : s.wkState with
  | wait => exact ⟨.none, exec_wkServe_exit hs hstop w⟩
  | sleep => exact absurd hs h
  | exited =>
    have hd : wkServeEnabled s = false := wkServeEnabled_eq_false_iff.2 (.inl (by simp [hs]))
    exact ⟨.notEnabled, by rw [exec_wkServe_disabled hd, ← hs]⟩

end Sys2Proof.Proofs

open Sys2Proof.Proofs

/-- Settles O12: one operation keeps `PacingInv` (`FrameFlow.pacingInv`), and its first clause, about any two records,
is about consecutive ones too. -/
theorem everyStepKeepsThePacingLaw : Obligations.EveryStepKeepsThePacingLaw := by
  refine ⟨resetWith_pacingInv, fun s t hp h => step_pacingInv h hp, fun s hp n a b ha hb => ?_⟩
  obtain ⟨hpairs, -⟩ := hp
  obtain ⟨hn, rfl⟩ := List.getElem?_eq_some_iff.1 ha
  obtain ⟨hn', rfl⟩ := List.getElem?_eq_some_iff.1 hb
  exact List.pairwise_iff_getElem.1 hpairs n (n + 1) hn hn' (Nat.lt_succ_self n)

/-- Settles O44: by induction over the run, each operation only appending to the frames written and queued
(`FrameFlow.sentThenQueued_prefix`) and to `TX` (R27). -/
theorem framesLeaveInEnqueueOrder : Obligations.FramesLeaveInEnqueueOrder := by
  intro ops s t hr hrun
  refine ⟨?_, ?_, fun w u hu => exec_wkServe_sentThenQueued hu⟩
  · exact runOps_induction (R := fun s t => sentThenQueued s <+: sentThenQueued t) (fun _ => List.prefix_rfl)
      (fun hi hu ih => (exec_frameFlow hi hu).sentThenQueued_prefix.trans ih) hr hrun
  · refine runOps_induction (R := fun s t => s.tx.map TxRecord.frame <+: t.tx.map TxRecord.frame)
      (fun _ => List.prefix_rfl) (fun {i s u t} hi hu ih => ?_) hr hrun
    obtain ⟨htx, -⟩ := tracesOnlyGrow i s u hi hu
    exact (htx.map _).trans ih

/-- Settles O38: R4 (d) makes a request code's kind the one that the look-up finds; any other code is encoded and
enqueued as `FC_ENCODE` and `CQ_ENQUEUE` do. -/
theorem cmdSubmitQueuesOrIssues : Obligations.CmdSubmitQueuesOrIssues := by
  intro s command payload
  refine ⟨rfl, ?_, fun hk hfull => ?_, fun hk hroom => ?_⟩
  · rintro k kp hn hk rfl
    exact ⟨_, exec_rcIssue hk payload, (exec_cmdSubmit_request hn hk payload).trans (exec_rcIssue hk payload)⟩
  · rw [exec_cmdSubmit, submitCommand_full (queueFull_iff.2 hfull)]
    rfl
  · have hspace := queueFull_eq_false_iff.2 hroom
    obtain ⟨hcfg, -, hqueue, -⟩ := encodeFrame_keeps command payload s
    have henq : exec (.cqEnqueue (frameOf s.cfg command payload))
        (returning (.frame (frameOf s.cfg command payload)) (encodeFrame command payload s).1) = _ :=
      exec_cqEnqueue_room (frameOf_length s.cfg command payload) ((queueFull_congr hcfg hqueue).trans hspace)
    refine ⟨_, _, _, exec_fcEncode command payload s, rfl, henq, congrArg (· ++ _) hqueue, ?_⟩
    rw [exec_cmdSubmit_room hk hspace]
    simp only [returning, hqueue]

/-- Settles O43: the write of a frame needs the connection and the exit needs the request (`FrameFlow`), and every other
operation leaves `TX` and lets the queue grow. -/
theorem disconnectionOnlyDelays : Obligations.DisconnectionOnlyDelays := by
  intro s hc hstop
  refine ⟨wkServeEnabled_eq_false_iff.2 (.inr ⟨hstop, .inr hc⟩), fun i t hi h => ?_, _, rfl, rfl, fun hw hq =>
    wkServeEnabled_iff.2 ⟨hw, .inr ⟨hq, rfl⟩⟩⟩
  cases exec_frameFlow hi h with
  | apart state wakeAt tx queue time => exact ⟨tx, queue⟩
  | exit stop => simp [hstop] at stop
  | sent connected => simp [hc] at connected
  | woke before due after tx queue time => exact ⟨tx, queue ▸ List.prefix_rfl⟩

/-- Settles O45: no operation but `RESET` leads out of `EXITED` (`FrameFlow.staysExited`), and both enabling conditions
name another state of the worker. -/
theorem exitedWorkerNeverStepsAgain : Obligations.ExitedWorkerNeverStepsAgain := by
  refine ⟨fun ops s t hs hr hrun => ?_, fun s => ⟨_, rfl, rfl⟩⟩
  obtain ⟨ht, htx, hq⟩ := runOps_staysExited hr hrun hs
  have hserve : wkServeEnabled t = false := wkServeEnabled_eq_false_iff.2 (.inl (by simp [ht]))
  have hwake : wkWakeEnabled t = false := wkWakeEnabled_eq_false_iff.2 (.inl (by simp [ht]))
  exact ⟨ht, hserve, hwake, htx, hq⟩

/-- Settles O46: each of the three asks `queueFull` before it writes anything, and an unbounded queue is never full. -/
theorem fullQueueRefuses : Obligations.FullQueueRefuses := by
  intro s command payload f k hf
  refine ⟨fun d hd hlen => ?_, fun hd => ?_⟩
  · have hfull := queueFull_iff.2 ⟨d, hd, hlen⟩
    refine ⟨exec_cqEnqueue_full hf hfull, ?_, fun hk => ?_⟩
    · rw [exec_cmdSubmit, submitCommand_full hfull]
      rfl
    · rw [exec_rcIssue (List.getElem?_eq_getElem hk), issueRequest_full hfull]
      rfl
  · have hroom := queueFull_of_unbounded hd
    exact ⟨exec_cqEnqueue_room hf hroom, fun hk => ⟨_, exec_cmdSubmit_room hk hroom payload, rfl⟩⟩

/-- Settles O47: the enqueues fill the queue (`runOps_enqueues`), the connect makes the worker ready, and each turn
writes one frame (`runOps_workerTurns`). -/
theorem queuedFramesAllLeavePaced : Obligations.QueuedFramesAllLeavePaced := by
  intro s frames hw hstop _ hempty hd hf
  obtain ⟨r, hqueued⟩ := runOps_enqueues hf hd
  have hready : ReadyWorker { s with cqItems := s.cqItems ++ frames, tpConnected := true, ret := .none } :=
    ⟨hw, hstop, rfl⟩
  obtain ⟨t, hturns, ht, hsent, htx⟩ := runOps_workerTurns hready (by rw [hempty, List.nil_append])
  refine ⟨t, ?_, htx, hsent, ht.waiting⟩
  rw [runOps_append hqueued, runOps_cons rfl]
  exact hturns

/-- Settles O48: by R148's strengthening `wake_at` is at most a pacing interval away, so after the ticks the `WK_WAKE`
leaves the worker awake and the `WK_SERVE` takes it out. -/
theorem shutdownCompletesWithinOnePacingInterval : Obligations.ShutdownCompletesWithinOnePacingInterval := by
  intro s w hp hstop
  obtain ⟨-, -, -, hsleep⟩ := hp
  obtain ⟨u, hticks, hnow, hw⟩ := runOps_ticks s.cfg.paceTicks s
  have hstate := hw .workerState (by simp [mayWrite])
  have hwakeAt := hw .wakeTime (by simp [mayWrite])
  have hdue : u.wkState = .sleep → u.wkWakeAt ≤ u.now := by
    intro hs
    obtain ⟨-, hbound⟩ := hsleep (hstate.trans hs)
    rwa [hnow, ← hwakeAt]
  obtain ⟨x, r, hx, hwake⟩ := exec_wkWake_awake hdue
  obtain ⟨r', hserve⟩ := exec_wkServe_exited (s := { u with wkState := x, ret := r })
    ((hw .stopFlag (by simp [mayWrite])).symm.trans hstop) hx w
  have htx := hw .traceTx (by simp [mayWrite])
  have hqueue := hw .queue (by simp [mayWrite])
  refine ⟨{ u with wkState := .exited, ret := r' }, ?_, rfl, htx.symm, hqueue.symm⟩
  rw [runOps_append hticks, runOps_cons hwake, runOps_cons hserve, runOps]

/-- Settles O37: the two outcomes of an enqueue, by whether the queue is full. -/
theorem cqEnqueueAppendsTheFrame : Obligations.CqEnqueueAppendsTheFrame := fun _ _ hf =>
  ⟨rfl, fun hfull => exec_cqEnqueue_full hf (queueFull_iff.2 hfull),
    fun hroom => exec_cqEnqueue_room hf (queueFull_eq_false_iff.2 hroom)⟩

/-- Settles O39: the exit is `exec_wkServe_exit`, the write `exec_wkServe_send`, by whether the count is 14. -/
theorem wkServeExitsOrSendsTheOldestFrame : Obligations.WkServeExitsOrSendsTheOldestFrame := by
  intro s w hwait
  refine ⟨rfl, fun hstop => exec_wkServe_exit hwait hstop w, fun f rest hstop hc hq => ⟨fun hw => ?_, fun hw => ?_⟩⟩
  · rw [exec_wkServe_send hwait hstop hc hq, if_pos hw]
  · rw [exec_wkServe_send hwait hstop hc hq, if_neg hw]
    rfl

/-- Settles O40: the two premises are the wake's enabling condition. -/
theorem wkWakeEndsTheSleep : Obligations.WkWakeEndsTheSleep := fun _ hs hdue =>
  ⟨rfl, exec_wkWake_enabled (wkWakeEnabled_iff.2 ⟨hs, hdue⟩)⟩

/-- Settles O41: each arm is its one update. -/
theorem flagOperationsWriteTheirFlag : Obligations.FlagOperationsWriteTheirFlag := fun _ =>
  ⟨⟨rfl, rfl⟩, ⟨rfl, rfl⟩, rfl, rfl⟩

/-- Settles O42: each premise contradicts the step's enabling condition. -/
theorem disabledInternalStepsChangeNothing : Obligations.DisabledInternalStepsChangeNothing := by
  intro s w k status
  refine ⟨fun h => exec_wkServe_disabled (wkServeEnabled_eq_false_iff.2 h) w,
    fun h => exec_wkWake_disabled (wkWakeEnabled_eq_false_iff.2 h),
    fun hk hidle => ⟨exec_rcResolve_idle hk hidle status, exec_rcExpire_disabled hk ?_⟩,
    fun issueTs deadline hk hawaiting hnow => exec_rcExpire_disabled hk ?_⟩
  · rw [rcExpireEnabled, hidle]
  · rw [rcExpireEnabled, hawaiting]
    exact decide_eq_false (Nat.not_le.2 hnow)

end

section
/-! The statements of 43_response_correlator.md: how a request is issued (R161, R162), how it ends (R163, R166), and what
a run makes of it: at most one outcome per request (R169, R172), and a timeout where nothing else ends it (R166, R167).
The last two come from one relation, what a kind's request may go through where none is issued (`AtMostEnds`); that a run
completes at all is R207. -/

open Sys2Proof Sys2Proof.Machine Sys2Proof.Laws

namespace Sys2Proof.Proofs

/-! ### The correlator's operations and the tick -/

theorem rcResolveEnabled_iff {s : State} {k : Nat} : rcResolveEnabled s k = true ↔ rcOf s k ≠ .idle := by
  cases h : rcOf s k <;> simp [rcResolveEnabled, h]

theorem rcExpireEnabled_iff {s : State} {k : Nat} :
    rcExpireEnabled s k = true ↔ ∃ issueTs deadline, rcOf s k = .awaiting issueTs deadline ∧ deadline ≤ s.now := by
  cases h : rcOf s k <;> simp [rcExpireEnabled, h]

theorem rcExpireEnabled_awaiting {s : State} {k : Nat} {issueTs deadline : Time}
    (h : rcOf s k = .awaiting issueTs deadline) : rcExpireEnabled s k = decide (deadline ≤ s.now) := by
  rw [rcExpireEnabled, h]

/-- Only an outstanding request can be due (R166). -/
theorem ne_idle_of_rcExpireEnabled {s : State} {k : Nat} (h : rcExpireEnabled s k = true) : rcOf s k ≠ .idle := by
  obtain ⟨_, _, hawaiting, -⟩ := rcExpireEnabled_iff.1 h
  simp [hawaiting]

/-- An accepted request arms its kind, and its frame goes to the queue (R161). -/
theorem exec_rcIssue_accepted {s : State} {k : Nat} {kp : KindParams} (hk : s.cfg.kinds[k]? = some kp)
    (hidle : rcOf s k = .idle) (hc : s.tpConnected = true) (hroom : queueFull s = false) (payload : List Byte) :
    exec (.rcIssue k payload) s = .next
      { (encodeFrame kp.reqCmd payload s).1 with
        rc := s.rc.set k (.awaiting s.now (s.now + kp.timeoutTicks))
        cqItems := s.cqItems ++ [frameOf s.cfg kp.reqCmd payload]
        ret := .accepted true } := by
  obtain ⟨hne | hc' | hfull, -⟩ | ⟨-, -, -, hissue⟩ := issueRequest_cases kp k payload s
  · exact absurd hidle hne
  · simp [hc] at hc'
  · simp [hroom] at hfull
  · rw [exec_rcIssue hk, hissue]
    rfl

/-- A rejected request has no effect (R162). -/
theorem exec_rcIssue_rejected {s : State} {k : Nat} {kp : KindParams} (hk : s.cfg.kinds[k]? = some kp)
    (h : rcOf s k ≠ .idle ∨ s.tpConnected = false ∨ queueFull s = true) (payload : List Byte) :
    exec (.rcIssue k payload) s = .next { s with ret := .accepted false } := by
  obtain ⟨-, hissue⟩ | ⟨hidle, hc, hroom, -⟩ := issueRequest_cases kp k payload s
  · rw [exec_rcIssue hk, hissue]
    rfl
  · simp [hidle, hc, hroom] at h

theorem exec_rcResolve_awaiting {s : State} {k : Nat} {kp : KindParams} (hk : s.cfg.kinds[k]? = some kp)
    (h : rcOf s k ≠ .idle) (status : Byte) :
    exec (.rcResolve k status) s = .next (returning .none (resolveByStatus kp k status s)) := by
  simp only [exec, execRcResolve, hk, if_pos (rcResolveEnabled_iff.2 h)]

theorem exec_rcExpire_due {s : State} {k : Nat} (hk : k < s.cfg.kinds.length) (h : rcExpireEnabled s k = true) :
    exec (.rcExpire k) s = .next (returning .none (expireRequest k s)) := by
  simp only [exec, execRcExpire, List.getElem?_eq_getElem hk, if_pos h]

theorem exec_tick (s : State) : exec .tick s = .next (returning .none (advanceTime s)) := rfl

/-! ### Where no request is issued -/

/-- What kind `k`'s request may go through where none is issued: it stays as it is, without an outcome, or it was
outstanding and ends with one. -/
inductive AtMostEnds (k : Nat) (s u : State) : Prop where
  | kept (record : rcOf u k = rcOf s k) (outcomes : outcomesOf u k = outcomesOf s k)
  | ended (before : rcOf s k ≠ .idle) (after : rcOf u k = .idle) (outcomes : outcomesOf u k = outcomesOf s k + 1)

theorem AtMostEnds.refl (k : Nat) (s : State) : AtMostEnds k s s := .kept rfl rfl

/-- A request that has ended does not end again (R172). -/
theorem AtMostEnds.trans {k : Nat} {s t u : State} (h : AtMostEnds k s t) (h' : AtMostEnds k t u) :
    AtMostEnds k s u := by
  cases h with
  | kept record outcomes =>
    cases h' with
    | kept record' outcomes' => exact .kept (record'.trans record) (outcomes'.trans outcomes)
    | ended before' after' outcomes' => exact .ended (record ▸ before') after' (outcomes ▸ outcomes')
  | ended before after outcomes =>
    cases h' with
    | kept record' outcomes' => exact .ended before (record'.trans after) (outcomes'.trans outcomes)
    | ended before' => exact absurd after before'

/-- The correlators and `OUT` are all that a kind's request consists of. -/
theorem AtMostEnds.of_eq {k : Nat} {s u : State} (rc : u.rc = s.rc) (out : u.out = s.out) : AtMostEnds k s u :=
  .kept (rcOf_congr rc k) (by rw [outcomesOf, out, outcomesOf])

theorem AtMostEnds.outcomes_of_idle {k : Nat} {s u : State} (h : AtMostEnds k s u) (hidle : rcOf s k = .idle) :
    outcomesOf u k = outcomesOf s k := by
  cases h with
  | kept _ outcomes => exact outcomes
  | ended before => exact absurd hidle before

theorem AtMostEnds.outcomes_le {k : Nat} {s u : State} (h : AtMostEnds k s u) :
    outcomesOf u k ≤ outcomesOf s k + 1 := by
  cases h with
  | kept _ outcomes => omega
  | ended _ _ outcomes => omega

/-! ### The shared operations of a dispatch and of a tick -/

/-- The resolution of an outstanding request ends it, and is no business of another kind (R163, R171). -/
theorem resolveRequest_atMostEnds {j : Nat} {s : State} (h : rcOf s j ≠ .idle) (why : Reason) (code : Option Byte)
    (k : Nat) : AtMostEnds k s (resolveRequest j why code s) := by
  by_cases hk : k = j
  · subst hk
    exact .ended h ((rcOf_resolveRequest k k why code s).trans (if_pos rfl)) (by simp [outcomesOf])
  · exact .kept ((rcOf_resolveRequest j k why code s).trans (if_neg hk)) (by simp [outcomesOf, Ne.symm hk])

theorem expireRequest_atMostEnds {j : Nat} {s : State} (h : rcOf s j ≠ .idle) (k : Nat) :
    AtMostEnds k s (expireRequest j s) :=
  (resolveRequest_atMostEnds h .timeout none k).trans (.of_eq rfl rfl)

theorem respond_atMostEnds (kp : KindParams) (j : Nat) (c st : Byte) (s : State) (k : Nat) :
    AtMostEnds k s (respond kp j c st s) := by
  obtain ⟨_, _, hawaiting, h⟩ | ⟨-, h⟩ := respond_cases kp j c st s
  · rw [h]
    exact resolveRequest_atMostEnds (by simp [hawaiting]) _ _ k
  · rw [h]
    exact .of_eq rfl rfl

theorem correlate_atMostEnds (c st : Byte) (kps : List KindParams) (j : Nat) (s : State) (k : Nat) :
    AtMostEnds k s (correlate c st kps j s).1 := by
  induction kps generalizing j s with
  | nil => exact .refl k s
  | cons kp rest ih =>
    simp only [correlate]
    split
    · exact (respond_atMostEnds kp j c st s k).trans (ih _ _)
    · exact ih _ s

theorem dispatchFrame_atMostEnds (c : Byte) (p : List Byte) (s : State) (k : Nat) :
    AtMostEnds k s (dispatchFrame c p s) := by
  have hc := correlate_atMostEnds c (payloadByte p 0) s.cfg.kinds 0 s k
  simp only [dispatchFrame]
  split
  · exact hc.trans (.of_eq rfl rfl)
  · split
    · exact hc
    · exact hc.trans (.of_eq rfl rfl)

theorem drainFrames_atMostEnds (turns : Nat) (s : State) (k : Nat) : AtMostEnds k s (drainFrames turns s) := by
  induction turns generalizing s with
  | zero => exact .refl k s
  | succ n ih =>
    have hx : AtMostEnds k s (extractFrame s).1 := .of_eq rfl rfl
    rw [drainFrames]
    split
    · next he => rwa [he] at hx
    · next c p he =>
      rw [he] at hx
      exact hx.trans ((dispatchFrame_atMostEnds c p _ k).trans (ih _))

/-- However many frames a delivery completes, it ends a kind's request at most once (R172). -/
theorem receiveBytes_atMostEnds (bytes : List Byte) (s : State) (k : Nat) : AtMostEnds k s (receiveBytes bytes s) := by
  simp only [receiveBytes]
  refine .trans ?_ (drainFrames_atMostEnds _ _ k)
  split
  · exact .of_eq rfl rfl
  · exact .of_eq rfl rfl

theorem expireAll_atMostEnds (ks : List Nat) (s : State) (k : Nat) : AtMostEnds k s (ks.foldl expireIfDue s) := by
  induction ks generalizing s with
  | nil => exact .refl k s
  | cons j ks ih =>
    refine .trans ?_ (ih (expireIfDue s j))
    unfold expireIfDue
    split
    · next hdue => exact expireRequest_atMostEnds (ne_idle_of_rcExpireEnabled hdue) k
    · exact .refl k s

theorem advanceTime_atMostEnds (s : State) (k : Nat) : AtMostEnds k s (advanceTime s) :=
  .trans (t := { s with now := s.now + 1 }) (.of_eq rfl rfl) (expireAll_atMostEnds _ _ k)

/-! ### Which operations end a request, and which issue one -/

/-- The operations of the two agents that end requests: a response or a dispatch, or the timer (R163, R166). -/
abbrev MayEnd (i : Instr) : Prop := agentOf i = .inboundPath ∨ agentOf i = .timer

theorem agentOf_of_isDelivery {i : Instr} (h : isDelivery i = true) : agentOf i = .inboundPath := by
  cases i <;> simp [isDelivery, agentOf] at *

/-- No other agent's operation reports outcomes (R10, R27). -/
theorem traceOut_notMem_mayWrite {i : Instr} (hr : i ≠ .reset) (ha : ¬ MayEnd i) : Element.traceOut ∉ mayWrite i := by
  cases i <;> simp [MayEnd, agentOf, mayWrite] at *

/-- The other agents' operations write the correlators only to issue a request (R161, R142). -/
theorem correlators_notMem_mayWrite {i : Instr} (hr : i ≠ .reset) (ha : ¬ MayEnd i) (hi : ∀ j p, i ≠ .rcIssue j p)
    (hc : ∀ c p, i ≠ .cmdSubmit c p) : Element.correlators ∉ mayWrite i := by
  cases i <;> simp [MayEnd, agentOf, mayWrite] at *

/-- The inversion of an effect that issues no request, as a kind's request sees it. -/
theorem Effect.atMostEnds {i : Instr} {s u : State} (h : Effect s i u) (hr : i ≠ .reset)
    (hi : ∀ j p, i ≠ .rcIssue j p) (hc : ∀ c p, i ≠ .cmdSubmit c p) (k : Nat) : AtMostEnds k s u := by
  by_cases ha : MayEnd i
  · cases h with
    | query | disabled => exact .refl k s
    | fcDispatch c p => exact dispatchFrame_atMostEnds c p s k
    | rcResolve st hk he => exact resolveRequest_atMostEnds (rcResolveEnabled_iff.1 he) _ _ k
    | rcExpire he => exact expireRequest_atMostEnds (ne_idle_of_rcExpireEnabled he) k
    | tick => exact advanceTime_atMostEnds s k
    | delivery => exact receiveBytes_atMostEnds _ s k
    | _ => simp [MayEnd, agentOf] at ha
  · have hw := h.writesOnly
    exact .of_eq (hw _ (correlators_notMem_mayWrite hr ha hi hc)).symm (hw _ (traceOut_notMem_mayWrite hr ha)).symm

theorem exec_atMostEnds {i : Instr} {s t : State} (h : exec i s = .next t) (hr : i ≠ .reset)
    (hi : ∀ j p, i ≠ .rcIssue j p) (hc : ∀ c p, i ≠ .cmdSubmit c p) (k : Nat) : AtMostEnds k s t := by
  obtain ⟨u, r, heff, rfl⟩ := exec_next_effect h
  exact (heff.atMostEnds hr hi hc k).trans (.of_eq rfl rfl)

theorem runOps_atMostEnds {ops : List Instr} {s t : State}
    (hops : ∀ i ∈ ops, i ≠ .reset ∧ (∀ j p, i ≠ .rcIssue j p) ∧ ∀ c p, i ≠ .cmdSubmit c p)
    (h : runOps ops s = some t) (k : Nat) : AtMostEnds k s t := by
  induction ops generalizing s with
  | nil => cases h; exact .refl k _
  | cons i ops ih =>
    obtain ⟨⟨hr, hi, hc⟩, hrest⟩ := List.forall_mem_cons.1 hops
    obtain ⟨u, hu, hrun⟩ := runOps_cons_some h
    exact (exec_atMostEnds hu hr hi hc k).trans (ih hrest hrun)

/-- `RC_ISSUE` arms its own kind, and that only while no request of the kind is outstanding (R161, R162, R171). -/
theorem rcOf_issueRequest {kp : KindParams} {j k : Nat} {s : State} (h : rcOf s k ≠ .idle) (p : List Byte) :
    rcOf (issueRequest kp j p s).1 k = rcOf s k := by
  obtain ⟨-, he⟩ | ⟨hidle, -, -, he⟩ := issueRequest_cases kp j p s
  · rw [he]
  · have hk : k ≠ j := by rintro rfl; exact h hidle
    rw [he, rcOf, getD_set, if_neg fun hj => hk hj.1, rcOf]

/-- An outstanding request stands through every operation of another agent than the two that end requests. -/
theorem exec_keeps_outstanding {i : Instr} {s t : State} {k : Nat} (h : exec i s = .next t) (hr : i ≠ .reset)
    (ha : ¬ MayEnd i) (hk : rcOf s k ≠ .idle) : rcOf t k = rcOf s k := by
  obtain ⟨u, r, heff, rfl⟩ := exec_next_effect h
  have hw := heff.writesOnly
  suffices rcOf u k = rcOf s k from this
  cases heff with
  | rcIssue p _ => exact rcOf_issueRequest hk p
  | cmdSubmit c p =>
    obtain ⟨j, kp, -, -, he⟩ | ⟨-, -, he⟩ | ⟨-, -, he⟩ := submitCommand_cases c p s
    · rw [he]; exact rcOf_issueRequest hk p
    · rw [he]
    · rw [he]; exact rcOf_congr (encodeFrame_writesOnly c p s .correlators (by simp [mayWrite])).symm k
  | query | disabled => rfl
  | reset => exact absurd rfl hr
  | delivery hd => exact absurd (.inl (agentOf_of_isDelivery hd)) ha
  | fcDispatch | rcResolve | rcExpire | tick => simp [MayEnd, agentOf] at ha
  | _ => exact rcOf_congr (hw .correlators (by simp [mayWrite])).symm k

theorem exec_keeps_outcomes {i : Instr} {s t : State} (h : exec i s = .next t) (hr : i ≠ .reset) (ha : ¬ MayEnd i)
    (k : Nat) : outcomesOf t k = outcomesOf s k := by
  have hout : s.out = t.out := operationsWriteOnlyTheirOwnElements i s t _ h (traceOut_notMem_mayWrite hr ha)
  rw [outcomesOf, ← hout, outcomesOf]

end Sys2Proof.Proofs

open Sys2Proof.Proofs

/-- Settles O54: an operation of the inbound path or the timer issues nothing, so it at most ends the kind's request
(`exec_atMostEnds`); any other leaves `OUT` and every outstanding request alone. Along a run without an issue a request
that has ended stays ended (`AtMostEnds.trans`). -/
theorem atMostOneResolutionPerRequest : Obligations.AtMostOneResolutionPerRequest := by
  refine ⟨fun i s t k hr h => ?_, fun ops s t k hops h => ?_⟩
  · by_cases ha : MayEnd i
    · have hends : AtMostEnds k s t := exec_atMostEnds h hr
        (by rintro j p rfl; simp [MayEnd, agentOf] at ha) (by rintro c p rfl; simp [MayEnd, agentOf] at ha) k
      refine ⟨hends.outcomes_of_idle, fun _ => ?_⟩
      cases hends with
      | kept record outcomes => exact .inl ⟨record, outcomes⟩
      | ended before after outcomes => exact .inr ⟨after, outcomes, ha⟩
    · have hout := exec_keeps_outcomes h hr ha k
      exact ⟨fun _ => hout, fun hk => .inl ⟨exec_keeps_outstanding h hr ha hk, hout⟩⟩
  · have hends := runOps_atMostEnds hops h k
    exact ⟨hends.outcomes_le, hends.outcomes_of_idle⟩

namespace Sys2Proof.Proofs

/-! ### Every well-formed operation completes (R207) -/

theorem lt_length_of_isKind {cfg : Config} {k : Nat} (h : isKind cfg k = true) : k < cfg.kinds.length := by
  simp only [isKind, Bool.and_eq_true, decide_eq_true_eq] at h
  exact h.1

theorem exec_next_of_wf {i : Instr} {s : State} (h : i.wf s.cfg = true) : ∃ t, exec i s = .next t := by
  cases i with
  | rbChecksum n m =>
    simp only [exec, execRbChecksum]
    split
    · exact ⟨_, rfl⟩
    · exact ⟨_, rfl⟩
  | fcExtract =>
    simp only [exec, execFcExtract]
    split
    · exact ⟨_, rfl⟩
    · exact ⟨_, rfl⟩
  | fcDispatch c p => exact ⟨_, exec_fcDispatch (beq_iff_eq.1 h) s⟩
  | cqEnqueue f => exact ⟨_, if_pos (beq_iff_eq.1 h)⟩
  | wkServe w =>
    cases he : wkServeEnabled s with
    | true => exact ⟨_, exec_wkServe_enabled he w⟩
    | false => exact ⟨_, exec_wkServe_disabled he w⟩
  | wkWake =>
    cases he : wkWakeEnabled s with
    | true => exact ⟨_, exec_wkWake_enabled he⟩
    | false => exact ⟨_, exec_wkWake_disabled he⟩
  | rcIssue k p => exact ⟨_, exec_rcIssue (List.getElem?_eq_getElem (lt_length_of_isKind h)) p⟩
  | rcResolve k st =>
    have hk := lt_length_of_isKind h
    by_cases hidle : rcOf s k = .idle
    · exact ⟨_, exec_rcResolve_idle hk hidle st⟩
    · exact ⟨_, exec_rcResolve_awaiting (List.getElem?_eq_getElem hk) hidle st⟩
  | rcExpire k =>
    have hk := lt_length_of_isKind h
    cases he : rcExpireEnabled s k with
    | true => exact ⟨_, exec_rcExpire_due hk he⟩
    | false => exact ⟨_, exec_rcExpire_disabled hk he⟩
  | frame => exact ⟨_, exec_frame (wf_frame_iff.1 h).1 s⟩
  | frameVarRead => exact ⟨_, exec_frameVarRead (wf_frameVarRead_iff.1 h).1 s⟩
  | frameStatus => exact ⟨_, exec_frameStatus (wf_frameStatus_iff.1 h).1 s⟩
  | frameMode => exact ⟨_, exec_frameMode (wf_frameMode_iff.1 h).1 s⟩
  | frameResponse => exact ⟨_, exec_frameResponse (wf_frameResponse_iff.1 h).1 s⟩
  | _ => exact ⟨_, rfl⟩

/-- The configuration stays (R28). -/
theorem exec_cfg {i : Instr} {s t : State} (h : exec i s = .next t) : t.cfg = s.cfg := by
  obtain ⟨u, r, heff, rfl⟩ := exec_next_effect h
  exact heff.cfg_eq

theorem runOps_of_wf {ops : List Instr} {s : State} (h : ∀ i ∈ ops, i.wf s.cfg = true) :
    ∃ u, runOps ops s = some u ∧ u.cfg = s.cfg := by
  induction ops generalizing s with
  | nil => exact ⟨s, rfl, rfl⟩
  | cons i ops ih =>
    obtain ⟨hi, hrest⟩ := List.forall_mem_cons.1 h
    obtain ⟨t, ht⟩ := exec_next_of_wf hi
    obtain ⟨u, hu, hcfg⟩ := ih (s := t) (by rwa [exec_cfg ht])
    exact ⟨u, (runOps_cons ht ops).trans hu, hcfg.trans (exec_cfg ht)⟩

/-! ### Time along a run -/

theorem time_notMem_mayWrite {i : Instr} (hr : i ≠ .reset) (ht : i ≠ .tick) : Element.time ∉ mayWrite i := by
  cases i <;> simp [mayWrite, deliveryWrites] at *

/-- A tick is one tick of time, and no other operation but `RESET` touches the time (R23, R186). -/
theorem exec_now {i : Instr} {s t : State} (h : exec i s = .next t) (hr : i ≠ .reset) :
    t.now = s.now + if i = .tick then 1 else 0 := by
  split
  · next ht =>
    subst ht
    cases h
    exact (advanceTime_keeps s).1
  · next ht => exact (operationsWriteOnlyTheirOwnElements i s t _ h (time_notMem_mayWrite hr ht)).symm

theorem runOps_now {ops : List Instr} {s u : State} (hr : .reset ∉ ops) (h : runOps ops s = some u) :
    u.now = s.now + ops.count .tick := by
  induction ops generalizing s with
  | nil => cases h; rfl
  | cons i ops ih =>
    obtain ⟨hi, hops⟩ := List.ne_and_not_mem_of_not_mem_cons hr
    obtain ⟨t, ht, hrest⟩ := runOps_cons_some h
    rw [ih hops hrest, exec_now ht hi.symm, List.count_cons]
    simp only [beq_iff_eq]
    ring

/-! ### A request that nothing ends before its deadline -/

/-- No arrival of the run reports an outcome of the kind. -/
def ArrivalsSilent (k : Nat) (ops : List Instr) (s : State) : Prop :=
  ∀ (n : Nat) (i : Instr) (v w : State), ops[n]? = some i → agentOf i = .inboundPath →
    runOps (ops.take n) s = some v → exec i v = .next w → outcomesOf w k = outcomesOf v k

theorem ArrivalsSilent.head {k : Nat} {i : Instr} {ops : List Instr} {s t : State}
    (h : ArrivalsSilent k (i :: ops) s) (ht : exec i s = .next t) (ha : agentOf i = .inboundPath) :
    outcomesOf t k = outcomesOf s k := h 0 i s t rfl ha rfl ht

theorem ArrivalsSilent.tail {k : Nat} {i : Instr} {ops : List Instr} {s t : State}
    (h : ArrivalsSilent k (i :: ops) s) (ht : exec i s = .next t) : ArrivalsSilent k ops t :=
  fun n j v w hj ha hv hw => h (n + 1) j v w hj ha ((runOps_cons ht _).trans hv) hw

/-- The timer leaves a request alone before its deadline (R166). -/
theorem exec_timer_early {i : Instr} {s t : State} {k : Nat} {issued deadline : Time} (h : exec i s = .next t)
    (ha : agentOf i = .timer) (hk : rcOf s k = .awaiting issued deadline) (hnow : t.now < deadline) :
    rcOf t k = rcOf s k := by
  cases i with
  | tick =>
    cases h
    have hearly : rcExpireEnabled { s with now := s.now + 1 } k = false := by
      rw [returning_now, (advanceTime_keeps s).1] at hnow
      rw [rcExpireEnabled_awaiting (s := { s with now := s.now + 1 }) hk]
      exact decide_eq_false (Nat.not_le.2 hnow)
    exact (rcOf_expireAll _ _ k).trans (if_neg fun hd => by simp [hearly] at hd)
  | rcExpire j =>
    have hsame : t.now = s.now := exec_now h (by simp)
    obtain ⟨u, r, heff, rfl⟩ := exec_next_effect h
    suffices rcOf u k = rcOf s k from this
    cases heff with
    | rcExpire hdue =>
      have hj : k ≠ j := by
        rintro rfl
        rw [rcExpireEnabled_awaiting hk, decide_eq_true_eq] at hdue
        exact absurd (hsame ▸ hnow) (Nat.not_lt.2 hdue)
      rw [rcOf_expireRequest, if_neg hj]
    | query | disabled => rfl
    | delivery hd => cases hd
  | _ => cases ha

/-- Before its deadline a request outlasts every operation but `RESET`, as long as no arrival reports its outcome. -/
theorem exec_keeps_awaiting {i : Instr} {s t : State} {k : Nat} {issued deadline : Time} (h : exec i s = .next t)
    (hr : i ≠ .reset) (hk : rcOf s k = .awaiting issued deadline) (hnow : t.now < deadline)
    (hsilent : agentOf i = .inboundPath → outcomesOf t k = outcomesOf s k) :
    rcOf t k = rcOf s k ∧ outcomesOf t k = outcomesOf s k := by
  have hne : rcOf s k ≠ .idle := by simp [hk]
  obtain ⟨hstep, -⟩ := atMostOneResolutionPerRequest
  obtain hkept | ⟨hidle, hone, hin | htimer⟩ := (hstep i s t k hr h).2 hne
  · exact hkept
  · have hnone := hsilent hin
    omega
  · exact absurd ((exec_timer_early h htimer hk hnow).symm.trans hidle) hne

theorem runOps_keeps_awaiting {ops : List Instr} {s u : State} {k : Nat} {issued deadline : Time}
    (h : runOps ops s = some u) (hr : .reset ∉ ops) (hk : rcOf s k = .awaiting issued deadline)
    (hnow : u.now < deadline) (hsilent : ArrivalsSilent k ops s) :
    rcOf u k = rcOf s k ∧ outcomesOf u k = outcomesOf s k := by
  induction ops generalizing s with
  | nil => cases h; exact ⟨rfl, rfl⟩
  | cons i ops ih =>
    obtain ⟨hi, hops⟩ := List.ne_and_not_mem_of_not_mem_cons hr
    obtain ⟨t, ht, hrest⟩ := runOps_cons_some h
    have hle : t.now ≤ u.now := runOps_now hops hrest ▸ Nat.le_add_right _ _
    obtain ⟨hrec, hout⟩ := exec_keeps_awaiting ht hi.symm hk (hle.trans_lt hnow) (hsilent.head ht)
    obtain ⟨hrec', hout'⟩ := ih hrest hops (hrec.trans hk) (hsilent.tail ht)
    exact ⟨hrec'.trans hrec, hout'.trans hout⟩

/-- Among the timeouts that a tick reports there is one of each kind that is due. -/
theorem filter_timeouts {due : List Nat} (hn : due.Nodup) {k : Nat} (hk : k ∈ due) :
    (due.map fun j => ({ kind := j, success := false, reason := .timeout, code := none } : OutcomeRecord)).filter
      (fun o => o.kind == k) = [{ kind := k, success := false, reason := .timeout, code := none }] := by
  have hone : due.filter (· == k) = [k] := by
    rw [List.filter_beq, List.count_eq_one_of_mem hn hk, List.replicate_one]
  rw [List.filter_map]
  exact congrArg _ hone

/-- The tick that reaches a request's deadline ends it with one timeout outcome (R166, R186). -/
theorem exec_tick_expires {s : State} {k : Nat} {issued deadline : Time} (hk : k < s.cfg.kinds.length)
    (h : rcOf s k = .awaiting issued deadline) (hdue : deadline ≤ s.now + 1) :
    ∃ v, exec .tick s = .next v ∧ rcOf v k = .idle ∧
      v.out.filter (fun o => o.kind == k) = s.out.filter (fun o => o.kind == k) ++
        [{ kind := k, success := false, reason := .timeout, code := none }] := by
  have henabled : rcExpireEnabled { s with now := s.now + 1 } k = true :=
    rcExpireEnabled_iff.2 ⟨issued, deadline, h, hdue⟩
  have hmem : k ∈ List.range s.cfg.kinds.length := List.mem_range.2 hk
  refine ⟨_, exec_tick s, (rcOf_expireAll _ _ k).trans (if_pos ⟨hmem, henabled⟩), ?_⟩
  obtain ⟨hout, -⟩ := traces_expireAll (List.nodup_range (n := s.cfg.kinds.length)) { s with now := s.now + 1 }
  rw [returning_out, advanceTime, hout, List.filter_append,
    filter_timeouts (List.nodup_range.filter _) (List.mem_filter.2 ⟨hmem, henabled⟩)]

end Sys2Proof.Proofs

/-- Settles O49: by whether the three conditions of an accepted request hold. -/
theorem rcIssueArmsAndQueuesOrIsRejected : Obligations.RcIssueArmsAndQueuesOrIsRejected := by
  intro s k kp payload hk hlen
  refine ⟨rfl, fun hwhy => exec_rcIssue_rejected hk (by rwa [queueFull_iff]) payload, fun hidle hc hroom => ?_⟩
  have hlt : k < s.rc.length := hlen ▸ (List.getElem?_eq_some_iff.1 hk).1
  refine ⟨_, exec_rcIssue_accepted hk hidle hc (queueFull_eq_false_iff.2 hroom) payload, ?_, fun j hj => ?_, ?_⟩
  · exact (getD_set s.rc k k _).trans (if_pos ⟨rfl, hlt⟩)
  · exact (getD_set s.rc k j _).trans (if_neg fun h => hj h.1)
  · rw [encodeFrame_eq]
    by_cases hp : payload.length = payloadLen
    · simp [hp]
    · simp [hp, raiseDiag, countDiag]

/-- Settles O53: below the deadline the request outlasts each operation (`exec_keeps_awaiting`), and the time of a run
is the number of its ticks, so the tick that makes up `TIMEOUT_TICKS` is the one that reaches the deadline. -/
theorem unansweredRequestTimesOut : Obligations.UnansweredRequestTimesOut := by
  intro s k kp payload hk hlen _ hidle hc hroom
  obtain ⟨-, -, haccepted⟩ := rcIssueArmsAndQueuesOrIsRejected s k kp payload hk hlen
  obtain ⟨t, ht, hrec, -⟩ := haccepted hidle hc hroom
  have hcfg : t.cfg = s.cfg := exec_cfg ht
  have hnow : t.now = s.now := exec_now ht (by simp)
  have hout : outcomesOf t k = outcomesOf s k := exec_keeps_outcomes ht (by simp) (by simp [MayEnd, agentOf]) k
  refine ⟨t, ht, hrec, hout, fun ops hops hsilent => ?_⟩
  obtain ⟨u, hu, hucfg⟩ := runOps_of_wf (s := t) fun i hi => hcfg ▸ (hops i hi).1
  have hreset : .reset ∉ ops := fun hmem => (hops _ hmem).2 rfl
  have htime : u.now = s.now + ops.count .tick := hnow ▸ runOps_now hreset hu
  have hstands : ops.count .tick < kp.timeoutTicks →
      rcOf u k = .awaiting s.now (s.now + kp.timeoutTicks) ∧ outcomesOf u k = outcomesOf s k := by
    intro hcount
    have hearly : u.now < s.now + kp.timeoutTicks := htime ▸ Nat.add_lt_add_left hcount s.now
    obtain ⟨hrec', hout'⟩ := runOps_keeps_awaiting hu hreset hrec hearly hsilent
    exact ⟨hrec'.trans hrec, hout'.trans hout⟩
  refine ⟨u, hu, hstands, fun hcount => ?_⟩
  obtain ⟨hawaiting, -⟩ := hstands (by omega)
  have hkind : k < u.cfg.kinds.length := by
    rw [hucfg, hcfg]
    exact (List.getElem?_eq_some_iff.1 hk).1
  exact exec_tick_expires hkind hawaiting (by rw [htime, ← hcount, Nat.add_assoc])

/-- Settles O50: the table of status codes, test by test. -/
theorem rcResolveReportsTheStatus : Obligations.RcResolveReportsTheStatus := by
  intro s k kp status issued deadline hk hrc
  refine ⟨rfl, _, exec_rcResolve_awaiting hk (by simp [hrc]) status, rcOf_resolved _ _ _ _ s, fun j hj => ?_, ?_⟩
  · exact (rcOf_resolveRequest k j (statusReason kp status) (some status) s).trans (if_neg hj)
  · simp only [resolveByStatus, statusReason]
    split
    · rfl
    · split
      · rfl
      · split
        · rfl
        · rfl

/-- Settles O51: at the deadline the expiry is enabled. -/
theorem rcExpireReportsTheTimeout : Obligations.RcExpireReportsTheTimeout := by
  intro s k issued deadline hk hrc hdue
  have henabled : rcExpireEnabled s k = true := rcExpireEnabled_iff.2 ⟨issued, deadline, hrc, hdue⟩
  refine ⟨rfl, _, exec_rcExpire_due hk henabled, ?_, fun j hj => ?_, rfl⟩
  · exact (rcOf_expireRequest k k s).trans (if_pos rfl)
  · exact (rcOf_expireRequest k j s).trans (if_neg hj)

end

section
/-! The statements of 44_transport_and_time.md: what a tick ends (R186), and a delivery of bytes as a push and a drain
(R180, R181), which leaves at most 13 bytes (R190) and does not depend on where a delivery is cut (R183). -/

open Sys2Proof Sys2Proof.Machine Sys2Proof.Laws

namespace Sys2Proof.Proofs

/-! ### `TICK` -/

/-- An outstanding request belongs to a kind (R21). -/
theorem lt_length_of_ne_idle {s : State} {k : Nat} (hlen : s.rc.length = s.cfg.kinds.length) (h : rcOf s k ≠ .idle) :
    k < s.cfg.kinds.length := by
  by_contra hk
  exact h (List.getD_eq_default _ _ (by omega))

/-- The kinds that a tick ends are those whose deadline has come at the advanced time (R166, R186). -/
theorem mem_due_iff {s : State} (hlen : s.rc.length = s.cfg.kinds.length) (k : Nat) :
    k ∈ (List.range s.cfg.kinds.length).filter (rcExpireEnabled { s with now := s.now + 1 }) ↔
      ∃ issueTs deadline, rcOf s k = .awaiting issueTs deadline ∧ s.now + 1 ≥ deadline := by
  rw [List.mem_filter, List.mem_range, rcExpireEnabled_iff]
  refine and_iff_right_of_imp fun ⟨issueTs, deadline, hawaiting, _⟩ => lt_length_of_ne_idle hlen ?_
  have hrc : rcOf s k = .awaiting issueTs deadline := hawaiting
  simp [hrc]

/-- R186: an expiry writes its kind's record and the traces `OUT` and `DIAG`, nothing else. -/
theorem expireIfDue_eq (s : State) (k : Nat) :
    expireIfDue s k =
      { s with
        rc := (expireIfDue s k).rc
        out := (expireIfDue s k).out
        diagTrace := (expireIfDue s k).diagTrace } := by
  unfold expireIfDue
  split
  · rfl
  · rfl

/-- R186: so do the tests of a list of kinds. -/
theorem expireAll_eq (ks : List Nat) (s : State) :
    ks.foldl expireIfDue s =
      { s with
        rc := (ks.foldl expireIfDue s).rc
        out := (ks.foldl expireIfDue s).out
        diagTrace := (ks.foldl expireIfDue s).diagTrace } := by
  induction ks generalizing s with
  | nil => rfl
  | cons k ks ih =>
    rw [List.foldl_cons]
    generalize hu : expireIfDue s k = u
    have hs := expireIfDue_eq s k
    rw [hu] at hs
    rw [ih u, hs]

/-! ### The last result has no part in a delivery -/

/-- R180: `TP_RX` is the delivery, without a result. -/
theorem exec_tpRx (bytes : List Byte) (s : State) :
    exec (.tpRx bytes) s = .next (returning .none (receiveBytes bytes s)) := rfl

theorem dispatchFrame_returning (c : Byte) (p : List Byte) (s : State) (y : Result) :
    dispatchFrame c p (returning y s) = returning y (dispatchFrame c p s) := dispatchFrame_ret c p s y

theorem drainFrames_returning (turns : Nat) (s : State) (y : Result) :
    drainFrames turns (returning y s) = returning y (drainFrames turns s) := by
  induction turns generalizing s with
  | zero => rfl
  | succ turns ih =>
    have hextract : extractFrame (returning y s) = (returning y (extractFrame s).1, (extractFrame s).2) := rfl
    simp only [drainFrames, hextract]
    rcases extractFrame s with ⟨u, _ | ⟨command, payload⟩⟩
    · rfl
    · simp only [dispatchFrame_returning, ih]

/-- What `TP_RX` drains: the state with the bytes that fit pushed, and a record of the others (R180, R181). -/
def deliveredState (bytes : List Byte) (s : State) : State :=
  let r := ringPush s.cfg.cw s.rb bytes
  let pushed := { s with rb := r.1 }
  if r.2 < bytes.length then raiseDiag (.rxOverflow (bytes.length - r.2)) pushed else pushed

/-- R181: bytes that find no room are recorded. -/
theorem deliveredState_overflow {bytes : List Byte} {s : State}
    (h : (ringPush s.cfg.cw s.rb bytes).2 < bytes.length) :
    deliveredState bytes s = raiseDiag (.rxOverflow (bytes.length - (ringPush s.cfg.cw s.rb bytes).2))
      { s with rb := (ringPush s.cfg.cw s.rb bytes).1 } := if_pos h

/-- R181: where every byte is stored there is no record. -/
theorem deliveredState_whole {bytes : List Byte} {s : State}
    (h : ¬(ringPush s.cfg.cw s.rb bytes).2 < bytes.length) :
    deliveredState bytes s = { s with rb := (ringPush s.cfg.cw s.rb bytes).1 } := if_neg h

theorem deliveredState_cfg_rb (bytes : List Byte) (s : State) :
    (deliveredState bytes s).cfg = s.cfg ∧ (deliveredState bytes s).rb = (ringPush s.cfg.cw s.rb bytes).1 := by
  by_cases h : (ringPush s.cfg.cw s.rb bytes).2 < bytes.length
  · rw [deliveredState_overflow h]
    exact ⟨rfl, rfl⟩
  · rw [deliveredState_whole h]
    exact ⟨rfl, rfl⟩

theorem receiveBytes_eq_drainFrames (bytes : List Byte) (s : State) :
    receiveBytes bytes s =
      drainFrames (ringLength s.cfg.cw (ringPush s.cfg.cw s.rb bytes).1 + 1) (deliveredState bytes s) := rfl

theorem deliveredState_returning (bytes : List Byte) (s : State) (y : Result) :
    deliveredState bytes (returning y s) = returning y (deliveredState bytes s) := by
  by_cases h : (ringPush s.cfg.cw s.rb bytes).2 < bytes.length
  · rw [deliveredState_overflow h]
    exact deliveredState_overflow (s := returning y s) h
  · rw [deliveredState_whole h]
    exact deliveredState_whole (s := returning y s) h

theorem receiveBytes_returning (bytes : List Byte) (s : State) (y : Result) :
    receiveBytes bytes (returning y s) = returning y (receiveBytes bytes s) := by
  simp only [receiveBytes_eq_drainFrames, deliveredState_returning, drainFrames_returning, returning_cfg, returning_rb]

/-! ### The drain as operations (R180) -/

/-- A frame that is extracted takes at least its 14 bytes from the content (R128). -/
theorem extractFrame_content_length {s t : State} {command : Byte} {payload : List Byte}
    (ha : s.rb.allocated = true) (hr : RingInv s.cfg.cw s.rb) (h : extractFrame s = (t, some (command, payload))) :
    (content t.cfg.cw t.rb).length + 14 ≤ (content s.cfg.cw s.rb).length := by
  obtain ⟨-, noise, hcontent⟩ := extractFrame_some ha hr h
  simp only [hcontent, List.length_append, frameOf_length, frameLen]
  omega

/-- With more turns than the content can hold frames, the drain ends where the operations end: at `NoFrame` (R180). -/
theorem drainsTo_drainFrames {turns : Nat} {s : State} (ha : s.rb.allocated = true) (hr : RingInv s.cfg.cw s.rb)
    (hturns : (content s.cfg.cw s.rb).length < 14 * turns) :
    DrainsTo s (returning .noFrame (drainFrames turns s)) := by
  induction turns generalizing s with
  | zero => omega
  | succ turns ih =>
    have hextract := exec_fcExtract_eq s
    have hinv : RingOk s.cfg.cw (extractFrame s).1.rb := extractFrame_ringOk fun _ => hr
    obtain ⟨hcfg, hall, -⟩ := extractFrame_keeps s
    rcases hx : extractFrame s with ⟨t, _ | ⟨command, payload⟩⟩
    · rw [hx] at hextract
      rw [drainFrames, hx]
      exact .noFrame hextract rfl
    · rw [hx] at hextract hinv hcfg hall
      have hless := extractFrame_content_length ha hr hx
      obtain ⟨hpayload, -⟩ := extractFrame_some ha hr hx
      obtain ⟨hdcfg, hdrb, -⟩ := dispatchFrame_keeps command payload t
      have hrest := ih (s := returning .none (dispatchFrame command payload t))
        (by rw [returning_rb, hdrb]; exact hall.trans ha)
        (by rw [returning_rb, returning_cfg, hdrb, hdcfg, hcfg]; exact hinv (hall.trans ha))
        (by rw [returning_rb, returning_cfg, hdrb, hdcfg]; omega)
      rw [drainFrames_returning] at hrest
      rw [drainFrames, hx]
      refine .frame hextract rfl ?_ hrest
      rw [exec_fcDispatch hpayload, dispatchFrame_returning]
      rfl

/-- A delivery takes turns enough: one for each byte of the content that the push leaves, and one more (R180). -/
theorem drainsTo_receiveBytes {s : State} (bytes : List Byte) (ha : s.rb.allocated = true)
    (hr : RingInv s.cfg.cw s.rb) : DrainsTo (deliveredState bytes s) (returning .noFrame (receiveBytes bytes s)) := by
  obtain ⟨hcfg, hrb⟩ := deliveredState_cfg_rb bytes s
  obtain ⟨-, hall, -, -, -, -, -, hinv, -⟩ := ringPush_spec bytes ha hr
  rw [receiveBytes_eq_drainFrames]
  refine drainsTo_drainFrames ?_ ?_ ?_
  · rw [hrb]
    exact hall
  · rw [hcfg, hrb]
    exact hinv
  · rw [hcfg, hrb, ringLength_allocated hall]
    omega

/-! ### The rest that a delivery leaves (R190) -/

/-- A drain stops only where fewer than 14 bytes are left (R123, R190). -/
theorem receiveBytes_rest (bytes : List Byte) {s : State} (ha : s.rb.allocated = true) (hr : RingInv s.cfg.cw s.rb) :
    (content s.cfg.cw (receiveBytes bytes s).rb).length ≤ 13 := by
  obtain ⟨hreceive, -, hcontent, -⟩ := receiveBytes_eq bytes s ha hr
  rw [hreceive]
  dsimp only
  rw [hcontent, List.length_drop]
  exact (drain_rest _ (by omega)).1

/-! ### Only an overflow counts dropped bytes (R181, R201) -/

theorem respond_rxDropped (kp : KindParams) (k : Nat) (c st : Byte) (s : State) :
    (respond kp k c st s).diag.rxDropped = s.diag.rxDropped := by
  obtain ⟨_, _, -, h⟩ | ⟨-, h⟩ := respond_cases kp k c st s
  · rw [h, resolveRequest_diag]
  · rw [h, raiseDiag_diag, countDiag]

theorem correlate_rxDropped (c st : Byte) (kps : List KindParams) (k : Nat) (s : State) :
    (correlate c st kps k s).1.diag.rxDropped = s.diag.rxDropped := by
  induction kps generalizing k s with
  | nil => rfl
  | cons kp kps ih =>
    rw [correlate]
    split
    · exact (ih _ _).trans (respond_rxDropped kp k c st s)
    · exact ih _ _

theorem dispatchFrame_rxDropped (c : Byte) (p : List Byte) (s : State) :
    (dispatchFrame c p s).diag.rxDropped = s.diag.rxDropped := by
  have hcorrelate := correlate_rxDropped c (payloadByte p 0) s.cfg.kinds 0 s
  simp only [dispatchFrame]
  split
  · exact hcorrelate
  · split
    · exact hcorrelate
    · exact hcorrelate

theorem extractFrame_rxDropped (s : State) : (extractFrame s).1.diag.rxDropped = s.diag.rxDropped := by
  obtain ⟨-, -, -, -, hdropped, -⟩ :=
    extractPasses_frame_condition s.cfg (ringLength s.cfg.cw s.rb + 1) s.rb s.diag
  exact hdropped

theorem drainFrames_rxDropped (turns : Nat) (s : State) :
    (drainFrames turns s).diag.rxDropped = s.diag.rxDropped := by
  induction turns generalizing s with
  | zero => rfl
  | succ turns ih =>
    have hextract := extractFrame_rxDropped s
    rw [drainFrames]
    rcases hx : extractFrame s with ⟨t, _ | ⟨command, payload⟩⟩
    · rwa [hx] at hextract
    · rw [hx] at hextract
      exact (ih _).trans ((dispatchFrame_rxDropped command payload t).trans hextract)

/-! ### A delivery that fits -/

theorem deliveredState_fits {bytes : List Byte} {s : State} (ha : s.rb.allocated = true) (hr : RingInv s.cfg.cw s.rb)
    (hfits : (content s.cfg.cw s.rb).length + bytes.length ≤ s.rb.cap) :
    deliveredState bytes s = { s with rb := (ringPush s.cfg.cw s.rb bytes).1 } := by
  obtain ⟨hcount, -⟩ := ringPush_fits ha hr hfits
  exact deliveredState_whole (by omega)

/-- R181: a delivery that fits drops nothing. -/
theorem receiveBytes_rxDropped {bytes : List Byte} {s : State} (ha : s.rb.allocated = true)
    (hr : RingInv s.cfg.cw s.rb) (hfits : (content s.cfg.cw s.rb).length + bytes.length ≤ s.rb.cap) :
    (receiveBytes bytes s).diag.rxDropped = s.diag.rxDropped := by
  rw [receiveBytes_eq_drainFrames, drainFrames_rxDropped, deliveredState_fits ha hr hfits]

/-- Where the read cursor stands matters to a push only by the free space it leaves. -/
theorem ringPush_readCursor {cw x : Nat} {rb : Ring} {bytes : List Byte} (ha : rb.allocated = true)
    (h : bytes.length ≤ ringFree cw rb) (h' : bytes.length ≤ ringFree cw { rb with rd := x }) :
    (ringPush cw { rb with rd := x } bytes).1 = { (ringPush cw rb bytes).1 with rd := x } := by
  rw [ringPush_allocated bytes ha, ringPush_allocated (rb := { rb with rd := x }) bytes ha, Nat.min_eq_left h,
    Nat.min_eq_left h']

/-- The ring that a delivery which fits leaves when its drain has dropped `n` bytes (R102, R103). -/
def ringAfter (cw : Nat) (rb : Ring) (bytes : List Byte) (n : Nat) : Ring :=
  { (ringPush cw rb bytes).1 with rd := addW cw rb.rd n }

/-- The drain of a whole byte sequence, with as many turns as it has bytes and one more. -/
def drainAll (str : List Byte) (s : State) : Nat × State := drain (str.length + 1) str s

/-- A delivery that fits is the drain of the content with the new bytes after it (R180, R183). -/
theorem receiveBytes_fits {bytes : List Byte} {s u : State} {n : Nat} (ha : s.rb.allocated = true)
    (hr : RingInv s.cfg.cw s.rb) (hfits : (content s.cfg.cw s.rb).length + bytes.length ≤ s.rb.cap)
    (hdrain : drainAll (content s.cfg.cw s.rb ++ bytes) s = (n, u)) :
    receiveBytes bytes s = { u with rb := ringAfter s.cfg.cw s.rb bytes n } ∧
      content s.cfg.cw (ringAfter s.cfg.cw s.rb bytes n) = (content s.cfg.cw s.rb ++ bytes).drop n ∧
      RingInv s.cfg.cw (ringAfter s.cfg.cw s.rb bytes n) := by
  obtain ⟨hcount, -, hcontent⟩ := ringPush_fits ha hr hfits
  obtain ⟨hreceive, -, hleft, hinv⟩ := receiveBytes_eq bytes s ha hr
  rw [drainAll] at hdrain
  simp only [hcount, lt_irrefl, if_false, hcontent, hdrain] at hreceive hleft hinv
  exact ⟨hreceive, hleft, hinv⟩

/-- R183: what the drain of the first part leaves, with the second part after it, drains to what the whole drains to. -/
theorem drainAll_append {a b : List Byte} {s u v : State} {n m : Nat} (ha : drainAll a s = (n, u))
    (hb : drainAll (a.drop n ++ b) u = (m, v)) : drainAll (a ++ b) s = (n + m, v) := by
  have happend := drain_append (a := a) (n := a.length + 1) (m := (a ++ b).length + 1) b s (by omega) (by omega)
  have hturns := drain_turns (n := (a ++ b).length + 1) (m := (a.drop n ++ b).length + 1) (str := a.drop n ++ b) u
    (by simp only [List.length_append, List.length_drop]; omega) (by omega)
  rw [drainAll] at ha hb ⊢
  rw [happend, ha]
  simp only [hturns, hb]

theorem drainAll_ring (str : List Byte) (s : State) (x : Ring) :
    drainAll str { s with rb := x } = ((drainAll str s).1, { (drainAll str s).2 with rb := x }) :=
  drain_ring _ str s x

/-- R109: the bytes dropped between two pushes that fit together leave the storage as one push would. -/
theorem ringAfter_ringAfter {cw n : Nat} {rb : Ring} {a b : List Byte} (m : Nat) (ha : rb.allocated = true)
    (hr : RingInv cw rb) (hfits : (content cw rb).length + a.length + b.length ≤ rb.cap)
    (hleft : content cw (ringAfter cw rb a n) = (content cw rb ++ a).drop n) :
    ringAfter cw (ringAfter cw rb a n) b m = ringAfter cw rb (a ++ b) (n + m) := by
  obtain ⟨hall, hcap, -⟩ := ringPush_keeps cw rb a
  obtain ⟨-, -, hcontent⟩ := ringPush_fits (bytes := a) ha hr (by omega)
  have hfree : b.length ≤ ringFree cw (ringPush cw rb a).1 := by
    rw [ringFree, ← content_length, hcontent, hcap, List.length_append]
    omega
  have hfree' : b.length ≤ ringFree cw (ringAfter cw rb a n) := by
    have hcap' : (ringAfter cw rb a n).cap = rb.cap := hcap
    rw [ringFree, ← content_length, hleft, hcap', List.length_drop, List.length_append]
    omega
  have hpush := ringPush_readCursor (hall.trans ha) hfree hfree'
  simp only [ringAfter, hpush, ringPush_append a b ha hr, addW_addW]

/-- R183: a delivery that fits may come in two parts. -/
theorem receiveBytes_append {a b : List Byte} {s : State} (ha : s.rb.allocated = true) (hr : RingInv s.cfg.cw s.rb)
    (hfits : (content s.cfg.cw s.rb).length + a.length + b.length ≤ s.rb.cap) :
    receiveBytes b (receiveBytes a s) = receiveBytes (a ++ b) s := by
  rcases hfirst : drainAll (content s.cfg.cw s.rb ++ a) s with ⟨n, u⟩
  rcases hsecond : drainAll ((content s.cfg.cw s.rb ++ a).drop n ++ b) u with ⟨m, v⟩
  have hwhole := drainAll_append hfirst hsecond
  rw [List.append_assoc] at hwhole
  obtain ⟨hpart, hleft, hinv⟩ := receiveBytes_fits (bytes := a) ha hr (by omega) hfirst
  obtain ⟨hboth, -⟩ := receiveBytes_fits (bytes := a ++ b) ha hr (by rw [List.length_append]; omega) hwhole
  obtain ⟨hcfg, hall, hcap, -⟩ := receiveBytes_keeps a s
  have hrb : (receiveBytes a s).rb = ringAfter s.cfg.cw s.rb a n := by rw [hpart]
  have hrest := drainAll_ring ((content s.cfg.cw s.rb ++ a).drop n ++ b) u (ringAfter s.cfg.cw s.rb a n)
  rw [hsecond, ← hpart] at hrest
  obtain ⟨hnext, -⟩ := receiveBytes_fits (bytes := b) (s := receiveBytes a s) (n := m)
    (u := { v with rb := ringAfter s.cfg.cw s.rb a n }) (hall.trans ha) (by rw [hcfg, hrb]; exact hinv)
    (by rw [hcap, hcfg, hrb, hleft, List.length_drop, List.length_append]; omega)
    (by rw [hcfg, hrb, hleft]; exact hrest)
  rw [hnext, hboth, hcfg, hrb, ringAfter_ringAfter m ha hr hfits hleft]

end Sys2Proof.Proofs

open Sys2Proof.Proofs

/-- Settles O52: the tests of a tick are made at the advanced time, kind by kind, and each sees only its own record, so
those that find a deadline reached are the kinds of `mem_due_iff`, in ascending order. -/
theorem tickAdvancesTimeAndExpiresRequests : Obligations.TickAdvancesTimeAndExpiresRequests := by
  intro s hlen due
  obtain ⟨hout, hdiag⟩ := traces_expireAll (List.nodup_range (n := s.cfg.kinds.length)) { s with now := s.now + 1 }
  refine ⟨rfl, mem_due_iff hlen, _, exec_tick s, fun k => ?_, ?_⟩
  · simp only [due, List.mem_filter]
    exact rcOf_expireAll (List.range s.cfg.kinds.length) { s with now := s.now + 1 } k
  · have htick := expireAll_eq (List.range s.cfg.kinds.length) { s with now := s.now + 1 }
    rw [hout, hdiag] at htick
    exact congrArg (returning .none) htick

/-- Settles O55: `TP_RX` drains the state that the push and the record leave (`deliveredState`), and its drain ends
where the operations end (`drainsTo_drainFrames`). -/
theorem tpRxPushesThenDrains : Obligations.TpRxPushesThenDrains := by
  intro s bytes ha hr
  refine ⟨rfl, (ringPush s.cfg.cw s.rb bytes).2, _, _, exec_rbPush rfl, rfl,
    drainsTo_receiveBytes (s := returning (.count (ringPush s.cfg.cw s.rb bytes).2) s) bytes ha hr, ?_⟩
  rw [exec_tpRx, receiveBytes_returning]
  generalize receiveBytes bytes s = t
  rfl

/-- Settles O56: the drain leaves at most 13 bytes (`drain_rest`), and no byte of a push that fits is dropped. -/
theorem tpRxLeavesAtMostThirteenBytes : Obligations.TpRxLeavesAtMostThirteenBytes := by
  intro s bytes ha hr
  have hrest := receiveBytes_rest bytes ha hr
  obtain ⟨hcfg, hall, -⟩ := receiveBytes_keeps bytes s
  have hinv := receiveBytes_ringOk (fun _ => hr) bytes (hall.trans ha)
  rw [← hcfg] at hrest hinv
  refine ⟨_, exec_tpRx bytes s, hrest, fun more hmore => ⟨_, exec_tpRx more _, ?_⟩⟩
  have hbound := content_length_le_cap hinv
  rw [returning_rb] at hmore
  exact receiveBytes_rxDropped (hall.trans ha) hinv (by simp only [returning_cfg, returning_rb]; omega)

/-- Settles O57: the second part finds the state that the drain of the first part left, whose result does not matter
(`receiveBytes_returning`), and drains it to what the whole drains to (`receiveBytes_append`). -/
theorem streamSplittingIsUnobservable : Obligations.StreamSplittingIsUnobservable := by
  intro s a b ha hr hfits
  refine ⟨returning .none (receiveBytes (a ++ b) s), ?_, exec_tpRx _ s⟩
  rw [runOps_cons (exec_tpRx a s), runOps_cons (exec_tpRx b _), receiveBytes_returning, receiveBytes_append ha hr hfits]
  rfl

end

section
/-! The statements of 60_exceptions.md, both from R207: an operation completes in every state, and it leaves no state
that violates an invariant. The invariant of the block is taken part by part, over the effects of an operation: the
ring's size, the queue with `TX`, the requests, the reports on `OUT` and `DIAG`; `RESET` is the construction once
more. -/

open Sys2Proof Sys2Proof.Machine Sys2Proof.Laws

namespace Sys2Proof.Proofs

/-! ### The size of the ring (R4 (b), R12) -/

/-- R4 (b), R12: the ring is allocated within `RB_MAXCAP`. -/
def RingBounded (cfg : Config) (rb : Ring) : Prop := rb.allocated = true ∧ rb.cap ≤ cfg.rbMaxCap

theorem ringAlloc_bounded {cfg : Config} {rb : Ring} (h : RingBounded cfg rb) (c : Nat) :
    RingBounded cfg (ringAlloc cfg.rbMaxCap rb c).1 := by
  obtain ⟨-, hc, e⟩ | ⟨-, e⟩ := ringAlloc_cases cfg.rbMaxCap rb c
  · rw [e]
    exact ⟨rfl, hc⟩
  · rwa [e]

/-- Only `RB_ALLOC` and `RESET` size the ring (R101, R230). -/
theorem Effect.ringBounded {i : Instr} {s u : State} (h : Effect s i u) (hr : i ≠ .reset)
    (hb : RingBounded s.cfg s.rb) : RingBounded s.cfg u.rb := by
  have hkept : Element.ringAllocation ∉ mayWrite i → RingBounded s.cfg u.rb := fun hi => by
    obtain ⟨hall, hcap⟩ := h.writesOnly _ hi
    rwa [RingBounded, ← hall, ← hcap]
  cases h with
  | rbAlloc c => exact ringAlloc_bounded hb c
  | reset => exact absurd rfl hr
  | query | disabled => exact hb
  | delivery hd => exact hkept (by simp [mayWrite_of_isDelivery hd, deliveryWrites])
  | _ => exact hkept (by simp [mayWrite])

/-! ### The frames queued and sent (R15, R152, R189) -/

theorem queueInv_congr {s u : State} (h : QueueInv s) (cfg : u.cfg = s.cfg) (queue : u.cqItems = s.cqItems) :
    QueueInv u := by
  rwa [QueueInv, cfg, queue]

/-- A frame joins a queue that has not reached `QDEPTH` (R140, R152). -/
theorem queueInv_append {s u : State} {f : List Byte} (h : QueueInv s) (hroom : queueFull s = false)
    (hf : f.length = frameLen) (cfg : u.cfg = s.cfg) (queue : u.cqItems = s.cqItems ++ [f]) : QueueInv u := by
  obtain ⟨hframes, -⟩ := h
  rw [QueueInv, cfg, queue]
  refine ⟨by simpa [or_imp, forall_and, hf] using hframes, ?_⟩
  cases hd : s.cfg.qDepth with
  | none => exact le_rfl
  | some d =>
    have hlt := queueFull_eq_false_iff.1 hroom d hd
    simpa using hlt

/-- The oldest frame leaves the queue (R143). -/
theorem queueInv_tail {s u : State} {f : List Byte} (h : QueueInv s) (cfg : u.cfg = s.cfg)
    (queue : s.cqItems = f :: u.cqItems) : QueueInv u := by
  obtain ⟨hframes, hdepth⟩ := h
  rw [queue] at hframes hdepth
  rw [QueueInv, cfg]
  refine ⟨fun g hg => hframes g (List.mem_cons_of_mem f hg), ?_⟩
  cases hd : s.cfg.qDepth with
  | none => exact le_rfl
  | some d =>
    rw [hd, List.length_cons] at hdepth
    exact (Nat.le_succ _).trans hdepth

theorem enqueueFrame_queueInv {s : State} (h : QueueInv s) {f : List Byte} (hf : f.length = frameLen) :
    QueueInv (enqueueFrame f s).1 := by
  obtain ⟨hroom, e⟩ | ⟨-, e⟩ := enqueueFrame_cases f s
  · rw [e]
    exact queueInv_append h hroom hf rfl rfl
  · rwa [e]

theorem issueRequest_queueInv {s : State} (h : QueueInv s) (kp : KindParams) (k : Nat) (p : List Byte) :
    QueueInv (issueRequest kp k p s).1 := by
  obtain ⟨-, e⟩ | ⟨-, -, hroom, e⟩ := issueRequest_cases kp k p s
  · rwa [e]
  · rw [e]
    exact queueInv_append h hroom (frameOf_length _ _ p) (encodeFrame_keeps kp.reqCmd p s).1 rfl

theorem submitCommand_queueInv {s : State} (h : QueueInv s) (c : Byte) (p : List Byte) :
    QueueInv (submitCommand c p s).1 := by
  obtain ⟨k, kp, -, -, e⟩ | ⟨-, -, e⟩ | ⟨-, hroom, e⟩ := submitCommand_cases c p s
  · rw [e]
    exact issueRequest_queueInv h kp k p
  · rwa [e]
  · rw [e]
    exact queueInv_append h hroom (frameOf_length _ _ p) (encodeFrame_keeps c p s).1 rfl

theorem serveWorker_queueInv {s : State} (h : QueueInv s) (w : Nat) (he : wkServeEnabled s = true) :
    QueueInv (serveWorker w s) := by
  have hcfg : (serveWorker w s).cfg = s.cfg := (Effect.wkServe w he).cfg_eq
  obtain ⟨-, ⟨-, e⟩ | ⟨-, -, f, rest, hq, e⟩⟩ := serveWorker_cases w he
  · rw [e]
    exact h
  · exact queueInv_tail h hcfg (hq.trans (by rw [e]))

/-- `CQ_ENQUEUE` takes whole frames only (R88, log 19). -/
theorem length_of_exec_cqEnqueue {s t : State} {f : List Byte} (h : exec (.cqEnqueue f) s = .next t) :
    f.length = frameLen := by
  by_contra hf
  simp only [exec, execCqEnqueue, if_neg hf] at h
  cases h

/-- What enters the queue is a whole frame and finds room; what leaves it is the oldest (R140, R141, R143, R161). -/
theorem Effect.queueInv {i : Instr} {s u : State} (h : Effect s i u) (hr : i ≠ .reset)
    (hf : ∀ f, i = .cqEnqueue f → f.length = frameLen) (hq : QueueInv s) : QueueInv u := by
  have hw := h.writesOnly
  have hcfg := h.cfg_eq
  cases h with
  | cqEnqueue f => exact enqueueFrame_queueInv hq (hf f rfl)
  | cmdSubmit c p => exact submitCommand_queueInv hq c p
  | rcIssue p hk => exact issueRequest_queueInv hq _ _ p
  | wkServe w he => exact serveWorker_queueInv hq w he
  | query | disabled => exact hq
  | reset => exact absurd rfl hr
  | delivery hd =>
    rw [mayWrite_of_isDelivery hd] at hw
    exact queueInv_congr hq hcfg (hw .queue (by simp [deliveryWrites])).symm
  | _ => exact queueInv_congr hq hcfg (hw .queue (by simp [mayWrite])).symm

/-- What `TX` gets is the oldest frame of the queue (R143), so a whole frame (R189). -/
theorem FrameFlow.txInv {s u : State} (h : FrameFlow s u) (hq : QueueInv s) (ht : TxInv s) : TxInv u := by
  cases h with
  | apart state wakeAt tx => rwa [TxInv, tx]
  | exit stop before after tx => rwa [TxInv, tx]
  | sent connected before after tx queue =>
    obtain ⟨hframes, -⟩ := hq
    rw [queue] at hframes
    rw [TxInv, tx]
    simpa [or_imp, forall_and, hframes _ List.mem_cons_self] using ht
  | woke before due after tx => rwa [TxInv, tx]

/-! ### The requests (R22, R166) -/

/-- A kind's record, read: an outstanding request has its kind's deadline, which is still to come (R22, R166). -/
theorem rcEntryOk_iff {s : State} {k : Nat} :
    rcEntryOk s k = true ↔ ∀ issueTs deadline, rcOf s k = .awaiting issueTs deadline →
      ∃ kp, s.cfg.kinds[k]? = some kp ∧ deadline = issueTs + kp.timeoutTicks ∧ issueTs ≤ s.now ∧ s.now < deadline := by
  unfold rcEntryOk
  cases hrc : rcOf s k with
  | idle => simp
  | awaiting issueTs deadline => cases hk : s.cfg.kinds[k]? <;> simp [and_assoc]

/-- A record that is as it was, or has been cleared, is right. -/
theorem rcEntryOk_of_record {s u : State} {k : Nat} (h : rcEntryOk s k = true) (cfg : u.cfg = s.cfg)
    (now : u.now = s.now) (record : rcOf u k = rcOf s k ∨ rcOf u k = .idle) : rcEntryOk u k = true := by
  rw [rcEntryOk_iff, cfg, now]
  obtain hkept | hidle := record
  · rw [hkept]
    exact rcEntryOk_iff.1 h
  · simp [hidle]

/-- Where time stands still and records are at most cleared, every request stays right. -/
theorem correlatorInv_of_records {s u : State} (h : CorrelatorInv s) (cfg : u.cfg = s.cfg) (now : u.now = s.now)
    (length : u.rc.length = s.rc.length) (records : ∀ k, rcOf u k = rcOf s k ∨ rcOf u k = .idle) : CorrelatorInv u := by
  obtain ⟨hlen, hentries⟩ := h
  rw [CorrelatorInv, cfg, length]
  exact ⟨hlen, fun k hk => rcEntryOk_of_record (hentries k hk) cfg now (records k)⟩

theorem AtMostEnds.record_or_idle {k : Nat} {s u : State} (h : AtMostEnds k s u) :
    rcOf u k = rcOf s k ∨ rcOf u k = .idle := by
  cases h with
  | kept record => exact .inl record
  | ended before after => exact .inr after

/-- The record that an issue writes is right: its deadline is at least one tick ahead (R22, R161). -/
theorem correlatorInv_of_armed {s u : State} (h : CorrelatorInv s) {k : Nat} {kp : KindParams}
    (hk : s.cfg.kinds[k]? = some kp) (hpos : 1 ≤ kp.timeoutTicks) (cfg : u.cfg = s.cfg) (now : u.now = s.now)
    (rc : u.rc = s.rc.set k (.awaiting s.now (s.now + kp.timeoutTicks))) : CorrelatorInv u := by
  obtain ⟨hlen, hentries⟩ := h
  have hrec : ∀ j, rcOf u j =
      if j = k ∧ k < s.rc.length then .awaiting s.now (s.now + kp.timeoutTicks) else rcOf s j :=
    fun j => by rw [rcOf, rc, getD_set, rcOf]
  rw [CorrelatorInv, cfg, rc, List.length_set]
  refine ⟨hlen, fun j hj => ?_⟩
  by_cases hjk : j = k ∧ k < s.rc.length
  · obtain ⟨rfl, -⟩ := hjk
    rw [rcEntryOk_iff, hrec, if_pos ⟨rfl, hlen ▸ hj⟩, cfg, now]
    rintro _ _ ⟨⟩
    exact ⟨kp, hk, rfl, le_rfl, Nat.lt_add_of_pos_right hpos⟩
  · exact rcEntryOk_of_record (hentries j hj) cfg now (.inl ((hrec j).trans (if_neg hjk)))

/-- An issue arms its kind or has no effect (R161, R162); R4 (f) makes every timeout at least one tick. -/
theorem issueRequest_correlatorInv {s : State} (h : CorrelatorInv s) (hc : configWf s.cfg = true) {kp : KindParams}
    {k : Nat} (hk : s.cfg.kinds[k]? = some kp) (p : List Byte) : CorrelatorInv (issueRequest kp k p s).1 := by
  obtain ⟨-, e⟩ | ⟨-, -, -, e⟩ := issueRequest_cases kp k p s
  · rwa [e]
  · obtain ⟨hcfg, -, -, -, -, -, -, -, hnow, -⟩ := encodeFrame_keeps kp.reqCmd p s
    obtain ⟨-, -, -, -, -, htimeout, -⟩ := (configWf_iff s.cfg).1 hc
    rw [e]
    exact correlatorInv_of_armed h hk (htimeout kp (List.mem_of_getElem? hk)) hcfg hnow rfl

theorem submitCommand_correlatorInv {s : State} (h : CorrelatorInv s) (hc : configWf s.cfg = true) (c : Byte)
    (p : List Byte) : CorrelatorInv (submitCommand c p s).1 := by
  obtain ⟨k, kp, -, hk, e⟩ | ⟨-, -, e⟩ | ⟨-, -, e⟩ := submitCommand_cases c p s
  · rw [e]
    exact issueRequest_correlatorInv h hc hk p
  · rwa [e]
  · rw [e]
    obtain ⟨hcfg, -, -, -, -, -, -, hrc, hnow, -⟩ := encodeFrame_keeps c p s
    exact correlatorInv_of_records h hcfg hnow (congrArg _ hrc) fun k => .inl (rcOf_congr hrc k)

/-- A tick that brings a deadline ends its request, so the deadlines left are still to come (R166, R186). -/
theorem advanceTime_correlatorInv {s : State} (h : CorrelatorInv s) : CorrelatorInv (advanceTime s) := by
  obtain ⟨hlen, hentries⟩ := h
  obtain ⟨hnow, hcfg, -, -, -, -, -, -, hrc, -⟩ := advanceTime_keeps s
  rw [CorrelatorInv, hrc, hcfg]
  refine ⟨hlen, fun k hk => ?_⟩
  have hrec := rcOf_expireAll (List.range s.cfg.kinds.length) { s with now := s.now + 1 } k
  rw [rcEntryOk_iff, hcfg, hnow, advanceTime, hrec]
  split
  · nofun
  · next hnot =>
    intro issueTs deadline ha
    obtain ⟨kp, hkp, hdeadline, hissued, -⟩ := rcEntryOk_iff.1 (hentries k hk) issueTs deadline ha
    have hearly : ¬ deadline ≤ s.now + 1 := fun hdue =>
      hnot ⟨List.mem_range.2 hk, rcExpireEnabled_iff.2 ⟨issueTs, deadline, ha, hdue⟩⟩
    exact ⟨kp, hkp, hdeadline, Nat.le_succ_of_le hissued, Nat.lt_of_not_le hearly⟩

/-- There is one record for each kind, whatever becomes of the requests (R171). -/
theorem Effect.rc_length {i : Instr} {s u : State} (h : Effect s i u) (hr : i ≠ .reset)
    (hi : ∀ k p, i ≠ .rcIssue k p) (hc : ∀ c p, i ≠ .cmdSubmit c p) : u.rc.length = s.rc.length := by
  by_cases ha : MayEnd i
  · cases h with
    | query | disabled => rfl
    | fcDispatch c p =>
      obtain ⟨-, -, -, -, -, -, -, hrc, -⟩ := dispatchFrame_keeps c p s
      exact hrc
    | rcResolve | rcExpire => exact List.length_set
    | tick =>
      obtain ⟨-, -, -, -, -, -, -, -, hrc, -⟩ := advanceTime_keeps s
      exact hrc
    | delivery =>
      obtain ⟨-, -, -, -, -, -, -, -, hrc, -⟩ := receiveBytes_keeps _ s
      exact hrc
    | _ => simp [MayEnd, agentOf] at ha
  · exact congrArg List.length (h.writesOnly _ (correlators_notMem_mayWrite hr ha hi hc)).symm

/-- Apart from an issue and a tick, an operation at most ends requests (`Effect.atMostEnds`), at the same time. -/
theorem Effect.correlatorInv {i : Instr} {s u : State} (h : Effect s i u) (hr : i ≠ .reset)
    (hwf : configWf s.cfg = true) (hs : CorrelatorInv s) : CorrelatorInv u := by
  have hother : (∀ k p, i ≠ .rcIssue k p) → (∀ c p, i ≠ .cmdSubmit c p) → i ≠ .tick → CorrelatorInv u :=
    fun hi hc ht => correlatorInv_of_records hs h.cfg_eq (h.writesOnly _ (time_notMem_mayWrite hr ht)).symm
      (h.rc_length hr hi hc) fun k => (h.atMostEnds hr hi hc k).record_or_idle
  cases h with
  | rcIssue p hk => exact issueRequest_correlatorInv hs hwf hk p
  | cmdSubmit c p => exact submitCommand_correlatorInv hs hwf c p
  | tick => exact advanceTime_correlatorInv hs
  | query | disabled => exact hs
  | delivery hd => exact hother (by rintro _ _ rfl; cases hd) (by rintro _ _ rfl; cases hd) (by rintro rfl; cases hd)
  | reset => exact absurd rfl hr
  | _ => exact hother nofun nofun nofun

/-! ### The reports on `OUT` and `DIAG` (R170, R201, R205) -/

/-- The outcomes on `OUT` are well formed, and the counters agree with `DIAG`. -/
structure ReportsInv (s : State) : Prop where
  outcomes : OutInv s
  counters : CounterInv s

theorem ReportsInv.congr {s u : State} (h : ReportsInv s) (cfg : u.cfg = s.cfg) (out : u.out = s.out)
    (trace : u.diagTrace = s.diagTrace) (counters : u.diag = s.diag) : ReportsInv u := by
  obtain ⟨houtcomes, hcounters⟩ := h
  exact ⟨by rwa [OutInv, cfg, out], by simpa only [CounterInv, diagCount, trace, counters] using hcounters⟩

/-- A diagnostic moves the counter of its own number (R201). -/
theorem ReportsInv.raiseDiag {s : State} (h : ReportsInv s) (r : DiagRecord) : ReportsInv (raiseDiag r s) := by
  obtain ⟨houtcomes, hcounters⟩ := h
  refine ⟨houtcomes, ?_⟩
  cases r <;> simpa [CounterInv, diagCount, countDiag, diagNumber, droppedBy] using hcounters

theorem ReportsInv.resolveRequest {s : State} (h : ReportsInv s) {k : Nat} {why : Reason} {code : Option Byte}
    (hok : outcomeOk s.cfg { kind := k, success := decide (why = .ok), reason := why, code := code } = true) :
    ReportsInv (resolveRequest k why code s) := by
  obtain ⟨houtcomes, hcounters⟩ := h
  refine ⟨?_, hcounters⟩
  rw [OutInv, resolveRequest_out, resolveRequest_cfg]
  simpa [or_imp, forall_and, hok] using houtcomes

/-- The reason is the one of the status byte (R163). -/
theorem ReportsInv.resolveByStatus {s : State} (h : ReportsInv s) {k : Nat} {kp : KindParams}
    (hk : s.cfg.kinds[k]? = some kp) (st : Byte) : ReportsInv (resolveByStatus kp k st s) :=
  h.resolveRequest (by simp [outcomeOk, hk])

/-- A timeout has no code (R166). -/
theorem ReportsInv.expireRequest {s : State} (h : ReportsInv s) {k : Nat} (hk : k < s.cfg.kinds.length) :
    ReportsInv (expireRequest k s) :=
  (h.resolveRequest (by simp [outcomeOk, List.getElem?_eq_getElem hk])).raiseDiag _

theorem ReportsInv.respond {s : State} (h : ReportsInv s) {k : Nat} {kp : KindParams}
    (hk : s.cfg.kinds[k]? = some kp) (c st : Byte) : ReportsInv (respond kp k c st s) := by
  obtain ⟨_, _, -, e⟩ | ⟨-, e⟩ := respond_cases kp k c st s
  · rw [e]
    exact h.resolveByStatus hk st
  · rw [e]
    exact h.raiseDiag _

/-- The look-up hands each kind its own parameters: what is left of `KINDS` is `KINDS` from `k` on. -/
theorem ReportsInv.correlate {s : State} (h : ReportsInv s) {kps : List KindParams} {k : Nat}
    (hkps : kps = s.cfg.kinds.drop k) (c st : Byte) : ReportsInv (correlate c st kps k s).1 := by
  induction kps generalizing k s with
  | nil => exact h
  | cons kp rest ih =>
    have hk : s.cfg.kinds[k]? = some kp := by rw [← List.head?_drop, ← hkps, List.head?_cons]
    have hrest : rest = s.cfg.kinds.drop (k + 1) := by rw [← List.tail_drop, ← hkps, List.tail_cons]
    obtain ⟨hcfg, -⟩ := respond_keeps kp k c st s
    simp only [Machine.correlate]
    split
    · exact ih (h.respond hk c st) (by rwa [hcfg])
    · exact ih h hrest

theorem ReportsInv.dispatchFrame {s : State} (h : ReportsInv s) (c : Byte) (p : List Byte) :
    ReportsInv (dispatchFrame c p s) := by
  have hcorrelate := h.correlate (k := 0) rfl c (payloadByte p 0)
  simp only [Machine.dispatchFrame]
  split
  · exact hcorrelate.congr rfl rfl rfl rfl
  · split
    · exact hcorrelate
    · exact hcorrelate.raiseDiag _

/-- The extractor's own counters, of the bytes passed over, have no record on `DIAG` (R122, R201). -/
theorem ReportsInv.extractFrame {s : State} (h : ReportsInv s) : ReportsInv (extractFrame s).1 := by
  obtain ⟨houtcomes, hcounters⟩ := h
  obtain ⟨-, -, -, -, hdropped, hunknown, hunsolicited, hnormalized, hshort⟩ :=
    extractPasses_frame_condition s.cfg (ringLength s.cfg.cw s.rb + 1) s.rb s.diag
  refine ⟨houtcomes, ?_⟩
  rw [extractFrame_eq]
  simpa only [CounterInv, diagCount, hdropped, hunknown, hunsolicited, hnormalized, hshort] using hcounters

theorem ReportsInv.drainFrames {s : State} (h : ReportsInv s) (turns : Nat) : ReportsInv (drainFrames turns s) := by
  induction turns generalizing s with
  | zero => exact h
  | succ turns ih =>
    have hextract := h.extractFrame
    rw [Machine.drainFrames]
    rcases hx : Machine.extractFrame s with ⟨t, _ | ⟨command, payload⟩⟩
    · rwa [hx] at hextract
    · rw [hx] at hextract
      exact ih (hextract.dispatchFrame command payload)

theorem ReportsInv.receiveBytes {s : State} (h : ReportsInv s) (bytes : List Byte) :
    ReportsInv (receiveBytes bytes s) := by
  have hpushed : ReportsInv { s with rb := (ringPush s.cfg.cw s.rb bytes).1 } := h.congr rfl rfl rfl rfl
  rw [receiveBytes_eq_drainFrames]
  refine .drainFrames ?_ _
  by_cases hover : (ringPush s.cfg.cw s.rb bytes).2 < bytes.length
  · rw [deliveredState_overflow hover]
    exact hpushed.raiseDiag _
  · rwa [deliveredState_whole hover]

theorem ReportsInv.expireAll {s : State} (h : ReportsInv s) {ks : List Nat} (hks : ∀ k ∈ ks, k < s.cfg.kinds.length) :
    ReportsInv (ks.foldl expireIfDue s) := by
  induction ks generalizing s with
  | nil => exact h
  | cons k ks ih =>
    obtain ⟨hk, hrest⟩ := List.forall_mem_cons.1 hks
    obtain ⟨hcfg, -⟩ := expireIfDue_keeps s k
    have hone : ReportsInv (expireIfDue s k) := by
      unfold expireIfDue
      split
      · exact h.expireRequest hk
      · exact h
    exact ih hone (by rwa [hcfg])

theorem ReportsInv.advanceTime {s : State} (h : ReportsInv s) : ReportsInv (advanceTime s) :=
  .expireAll (s := { s with now := s.now + 1 }) (h.congr rfl rfl rfl rfl) fun _ => List.mem_range.1

theorem ReportsInv.encodeFrame {s : State} (h : ReportsInv s) (c : Byte) (p : List Byte) :
    ReportsInv (encodeFrame c p s).1 := by
  rw [encodeFrame_eq]
  dsimp only
  split
  · exact h
  · exact h.raiseDiag _

theorem ReportsInv.enqueueFrame {s : State} (h : ReportsInv s) (f : List Byte) : ReportsInv (enqueueFrame f s).1 := by
  obtain ⟨-, e⟩ | ⟨-, e⟩ := enqueueFrame_cases f s
  · rw [e]
    exact h.congr rfl rfl rfl rfl
  · rwa [e]

theorem ReportsInv.issueRequest {s : State} (h : ReportsInv s) (kp : KindParams) (k : Nat) (p : List Byte) :
    ReportsInv (issueRequest kp k p s).1 := by
  obtain ⟨-, e⟩ | ⟨-, -, -, e⟩ := issueRequest_cases kp k p s
  · rwa [e]
  · rw [e]
    exact (h.encodeFrame kp.reqCmd p).congr rfl rfl rfl rfl

theorem ReportsInv.submitCommand {s : State} (h : ReportsInv s) (c : Byte) (p : List Byte) :
    ReportsInv (submitCommand c p s).1 := by
  obtain ⟨k, kp, -, -, e⟩ | ⟨-, -, e⟩ | ⟨-, -, e⟩ := submitCommand_cases c p s
  · rw [e]
    exact h.issueRequest kp k p
  · rwa [e]
  · rw [e]
    exact (h.encodeFrame c p).congr rfl rfl rfl rfl

theorem ReportsInv.serveWorker {s : State} (h : ReportsInv s) (w : Nat) (he : wkServeEnabled s = true) :
    ReportsInv (serveWorker w s) := by
  obtain ⟨-, ⟨-, e⟩ | ⟨-, -, f, rest, -, e⟩⟩ := serveWorker_cases w he
  · rw [e]
    exact h.congr rfl rfl rfl rfl
  · have htold : ReportsInv (if w = frameLen then s else Machine.raiseDiag (.shortWrite w) s) := by
      split
      · exact h
      · exact h.raiseDiag _
    rw [e]
    exact htold.congr rfl rfl rfl rfl

/-- Every outcome is reported by a resolution or an expiry of a kind, every diagnostic by `raiseDiag`. -/
theorem Effect.reportsInv {i : Instr} {s u : State} (h : Effect s i u) (hr : i ≠ .reset) (hc : CorrelatorInv s)
    (hs : ReportsInv s) : ReportsInv u := by
  obtain ⟨hlen, -⟩ := hc
  cases h with
  | query | disabled => exact hs
  | reset => exact absurd rfl hr
  | fcEncode c p => exact hs.encodeFrame c p
  | fcExtract => exact hs.extractFrame
  | fcDispatch c p => exact hs.dispatchFrame c p
  | cqEnqueue f => exact hs.enqueueFrame f
  | cmdSubmit c p => exact hs.submitCommand c p
  | wkServe w he => exact hs.serveWorker w he
  | rcIssue p hk => exact hs.issueRequest _ _ p
  | rcResolve st hk he => exact hs.resolveByStatus hk st
  | rcExpire he => exact hs.expireRequest (lt_length_of_ne_idle hlen (ne_idle_of_rcExpireEnabled he))
  | tick => exact hs.advanceTime
  | delivery => exact hs.receiveBytes _
  | rbAlloc | rbPush | rbPop | rbDiscard | draw | wkWake | ctlShutdown | tpConnect | tpDisconnect =>
    exact hs.congr rfl rfl rfl rfl

/-! ### The whole invariant along a step -/

/-- `RESET` is the construction: the reset state, but for the schedule and the count of draws (R230, log 14). -/
theorem execReset_stateInv {s t : State} (hc : configWf s.cfg = true) (h : execReset s = .next t) : StateInv t := by
  obtain ⟨-, ⟨hp, hcap, -⟩, -⟩ := (configWf_iff s.cfg).1 hc
  obtain ⟨-, -, halloc⟩ | ⟨hp' | hcap', -⟩ := ringAlloc_cases s.cfg.rbMaxCap s.rb s.cfg.rbCap
  · cases h
    rw [halloc]
    exact resetWith_stateInv hc
  · simp [hp] at hp'
  · omega

/-- Part by part, a completed operation keeps the invariant (R207). -/
theorem exec_stateInv {i : Instr} {s t : State} (hc : configWf s.cfg = true) (h : exec i s = .next t)
    (hs : StateInv s) : StateInv t := by
  by_cases hr : i = .reset
  · subst hr
    exact execReset_stateInv hc h
  obtain ⟨⟨hall, hcap, hring⟩, hqueue, hrc, hpacing, htx, hout, hcount⟩ := hs
  have hpacing' : PacingInv t := exec_pacingInv h hpacing
  have hlength : ∀ f, i = .cqEnqueue f → f.length = frameLen := by
    rintro f rfl
    exact length_of_exec_cqEnqueue h
  obtain ⟨u, r, heff, rfl⟩ := exec_next_effect h
  obtain ⟨hall', hcap'⟩ := heff.ringBounded hr ⟨hall, hcap⟩
  have hring' : RingInv s.cfg.cw u.rb := heff.ringOk hc (fun _ => hring) hall'
  rw [← heff.cfg_eq] at hcap' hring'
  obtain ⟨hout', hcount'⟩ := heff.reportsInv hr hrc ⟨hout, hcount⟩
  exact ⟨⟨hall', hcap', hring'⟩, heff.queueInv hr hlength hqueue, heff.correlatorInv hr hc hrc, hpacing',
    (heff.frameFlow hr).txInv hqueue htx, hout', hcount'⟩

/-- No operation writes the schedule (log 3). -/
theorem schedule_notMem_mayWrite (i : Instr) : Element.schedule ∉ mayWrite i := by
  cases i <;> simp [mayWrite, deliveryWrites]

end Sys2Proof.Proofs

open Sys2Proof.Proofs

/-- Settles O10: a step leaves the state alone, turns a transaction away or runs an operation, and an operation keeps
every part of the invariant (`exec_stateInv`). -/
theorem everyStepKeepsTheStateInvariant : Obligations.EveryStepKeepsTheStateInvariant := by
  intro s t hs h
  obtain ⟨hc, rfl | ⟨tr, rest, htr⟩⟩ := step_next_cases h
  · exact hs
  obtain rfl | ⟨i, hi⟩ := runTransaction_next_cases htr
  · exact hs
  · exact exec_stateInv (s := { s with sched := rest }) hc hi hs

/-- Settles O13: a well-formed operation is never refused (`exec_next_of_wf`), and neither the configuration nor the
schedule is on any "State written" line. -/
theorem everyWellFormedOperationCompletes : Obligations.EveryWellFormedOperationCompletes := by
  intro s i h
  obtain ⟨t, ht⟩ := exec_next_of_wf h
  have hsched := operationsWriteOnlyTheirOwnElements i s t .schedule ht (schedule_notMem_mayWrite i)
  exact ⟨t, ht, exec_cfg ht, hsched.symm⟩

end

section
/-! The statement of 70_reset_and_hazards.md: under a well-formed configuration `RESET` is the construction once more,
but for what belongs to the run. -/

open Sys2Proof Sys2Proof.Machine Sys2Proof.Laws

namespace Sys2Proof.Proofs

/-- R4 (b) gives `RB_ALLOC` no reason to refuse the configured capacity (R101, R29). -/
theorem ringAlloc_rbCap {cfg : Config} (hc : configWf cfg = true) (rb : Ring) :
    ringAlloc cfg.rbMaxCap rb cfg.rbCap = (Ring.fresh cfg.rbCap, true) := by
  obtain ⟨-, ⟨hpow, hcap, -⟩, -⟩ := (configWf_iff cfg).1 hc
  obtain ⟨-, -, halloc⟩ | ⟨hnot | hlt, -⟩ := ringAlloc_cases cfg.rbMaxCap rb cfg.rbCap
  · exact halloc
  · simp [hpow] at hnot
  · omega

/-- R230: `RESET` leaves the state of construction, with the run's schedule and count of free values (log 14). -/
theorem execReset_eq_resetWith {s : State} (hc : configWf s.cfg = true) :
    execReset s = .next { State.resetWith s.cfg with sched := s.sched, draws := s.draws } := by
  rw [execReset, ringAlloc_rbCap hc]
  rfl

/-- R29: every kind's correlator is idle after construction. -/
theorem resetWith_rc (cfg : Config) : (State.resetWith cfg).rc = List.replicate cfg.kinds.length .idle :=
  List.map_const' ..

end Sys2Proof.Proofs

open Sys2Proof.Proofs

/-- Settles O17: `RESET` is the construction (`execReset_eq_resetWith`), whose values are those of R29's table. -/
theorem resetWritesTheConstructionValues : Obligations.ResetWritesTheConstructionValues := by
  intro s hc
  refine ⟨rfl, (execReset_eq_resetWith hc).trans ?_⟩
  rw [← resetWith_rc]
  rfl

end
